-- ==== Sys2Proof/Word.lean ====
section
/-! DEFINITION. The word types of waveform_generator: every register, buffer element and bus access is 64 bits
(00_scope.md R7), and a byte is the unit of the address space (20_memory.md R70). -/

namespace Sys2Proof

/-- A 64-bit register, buffer element, command word, or binary64 bit pattern (00_scope.md R7, R10). -/
abbrev Word := BitVec 64

/-- One byte of the window (20_memory.md R73). -/
abbrev Byte := BitVec 8

/-- The sign and the 51 payload bits of a quiet NaN, the part 00_scope.md R12 leaves free. -/
abbrev NaNBits := BitVec 52

end Sys2Proof
end

