-- ==== Sys2Proof/Syntax.lean ====
section
/-! DEFINITION. The commands (spec/opcode_table.json, one constructor per row) and the fields of a command word
(30_encoding.md R101). -/

namespace Sys2Proof

/-- The seven legal commands of 30_encoding.md R104. No command carries an operand field (R105). -/
inductive Instr where
  | genSine
  | genSaw
  | genSquare
  | genUnknownKind
  | design
  | filter
  | eval
deriving DecidableEq, Repr

/-- The fields of a command word: OP [3:0], KIND [5:4], RSV [63:6] (30_encoding.md R101). -/
structure CmdFields where
  op : BitVec 4
  kind : BitVec 2
  rsv : BitVec 58
deriving DecidableEq, Repr

/-- Why a command word is ILLEGAL: the three grounds of 30_encoding.md R106. -/
inductive Reject where
  /-- RSV is not 0. -/
  | rsvNonzero
  /-- OP is 0x0 or 0x5 to 0xF. -/
  | opIllegal
  /-- KIND is not 0 with OP 0x2, 0x3 or 0x4. -/
  | kindNonzero
deriving DecidableEq, Repr

end Sys2Proof
end

