-- ==== Sys2Proof/WellFormed.lean ====
section
/-! DEFINITION. When the fields of a command word are well formed (30_encoding.md R101, R102, R106). An `Instr` has no
operand to check (R105): its well-formedness is that of the fields it is encoded by. -/

namespace Sys2Proof

/-- RSV "must be 0" (R101). -/
def CmdFields.rsvOk (f : CmdFields) : Bool := f.rsv == 0#58

/-- OP is one of the operation codes of R102. -/
def CmdFields.opOk (f : CmdFields) : Bool :=
  f.op == 0x1#4 || f.op == 0x2#4 || f.op == 0x3#4 || f.op == 0x4#4

/-- KIND "must be 0 for every other OP" than 1 (R101). -/
def CmdFields.kindOk (f : CmdFields) : Bool := f.op == 0x1#4 || f.kind == 0#2

/-- The fields encode a command (R104: not ILLEGAL). -/
def CmdFields.wf (f : CmdFields) : Bool := f.rsvOk && f.opOk && f.kindOk

end Sys2Proof
end

