-- ==== Sys2Proof/Decode.lean ====
section
/-! DEFINITION. The decoder (30_encoding.md R104), total on every word and rejecting by name, and after it the encoder
from the same tables (R101 to R103). -/

namespace Sys2Proof

/-- Cut a command word into its fields (R101). -/
def splitWord (w : Word) : CmdFields where
  op := w.extractLsb' 0 4
  kind := w.extractLsb' 4 2
  rsv := w.extractLsb' 6 58

/-- The waveform that KIND selects in a GEN command (R103). -/
def decodeKind (k : BitVec 2) : Instr :=
  if k = 0#2 then .genSine
  else if k = 1#2 then .genSaw
  else if k = 2#2 then .genSquare
  else .genUnknownKind

/-- A command that admits KIND = 0 only (R104). -/
def kindZero (k : BitVec 2) (i : Instr) : Except Reject Instr :=
  if k = 0#2 then .ok i else .error .kindNonzero

/-- The verdict on a word's fields, in the order of R104. -/
def decodeFields (f : CmdFields) : Except Reject Instr :=
  if f.rsv ≠ 0#58 then .error .rsvNonzero
  else if f.op = 0x1#4 then .ok (decodeKind f.kind)
  else if f.op = 0x2#4 then kindZero f.kind .design
  else if f.op = 0x3#4 then kindZero f.kind .filter
  else if f.op = 0x4#4 then kindZero f.kind .eval
  else .error .opIllegal

/-- decode(W) of R104: it depends on the word alone (R107). -/
def decode (w : Word) : Except Reject Instr := decodeFields (splitWord w)

/-- The fields of each command (R102, R103; spec/opcode_table.json). -/
def encodeFields : Instr → CmdFields
  | .genSine => { op := 0x1#4, kind := 0#2, rsv := 0#58 }
  | .genSaw => { op := 0x1#4, kind := 1#2, rsv := 0#58 }
  | .genSquare => { op := 0x1#4, kind := 2#2, rsv := 0#58 }
  | .genUnknownKind => { op := 0x1#4, kind := 3#2, rsv := 0#58 }
  | .design => { op := 0x2#4, kind := 0#2, rsv := 0#58 }
  | .filter => { op := 0x3#4, kind := 0#2, rsv := 0#58 }
  | .eval => { op := 0x4#4, kind := 0#2, rsv := 0#58 }

/-- Put fields together into a command word, RSV most significant (R101). -/
def joinFields (f : CmdFields) : Word := f.rsv ++ f.kind ++ f.op

/-- The command word of an instruction. -/
def encode (i : Instr) : Word := joinFields (encodeFields i)

/-- The instruction the decoder reads from a row of spec/opcode_table.json: one 64-bit word (R100), bits above `nbits`
zero. A command has no bits above 63, so a longer word is refused. -/
def decodeTableWord (nbits w : Nat) : Option Instr :=
  if nbits ≤ 64 then (decode (BitVec.ofNat 64 (w % 2 ^ nbits))).toOption else none

end Sys2Proof
end

