-- ==== Sys2Proof/Config.lean ====
section
/-! DEFINITION. What this implementation fixes (00_scope.md R7; 10_state.md R31, R32) and the values the spec leaves
open. An `opaque` constant has no body, so nothing in Lean can evaluate it or prove a value of it. -/

namespace Sys2Proof.Config

/-- BUF_DEPTH, the samples of each of X and Y: 131072 for this hardware (00_scope.md R7; log 14). -/
def bufDepth : Nat := 131072

/-- RESP_DEPTH, the points of each of FREQ, MAG and PHASE: 8192 for this hardware (00_scope.md R7; log 14). -/
def respDepth : Nat := 8192

/-- The hard-wired ID register (10_state.md R31). -/
def idWord : Word := 0x0000000757464731#64

/-- The hard-wired CAP register: RESP_DEPTH above BUF_DEPTH (10_state.md R32). -/
def capWord : Word := BitVec.ofNat 32 respDepth ++ BitVec.ofNat 32 bufDepth

/-- WFG_BASE, the platform address of offset 0 (20_memory.md R70, OPEN; log 13). -/
opaque wfgBase : Nat

/-- FREE VALUE (00_scope.md R12; log 3). Sign and payload of a NaN result, drawn per result: `run` is the draw counter of
the command, `idx` the sample or grid index, `site` the primitive's place in the pseudocode. -/
opaque freeNaN (run idx site : Nat) : NaNBits

/-- FREE VALUE (20_memory.md R86; log 5). The word a host read of the pending command's output set returns. -/
opaque freeWord (draw : Nat) : Word

/-- FREE VALUE (70_reset_and_hazards.md R250, R251; log 4). What a buffer byte that nothing has written since reset number
`epoch` reads as. -/
opaque freeByte (epoch addr : Nat) : Byte

/-! The open parameter NUM (00_scope.md R17; log 6): five arbitrary functions. Machine/Num.lean confines them to laws
L1 to L7 and leaves every lawful binding as it is. -/

/-- The unconfined NUM.sin. -/
opaque rawSin (x : Word) : Word

/-- The unconfined NUM.cos. -/
opaque rawCos (x : Word) : Word

/-- The unconfined NUM.log10. -/
opaque rawLog10 (x : Word) : Word

/-- The unconfined NUM.atan2, arguments y then x. -/
opaque rawAtan2 (y x : Word) : Word

/-- The unconfined NUM.hypot. -/
opaque rawHypot (x y : Word) : Word

end Sys2Proof.Config
end

