-- ==== Sys2Proof/Machine/State.lean ====
section
/-! DEFINITION. The state of the block and of its two agents as plain data (10_state.md; 00_scope.md R23), the reasons a
step can stop, and the state after reset (70_reset_and_hazards.md R250). -/

namespace Sys2Proof.Machine

/-- The error causes of 60_exceptions.md R220, `none` for code 0. Codes 8 to 15 are never produced (log 18). -/
inductive Cause where
  | none
  | unknownKind
  | qNotPositive
  | fcOutOfRange
  | coeffMalformed
  | fsInvalid
  | lengthInvalid
  | illegalCmd
deriving DecidableEq, Repr

/-- The fields of STATUS (10_state.md R34). The reserved bits [63:14] hold nothing. -/
structure Status where
  busy : Bool
  done : Bool
  err : Bool
  ovr : Bool
  cause : Cause
  lastOp : BitVec 4
  lastKind : BitVec 2
deriving DecidableEq, Repr

/-- The registers that store a 64-bit word (10_state.md R36 to R47). -/
structure Regs where
  fundHz : Word
  fs : Word
  dur : Word
  ampl : Word
  phase0 : Word
  fc : Word
  q : Word
  npoints : Word
  xLen : Word
  yLen : Word
  respLen : Word
  b0 : Word
  b1 : Word
  b2 : Word
  a0 : Word
  a1 : Word
  a2 : Word
deriving DecidableEq, Repr

/-- The five buffers (10_state.md R49 to R51) as the bytes of the window that something has written since reset number
`epoch`, addresses strictly rising. A byte that is not listed has not been written (Machine/Memory.lean says what it
reads as; log 4). `epoch` is the model's own. -/
structure Memory where
  epoch : Nat
  cells : List Host.Cell
deriving DecidableEq, Repr

/-- One entry of the global order of steps (20_memory.md R80; log 1). Offsets count from WFG_BASE (log 13). -/
inductive Input where
  /-- The host reads `size` bytes at offset `off` (20_memory.md R74). -/
  | read (off size : Nat)
  /-- The host writes `size` bytes at offset `off` (20_memory.md R75). -/
  | write (off size : Nat) (v : Word)
  /-- The engine has the turn (60_exceptions.md R225). -/
  | engine
  /-- The platform asserts and releases reset (70_reset_and_hazards.md R250, R251; log 12). -/
  | reset
deriving DecidableEq, Repr

/-- The machine: the block (`regs`, `status`, `pend`, `mem`) and the model's own fields: `inputs`, the steps still to come;
`rdata`, the word the last host read returned; `draws`, the counter free values are drawn at (log 1, 15, 16). -/
structure State where
  regs : Regs
  status : Status
  pend : Word
  mem : Memory
  inputs : List Input
  rdata : Option Word
  draws : Nat
deriving DecidableEq, Repr

/-- Why the machine stops with a fault. -/
inductive Fault where
  /-- Raised by the step of a host access that is not an aligned 64-bit access inside the window: the model has no step for
  it and the host is stuck (20_memory.md R76). Safe: the spec specifies no response, and the model goes no further. -/
  | hostAccessNotAdmitted (off size : Nat)
deriving DecidableEq, Repr

/-- Why an instruction has no meaning. -/
inductive Refusal where
  /-- Raised by an arm of `exec` whose instruction has no meaning yet; no arm of this model does. Safe: the model stops. -/
  | notModelled (mnemonic : String)
deriving DecidableEq, Repr

/-- The names of the storing registers (10_state.md R58). -/
inductive Reg where
  | fundHz | fs | dur | ampl | phase0 | fc | q | npoints | xLen | yLen | respLen
  | b0 | b1 | b2 | a0 | a1 | a2
deriving DecidableEq, Repr

/-- The five buffers (10_state.md R49 to R51). -/
inductive Buf where
  | x | y | freq | mag | phase
deriving DecidableEq, Repr

/-- What stands at an aligned offset of the window (10_state.md R58; 20_memory.md R71, R72). -/
inductive Loc where
  | id
  | cap
  | cmd
  | status
  | reg (r : Reg)
  /-- Element `i` of buffer `b`, within its depth. -/
  | elem (b : Buf) (i : Nat)
  /-- Reserved, or a slot at or beyond its buffer's depth: reads as zero, writes ignored. -/
  | reserved
deriving DecidableEq, Repr

/-- STATUS after reset: every field 0 (R250). -/
def Status.reset : Status where
  busy := false
  done := false
  err := false
  ovr := false
  cause := .none
  lastOp := 0#4
  lastKind := 0#2

/-- The registers after reset: the reset column of 10_state.md R58. -/
def Regs.reset : Regs where
  fundHz := 0#64
  fs := 0x40E5888000000000#64
  dur := 0x4000000000000000#64
  ampl := 0x3FF0000000000000#64
  phase0 := 0x3FF921FB54442D18#64
  fc := 0#64
  q := 0#64
  npoints := 512#64
  xLen := 0#64
  yLen := 0#64
  respLen := 0#64
  b0 := 0#64
  b1 := 0#64
  b2 := 0#64
  a0 := 0#64
  a1 := 0#64
  a2 := 0#64

/-- The machine right after the first reset (70_reset_and_hazards.md R250): nothing written in the buffers, nothing to come
from the host, no read answered (log 1, 4, 15, 16). -/
def State.reset : State where
  regs := Regs.reset
  status := Status.reset
  pend := 0#64
  mem := { epoch := 0, cells := [] }
  inputs := []
  rdata := none
  draws := 0

end Sys2Proof.Machine
end

