-- ==== Sys2Proof/Machine/Flags.lean ====
section
/-! DEFINITION. The STATUS register: its word (10_state.md R34), its write (R35), and what acceptance, completion and a
dropped write do to it (60_exceptions.md R220, R224, R225; 70_reset_and_hazards.md R260). -/

namespace Sys2Proof.Machine

/-- The cause codes of R220. -/
def Cause.code : Cause → BitVec 4
  | .none => 0#4
  | .unknownKind => 1#4
  | .qNotPositive => 2#4
  | .fcOutOfRange => 3#4
  | .coeffMalformed => 4#4
  | .fsInvalid => 5#4
  | .lengthInvalid => 6#4
  | .illegalCmd => 7#4

/-- STATUS as the host reads it (R34): LAST_KIND [13:12], LAST_OP [11:8], CAUSE [7:4], OVR, ERR, DONE, BUSY. -/
def Status.toWord (t : Status) : Word :=
  0#50 ++ t.lastKind ++ t.lastOp ++ t.cause.code ++
    BitVec.ofBool t.ovr ++ BitVec.ofBool t.err ++ BitVec.ofBool t.done ++ BitVec.ofBool t.busy

/-- A host write of `v` (R35): 1 in bit 1 clears DONE, in bit 2 ERR and CAUSE, in bit 3 OVR. -/
def Status.clear (t : Status) (v : Word) : Status :=
  { t with
    done := t.done && !v.getLsbD 1
    err := t.err && !v.getLsbD 2
    cause := if v.getLsbD 2 then .none else t.cause
    ovr := t.ovr && !v.getLsbD 3 }

/-- Acceptance of command word `w` (R224). -/
def Status.accept (t : Status) (w : Word) : Status :=
  { t with
    busy := true
    done := false
    err := false
    cause := .none
    lastOp := w.extractLsb' 0 4
    lastKind := w.extractLsb' 4 2 }

/-- Completion with a cause, `none` for success (R225). -/
def Status.complete (t : Status) (c : Cause) : Status :=
  { t with
    busy := false
    done := true
    err := c != .none
    cause := c }

/-- A host write was dropped because BUSY = 1 (R260). -/
def Status.dropWrite (t : Status) : Status := { t with ovr := true }

end Sys2Proof.Machine
end

