-- ==== Sys2Proof/Machine/Map.lean ====
section
/-! DEFINITION. The address map: the register table of 10_state.md R58 and the regions of 20_memory.md R71, R72. -/

namespace Sys2Proof.Machine

/-- The window is 2^22 bytes (R70). -/
def windowSize : Nat := 0x400000

/-- The platform address of an offset, counted from WFG_BASE (R70; log 13). -/
def platformAddress (off : Nat) : Nat := Config.wfgBase + off

/-- The offset of a platform address, none below WFG_BASE (R70; log 13). -/
def offsetOf (pa : Nat) : Option Nat := if Config.wfgBase ≤ pa then some (pa - Config.wfgBase) else none

/-- Where a buffer starts (R71). -/
def Buf.base : Buf → Nat
  | .x => 0x100000
  | .y => 0x200000
  | .freq => 0x300000
  | .mag => 0x310000
  | .phase => 0x320000

/-- How many elements a buffer holds (R71; 00_scope.md R7). -/
def Buf.depth : Buf → Nat
  | .x | .y => Config.bufDepth
  | .freq | .mag | .phase => Config.respDepth

/-- Element i of a buffer is the word at base + 8 i (R71). -/
def Buf.addr (b : Buf) (i : Nat) : Nat := b.base + 8 * i

/-- The named registers by offset (10_state.md R58). -/
def registerMap : List (Nat × Loc) :=
  [(0x000, .id), (0x008, .cap), (0x010, .cmd), (0x018, .status),
   (0x020, .reg .fundHz), (0x028, .reg .fs), (0x030, .reg .dur), (0x038, .reg .ampl),
   (0x040, .reg .phase0), (0x048, .reg .fc), (0x050, .reg .q), (0x058, .reg .npoints),
   (0x060, .reg .xLen), (0x068, .reg .yLen), (0x070, .reg .respLen),
   (0x080, .reg .b0), (0x088, .reg .b1), (0x090, .reg .b2),
   (0x098, .reg .a0), (0x0A0, .reg .a1), (0x0A8, .reg .a2)]

/-- Element `i` of a buffer, or reserved at or beyond its depth (R72). -/
def slot (b : Buf) (i : Nat) : Loc := if i < b.depth then .elem b i else .reserved

/-- What stands at an aligned offset of the window (R71, R72; 10_state.md R56, R58). -/
def locate (off : Nat) : Loc :=
  if off < 0x100000 then (registerMap.lookup off).getD .reserved
  else if off < 0x200000 then slot .x ((off - 0x100000) / 8)
  else if off < 0x300000 then slot .y ((off - 0x200000) / 8)
  else if off < 0x310000 then slot .freq ((off - 0x300000) / 8)
  else if off < 0x320000 then slot .mag ((off - 0x310000) / 8)
  else if off < 0x330000 then slot .phase ((off - 0x320000) / 8)
  else .reserved

/-- The host may write the register (10_state.md R58): all but Y_LEN and RESP_LEN. -/
def Reg.writable : Reg → Bool
  | .yLen | .respLen => false
  | .fundHz | .fs | .dur | .ampl | .phase0 | .fc | .q | .npoints | .xLen
  | .b0 | .b1 | .b2 | .a0 | .a1 | .a2 => true

/-- The RW locations of 70_reset_and_hazards.md R260: the writable registers and the X elements within depth. -/
def Loc.writable : Loc → Bool
  | .reg r => r.writable
  | .elem .x _ => true
  | .elem .y _ | .elem .freq _ | .elem .mag _ | .elem .phase _ => false
  | .id | .cap | .cmd | .status | .reserved => false

/-- The only admitted access: 64 bits, aligned, inside the window (R76). -/
def admitted (off size : Nat) : Bool := size == 8 && off % 8 == 0 && decide (off < windowSize)

end Sys2Proof.Machine
end

