-- ==== Sys2Proof/Machine/Memory.lean ====
section
/-! DEFINITION. Reading and writing the bytes of the buffers, and words over them, little-endian (20_memory.md R73). Every
access of the model to a buffer goes through `Memory.readWord` and `Memory.write`. -/

namespace Sys2Proof.Machine

/-- The canonical form: addresses strictly rising. An unlisted address holds no byte, so no entry can equal it. -/
abbrev Memory.wf (m : Memory) : Prop := m.cells.Pairwise fun c d => c.1 < d.1

/-- The byte listed at `a`, if something has written it since reset. -/
def Memory.listed (m : Memory) (a : Nat) : Option Byte := (m.cells.find? fun c => c.1 == a).map Prod.snd

/-- The byte at `a`: an unlisted byte is the free value of its reset (70_reset_and_hazards.md R250; log 4). -/
def Memory.readByte (m : Memory) (a : Nat) : Byte := (m.listed a).getD (Config.freeByte m.epoch a)

/-- Bytes laid out from address `a` upwards. -/
def cellsFrom : Nat → List Byte → List Host.Cell
  | _, [] => []
  | a, b :: bs => (a, b) :: cellsFrom (a + 1) bs

/-- Write `bs` at `a` and the addresses above it; every other byte stays. -/
def Memory.write (m : Memory) (a : Nat) (bs : List Byte) : Memory where
  epoch := m.epoch
  cells := m.cells.filter (fun c => decide (c.1 < a)) ++ cellsFrom a bs ++
    m.cells.filter (fun c => decide (a + bs.length ≤ c.1))

/-- Byte `j` of a word is its bits [8j+7:8j] (20_memory.md R73). -/
def byteOfWord (w : Word) (j : Nat) : Byte := w.extractLsb' (8 * j) 8

/-- The bytes of a word in the order of their addresses (R73). -/
def bytesOfWord (w : Word) : List Byte :=
  [byteOfWord w 0, byteOfWord w 1, byteOfWord w 2, byteOfWord w 3,
   byteOfWord w 4, byteOfWord w 5, byteOfWord w 6, byteOfWord w 7]

/-- The word whose byte `j` is `f j` (R73). -/
def wordOfBytes (f : Nat → Byte) : Word := f 7 ++ f 6 ++ f 5 ++ f 4 ++ f 3 ++ f 2 ++ f 1 ++ f 0

/-- Words one after the other. -/
def bytesOfWords (ws : List Word) : List Byte := ws.flatMap bytesOfWord

/-- The word at `a` (R73). -/
def Memory.readWord (m : Memory) (a : Nat) : Word := wordOfBytes fun j => m.readByte (a + j)

/-- The buffers after one more reset: nothing listed, every byte a new free value (R250, R251; log 4). -/
def Memory.afterReset (m : Memory) : Memory where
  epoch := m.epoch + 1
  cells := []

end Sys2Proof.Machine
end

