-- ==== Sys2Proof/Machine/Ops.lean ====
section
/-! DEFINITION. The named operations over registers, buffers and the command life cycle. `State.complete` is the one
place where an error is taken (60_exceptions.md R225, R226): the block has no trap (R228) and no return from one (R229);
its counterpart is the host's write of STATUS, `State.writeStatus`. -/

namespace Sys2Proof.Machine

/-! ## Registers -/

def Regs.get (g : Regs) : Reg → Word
  | .fundHz => g.fundHz
  | .fs => g.fs
  | .dur => g.dur
  | .ampl => g.ampl
  | .phase0 => g.phase0
  | .fc => g.fc
  | .q => g.q
  | .npoints => g.npoints
  | .xLen => g.xLen
  | .yLen => g.yLen
  | .respLen => g.respLen
  | .b0 => g.b0
  | .b1 => g.b1
  | .b2 => g.b2
  | .a0 => g.a0
  | .a1 => g.a1
  | .a2 => g.a2

def Regs.set (g : Regs) (r : Reg) (v : Word) : Regs :=
  match r with
  | .fundHz => { g with fundHz := v }
  | .fs => { g with fs := v }
  | .dur => { g with dur := v }
  | .ampl => { g with ampl := v }
  | .phase0 => { g with phase0 := v }
  | .fc => { g with fc := v }
  | .q => { g with q := v }
  | .npoints => { g with npoints := v }
  | .xLen => { g with xLen := v }
  | .yLen => { g with yLen := v }
  | .respLen => { g with respLen := v }
  | .b0 => { g with b0 := v }
  | .b1 => { g with b1 := v }
  | .b2 => { g with b2 := v }
  | .a0 => { g with a0 := v }
  | .a1 => { g with a1 := v }
  | .a2 => { g with a2 := v }

/-- Write a register that stores any 64-bit pattern (10_state.md R59). -/
def State.setReg (s : State) (r : Reg) (v : Word) : State := { s with regs := s.regs.set r v }

/-! ## Buffers -/

/-- Element `i` of a buffer (20_memory.md R71). -/
def State.elem (s : State) (b : Buf) (i : Nat) : Word := s.mem.readWord (b.addr i)

/-- Elements 0 to n-1 of a buffer. -/
def State.elems (s : State) (b : Buf) (n : Nat) : List Word := (List.range n).map (s.elem b)

/-- Write `ws` to the elements of a buffer from element `i` on; every other element stays. -/
def State.setElems (s : State) (b : Buf) (i : Nat) (ws : List Word) : State :=
  { s with mem := s.mem.write (b.addr i) (bytesOfWords ws) }

/-! ## The command life cycle -/

/-- Acceptance of command word `w` by an idle engine (60_exceptions.md R224). -/
def State.accept (s : State) (w : Word) : State :=
  { s with pend := w, status := s.status.accept w }

/-- A host write was dropped because BUSY = 1 (70_reset_and_hazards.md R260). -/
def State.dropWrite (s : State) : State := { s with status := s.status.dropWrite }

/-- A host write of CMD (R224): accepted when idle, else dropped. -/
def State.submit (s : State) (w : Word) : State := if s.status.busy then s.dropWrite else s.accept w

/-- A host write of STATUS (10_state.md R35), never dropped: the acknowledgement of R229. -/
def State.writeStatus (s : State) (v : Word) : State := { s with status := s.status.clear v }

/-- The STATUS part of a completion (R225). The next command draws its free values afresh (log 3). -/
def State.finish (s : State) (c : Cause) : State :=
  { s with status := s.status.complete c, draws := s.draws + 1 }

/-- The completion of a command in state `s` (R225): a success `t` holds the committed output set; an error writes nothing
but STATUS (R226). -/
def State.complete (s : State) : Except Cause State → State
  | .ok t => t.finish .none
  | .error c => s.finish c

/-- Reset released (70_reset_and_hazards.md R250, R251): registers, STATUS and PEND at their reset values, a pending command
abandoned, the buffers unspecified; the host's side and the draw counter go on (log 12). -/
def State.afterReset (s : State) : State :=
  { s with
    regs := Regs.reset
    status := Status.reset
    pend := State.reset.pend
    mem := s.mem.afterReset }

end Sys2Proof.Machine
end

