-- ==== Sys2Proof/Machine/Bus.lean ====
section
/-! DEFINITION. The host's reads and writes (20_memory.md R74, R75, R86; 70_reset_and_hazards.md R260, R261). -/

namespace Sys2Proof.Machine

/-- The output set of a command (60_exceptions.md R227) as locations. For GEN the read-draw of R86 covers all of X and
X_LEN; for FILTER and EVAL the bound is the operand, which no write can change while BUSY = 1 (R81; log 9). -/
def outputSet (i : Instr) (g : Regs) : Loc → Bool
  | .elem b k =>
    match i, b with
    | .genSine, .x | .genSaw, .x | .genSquare, .x => true
    | .filter, .y => decide (k < g.xLen.toNat)
    | .eval, .freq | .eval, .mag | .eval, .phase => decide (k < g.npoints.toNat)
    | _, _ => false
  | .reg r =>
    match i, r with
    | .genSine, .xLen | .genSaw, .xLen | .genSquare, .xLen => true
    | .design, .b0 | .design, .b1 | .design, .b2 | .design, .a0 | .design, .a1 | .design, .a2 => true
    | .filter, .yLen => true
    | .eval, .respLen => true
    | _, _ => false
  | .id | .cap | .cmd | .status | .reserved => false

/-- A location is in the output set of the command pending in `s` (R86); an illegal command has none (R227). -/
def State.outputPending (s : State) (l : Loc) : Bool :=
  s.status.busy &&
    match decode s.pend with
    | .ok i => outputSet i s.regs l
    | .error _ => false

/-- The stable value of a location (R74). -/
def State.valueAt (s : State) : Loc → Word
  | .id => Config.idWord
  | .cap => Config.capWord
  | .cmd => 0#64
  | .status => s.status.toWord
  | .reg r => s.regs.get r
  | .elem b i => s.elem b i
  | .reserved => 0#64

/-- The word a host read of a location returns (R74, R86): free while the location is being written (log 5). -/
def State.readValue (s : State) (l : Loc) : Word :=
  if s.outputPending l then Config.freeWord s.draws else s.valueAt l

/-- A host read: the word goes to the host (log 15); nothing of the block changes (R78). A free word is drawn once (R86). -/
def State.hostRead (s : State) (off : Nat) : State :=
  { s with
    rdata := some (s.readValue (locate off))
    draws := if s.outputPending (locate off) then s.draws + 1 else s.draws }

/-- A write that stores: an RW register or an X element within depth is set, anything else ignored (R75 cases 4, 5). -/
def State.store (s : State) (l : Loc) (v : Word) : State :=
  match l with
  | .reg r => if r.writable then s.setReg r v else s
  | .elem .x i => s.setElems .x i [v]
  | .elem .y _ | .elem .freq _ | .elem .mag _ | .elem .phase _ => s
  | .id | .cap | .cmd | .status | .reserved => s

/-- A host write, the cases of R75 in order. -/
def State.hostWrite (s : State) (off : Nat) (v : Word) : State :=
  match locate off with
  | .cmd => s.submit v
  | .status => s.writeStatus v
  | l => if s.status.busy then (if l.writable then s.dropWrite else s) else s.store l v

/-- A host access with its answer, or the stuck state of R76 (log 11). -/
def access (off size : Nat) (answer : State) : Host.Outcome State Fault Refusal :=
  if admitted off size then .next answer else .fault (.hostAccessNotAdmitted off size)

end Sys2Proof.Machine
end

