-- ==== Sys2Proof/Machine/Float.lean ====
section
/-! DEFINITION. IEEE 754 binary64 arithmetic (00_scope.md R10 to R16, R18 to R21). A finite value is an exact integer
multiple of 2^-1074, its UNITS; each operation computes exactly in units and rounds once. Every primitive that can yield
a NaN takes the free NaN bits of its result (R12; log 3). -/

namespace Sys2Proof.Machine

/-! ## Fields and classes (R10) -/

/-- The sign bit [63]. -/
def fsign (a : Word) : Bool := a.msb

/-- Bits [62:0], the biased exponent above the fraction: it orders magnitudes. -/
def fmag (a : Word) : Nat := a.toNat % 2 ^ 63

/-- The magnitude of infinity: exponent all ones, fraction 0. -/
def infMag : Nat := 2047 * 2 ^ 52

def isNaN (a : Word) : Bool := decide (infMag < fmag a)

def isInf (a : Word) : Bool := fmag a == infMag

def isZero (a : Word) : Bool := fmag a == 0

/-- Neither infinite nor a NaN (R13). -/
def isFinite (a : Word) : Bool := decide (fmag a < infMag)

/-- The word with a given sign and magnitude. -/
def ofSignMag (s : Bool) (m : Nat) : Word := BitVec.ofBool s ++ BitVec.ofNat 63 m

/-- The quiet NaN with the free sign and payload `d`: exponent all ones, fraction bit 51 set (R12). -/
def quietNaN (d : NaNBits) : Word := d.extractLsb' 51 1 ++ 0x7FF#11 ++ 1#1 ++ d.extractLsb' 0 51

/-- A result that may be a NaN, with free NaN bits (R12). -/
def drawnNaN (d : NaNBits) (a : Word) : Word := if isNaN a then quietNaN d else a

/-- Flip the sign bit. -/
def flipSign (a : Word) : Word := a ^^^ 0x8000000000000000#64

/-- Clear the sign bit. -/
def clearSign (a : Word) : Word := a &&& 0x7FFFFFFFFFFFFFFF#64

/-! ## Named constants (R21) and the literals of the pseudocode -/

def pi64 : Word := 0x400921FB54442D18#64
def twoPi64 : Word := 0x401921FB54442D18#64
def halfPi64 : Word := 0x3FF921FB54442D18#64
def eps64 : Word := 0x3EE4F8B588E368F1#64
def rad2deg64 : Word := 0x404CA5DC1A63C1F8#64
def fzero : Word := 0x0000000000000000#64
def fone : Word := 0x3FF0000000000000#64
def fminusOne : Word := 0xBFF0000000000000#64
def ftwo : Word := 0x4000000000000000#64
def fminusTwo : Word := 0xC000000000000000#64
def ftwenty : Word := 0x4034000000000000#64
def finf : Word := 0x7FF0000000000000#64

/-! ## Units and rounding (R11) -/

/-- How many units make 1.0. -/
def unitScale : Nat := 2 ^ 1074

/-- The value of a finite magnitude in units: the fraction alone when the biased exponent is 0 (subnormal), else the
fraction with its hidden bit, scaled. -/
def magUnits (m : Nat) : Nat :=
  if m / 2 ^ 52 = 0 then m % 2 ^ 52 else (2 ^ 52 + m % 2 ^ 52) * 2 ^ (m / 2 ^ 52 - 1)

/-- The value of a finite word in units. -/
def units (a : Word) : Int := if fsign a then -(magUnits (fmag a) : Int) else (magUnits (fmag a) : Int)

/-- The integer nearest to n/d, a tie to the even one. -/
def nearestDiv (n d : Nat) : Nat :=
  if 2 * (n % d) < d then n / d
  else if d < 2 * (n % d) then n / d + 1
  else n / d + n / d % 2

/-- The magnitude of the exact value n/d units rounded with roundTiesToEven; a value too large gives infinity (R11). The
significand keeps 53 bits, or fewer below 2^53 units (subnormals are kept). -/
def roundMag (n d : Nat) : Nat :=
  let k := Nat.log2 (n / d) - 52
  min (k * 2 ^ 52 + nearestDiv n (d * 2 ^ k)) infMag

/-- Round an exact integer number of units; `z` is the sign of an exact zero. -/
def roundUnits (x : Int) (z : Bool) : Word :=
  if x = 0 then ofSignMag z 0 else ofSignMag (decide (x < 0)) (roundMag x.natAbs 1)

/-! ## Arithmetic (R11, R12) -/

def fadd (d : NaNBits) (a b : Word) : Word :=
  if isNaN a || isNaN b then quietNaN d
  else if isInf a then
    if isInf b && fsign a != fsign b then quietNaN d else a
  else if isInf b then b
  else roundUnits (units a + units b) (fsign a && fsign b)

def fsub (d : NaNBits) (a b : Word) : Word := fadd d a (flipSign b)

def fmul (d : NaNBits) (a b : Word) : Word :=
  if isNaN a || isNaN b then quietNaN d
  else if isInf a || isInf b then
    if isZero a || isZero b then quietNaN d else ofSignMag (fsign a != fsign b) infMag
  else ofSignMag (fsign a != fsign b) (roundMag (magUnits (fmag a) * magUnits (fmag b)) unitScale)

def fdiv (d : NaNBits) (a b : Word) : Word :=
  if isNaN a || isNaN b then quietNaN d
  else if isInf a then
    if isInf b then quietNaN d else ofSignMag (fsign a != fsign b) infMag
  else if isInf b then ofSignMag (fsign a != fsign b) 0
  else if isZero b then
    if isZero a then quietNaN d else ofSignMag (fsign a != fsign b) infMag
  else ofSignMag (fsign a != fsign b) (roundMag (magUnits (fmag a) * unitScale) (magUnits (fmag b)))

/-- fneg: the sign bit flipped; a NaN result is drawn like any other (R11, R12; log 7). -/
def fneg (d : NaNBits) (a : Word) : Word := drawnNaN d (flipSign a)

/-- fabs: the sign bit cleared; a NaN result is drawn like any other (R11, R12; log 7). -/
def fabs (d : NaNBits) (a : Word) : Word := drawnNaN d (clearSign a)

/-- fmod: exact, with the sign of `a` (R14). For finite `a` and infinite `b` the truncated quotient is 0 (log 8). -/
def fmod (d : NaNBits) (a b : Word) : Word :=
  if isNaN a || isNaN b then quietNaN d
  else if isInf a || isZero b then quietNaN d
  else if isInf b then a
  else ofSignMag (fsign a) (roundMag (magUnits (fmag a) % magUnits (fmag b)) 1)

/-! ## Comparisons (R13): false when an operand is a NaN -/

/-- Orders the non-NaN words, both zeros at 0. -/
def fkey (a : Word) : Int := if fsign a then -(fmag a : Int) else (fmag a : Int)

def flt (a b : Word) : Bool := !isNaN a && !isNaN b && decide (fkey a < fkey b)

def fgt (a b : Word) : Bool := flt b a

def feq (a b : Word) : Bool := !isNaN a && !isNaN b && decide (fkey a = fkey b)

def fle (a b : Word) : Bool := !isNaN a && !isNaN b && decide (fkey a ≤ fkey b)

/-! ## Conversions (R15, R16) -/

/-- The binary64 value equal to `i`, exact below 2^53 (R15; log 19). -/
def i2f (i : Nat) : Word := ofSignMag false (roundMag (i * unitScale) 1)

/-- The integer nearest to a finite value, a tie to the even one (R16). -/
def roundHalfEven (p : Word) : Int :=
  if fsign p then -(nearestDiv (magUnits (fmag p)) unitScale : Int)
  else (nearestDiv (magUnits (fmag p)) unitScale : Int)

/-! ## Derived functions (R18 to R20) -/

/-- sgn, with +0.0 for both zeros (R18). -/
def sgn (d : NaNBits) (a : Word) : Word :=
  if fgt a fzero then fone
  else if flt a fzero then fminusOne
  else if isNaN a then quietNaN d
  else fzero

/-- fmaxn: a NaN operand passes, and `b` is returned on a tie (R19). -/
def fmaxn (d : NaNBits) (a b : Word) : Word :=
  if isNaN a || isNaN b then quietNaN d else if fgt a b then a else b

/-- floormod for m > 0, the sequence of R20: `d1` draws for the fmod, `d2` for the fadd. -/
def floormod (d1 d2 : NaNBits) (a m : Word) : Word :=
  let r := fmod d1 a m
  let r' := if flt r fzero then fadd d2 r m else r
  if feq r' fzero then fzero else r'

end Sys2Proof.Machine
end

