-- ==== Sys2Proof/Machine/Num.lean ====
section
/-! DEFINITION. The open transcendental functions NUM (00_scope.md R17; log 6). Each is an arbitrary function of Config
confined to laws L1 to L7: where a law fixes the result it is that; where a law bounds the result, an arbitrary value
within the bound is kept and one outside it replaced by a value the law admits, so the confined functions are exactly
the lawful ones; where no law speaks, the value is free. A NaN result has free bits (R12). -/

namespace Sys2Proof.Machine

/-- Keep a value the law admits; replace any other by `other`, which the law admits. -/
def confined (ok : Word → Bool) (other r : Word) : Word := if ok r then r else other

/-- `a` lies in [lo, hi] (false for a NaN). -/
def within (lo hi a : Word) : Bool := fle lo a && fle a hi

/-- The least value that L2 and L7 admit for sin x: +0 for x in [+0, PI64], else -1.0. -/
def sinFloor (x : Word) : Word := if within fzero pi64 x then fzero else fminusOne

/-- NUM.sin: L1, L2, L3, L7. DESIGN CHOICE (log 24): its sign beyond [+0, PI64], and whether it is a zero at a nonzero argument,
are free, although 40_waveform_generator.md R132 speaks of nonzero sines at half periods. -/
def numSin (d : NaNBits) (x : Word) : Word :=
  if isZero x then x
  else if !isFinite x then quietNaN d
  else confined (within (sinFloor x) fone) (sinFloor x) (Config.rawSin x)

/-- NUM.cos: L1, L2, L3. DESIGN CHOICE (log 24): whether it is a zero is free, although 41_resonant_designer.md R150 speaks of a
nonzero cosine at HALF_PI64. -/
def numCos (d : NaNBits) (x : Word) : Word :=
  if isZero x then fone
  else if !isFinite x then quietNaN d
  else confined (within fminusOne fone) fone (Config.rawCos x)

/-- NUM.log10: L4; no law for zero, negative values and -inf. DESIGN CHOICE (log 22): the spec's laws do not make it
monotone and neither does the model, so the bound on mag of 43_frequency_response.md R192 need not hold. -/
def numLog10 (d : NaNBits) (x : Word) : Word :=
  if isNaN x then quietNaN d
  else if x = finf then finf
  else if fgt x fzero then confined isFinite fzero (Config.rawLog10 x)
  else drawnNaN d (Config.rawLog10 x)

/-- NUM.atan2 of y and x: L6; no law for a NaN argument. DESIGN CHOICE (log 21): free there, although the den = 0 corner of
43_frequency_response.md R190 speaks of NaN phases. DESIGN CHOICE (log 24): of L6's signed-zero cases those it writes out are
fixed, x = +0 and x = -0. -/
def numAtan2 (d : NaNBits) (y x : Word) : Word :=
  if isNaN y || isNaN x then drawnNaN d (Config.rawAtan2 y x)
  else if isZero y && isZero x then
    if fsign x then ofSignMag (fsign y) (fmag pi64) else y
  else confined (within (flipSign pi64) pi64) fzero (Config.rawAtan2 y x)

/-- NUM.hypot: L5; no law for two NaN arguments. DESIGN CHOICE (log 21): free there, although the den = 0 corner of
43_frequency_response.md R190 speaks of NaN magnitudes. -/
def numHypot (d : NaNBits) (x y : Word) : Word :=
  if isInf x || isInf y then finf
  else if isNaN x && isNaN y then drawnNaN d (Config.rawHypot x y)
  else if isNaN x || isNaN y then quietNaN d
  else if isZero x && isZero y then fzero
  else confined (fle fzero) fzero (Config.rawHypot x y)

end Sys2Proof.Machine
end

