-- ==== Sys2Proof/Machine/Operands.lean ====
section
/-! DEFINITION. The operands commands read (30_encoding.md R105) and the checks they share (60_exceptions.md R220). -/

namespace Sys2Proof.Machine

/-- The values of the six coefficient registers (10_state.md R47). -/
structure Coeffs where
  b0 : Word
  b1 : Word
  b2 : Word
  a0 : Word
  a1 : Word
  a2 : Word
deriving DecidableEq, Repr

/-- The coefficients FILTER and EVAL read. -/
def Regs.coeffs (g : Regs) : Coeffs where
  b0 := g.b0
  b1 := g.b1
  b2 := g.b2
  a0 := g.a0
  a1 := g.a1
  a2 := g.a2

/-- The coefficients DESIGN writes. -/
def Regs.setCoeffs (g : Regs) (c : Coeffs) : Regs :=
  { g with b0 := c.b0, b1 := c.b1, b2 := c.b2, a0 := c.a0, a1 := c.a1, a2 := c.a2 }

/-- FS is finite and positive, else FS_INVALID (R220). -/
def fsValid (fs : Word) : Bool := isFinite fs && fgt fs fzero

/-- A0 has the bits of +1.0, else COEFF_MALFORMED (10_state.md R48). -/
def coeffsValid (c : Coeffs) : Bool := c.a0 == 0x3FF0000000000000#64

/-- The free NaN bits of the command that runs in `s`: sample or grid index, then site (00_scope.md R12; log 3). -/
def State.nanAt (s : State) (idx site : Nat) : NaNBits := Config.freeNaN s.draws idx site

end Sys2Proof.Machine
end

