-- ==== Sys2Proof/Machine/Design.lean ====
section
/-! DEFINITION. The resonant filter designer command (41_resonant_designer.md R150). -/

namespace Sys2Proof.Machine

/-- w0 of R150. -/
def designW0 (d : Nat → NaNBits) (fs fc : Word) : Word := fdiv (d 2) (fmul (d 1) twoPi64 fc) fs

/-- alpha of R150. -/
def designAlpha (d : Nat → NaNBits) (w0 q : Word) : Word := fdiv (d 5) (numSin (d 3) w0) (fmul (d 4) ftwo q)

/-- The six results of R150 from w0 and alpha. -/
def designResults (d : Nat → NaNBits) (w0 alpha : Word) : Coeffs :=
  let a0 := fadd (d 6) fone alpha
  let a1 := fmul (d 8) fminusTwo (numCos (d 7) w0)
  let a2 := fsub (d 9) fone alpha
  { b0 := fdiv (d 10) alpha a0
    b1 := fdiv (d 11) fzero a0
    b2 := fdiv (d 13) (fneg (d 12) alpha) a0
    a0 := fone
    a1 := fdiv (d 14) a1 a0
    a2 := fdiv (d 15) a2 a0 }

/-- The coefficients R150 computes for valid operands. -/
def designCoeffs (d : Nat → NaNBits) (fs fc q : Word) : Coeffs :=
  designResults d (designW0 d fs fc) (designAlpha d (designW0 d fs fc) q)

/-- 0 < fc < fs/2, else FC_OUT_OF_RANGE (R150). -/
def fcInRange (d : NaNBits) (fs fc : Word) : Bool := fgt fc fzero && flt fc (fdiv d fs ftwo)

/-- Q is positive and finite, else Q_NOT_POSITIVE (R150). -/
def qValid (q : Word) : Bool := fgt q fzero && isFinite q

/-- DESIGN with its checks in the order of 60_exceptions.md R223. -/
def designRun (s : State) : Except Cause State :=
  if !fsValid s.regs.fs then .error .fsInvalid
  else if !fcInRange (s.nanAt 0 0) s.regs.fs s.regs.fc then .error .fcOutOfRange
  else if !qValid s.regs.q then .error .qNotPositive
  else .ok { s with regs := s.regs.setCoeffs (designCoeffs (s.nanAt 0) s.regs.fs s.regs.fc s.regs.q) }

/-- DESIGN (R150). -/
def execDesign (s : State) : Host.Outcome State Fault Refusal := .next (s.complete (designRun s))

end Sys2Proof.Machine
end

