-- ==== Sys2Proof/Machine/Eval.lean ====
section
/-! DEFINITION. The frequency-response evaluator command (43_frequency_response.md R190 to R193). `d k` are the free NaN
bits at grid index k. -/

namespace Sys2Proof.Machine

/-- The half rate and the step of the grid for P ≥ 2 points (R191). -/
def gridHalf (d : NaNBits) (fs : Word) : Word := fdiv d fs ftwo

def gridStep (d : Nat → NaNBits) (fs : Word) (p : Nat) : Word := fdiv (d 1) (gridHalf (d 0) fs) (i2f (p - 1))

/-- GRID(fs, P) of R191, its pseudocode to the letter. DEDUCED (log 23): for a subnormal `fs` it need not be non-decreasing
nor end at exactly fs/2, as R191 derives that it is. -/
def grid (d : Nat → Nat → NaNBits) (fs : Word) : Nat → List Word
  | 0 => []
  | 1 => [fzero]
  | n + 2 =>
    ((List.range (n + 1)).map fun k => fmul (d k 2) (i2f k) (gridStep (d 0) fs (n + 2))) ++ [gridHalf (d 0 0) fs]

/-- The real part of c0 + c1·z⁻¹ + c2·z⁻² (R192): Nr and Dr. -/
def polyRe (d : Nat → NaNBits) (c0 c1 c2 x1 x2 : Word) : Word :=
  fadd (d 3) (fadd (d 1) c0 (fmul (d 0) c1 x1)) (fmul (d 2) c2 x2)

/-- Its imaginary part (R192): Ni and Di. -/
def polyIm (d : Nat → NaNBits) (c1 c2 y1 y2 : Word) : Word :=
  fneg (d 3) (fadd (d 2) (fmul (d 0) c1 y1) (fmul (d 1) c2 y2))

/-- The complex quotient Hr + j·Hi by the textbook formula (R192). -/
def quotient (d : Nat → NaNBits) (nr ni dr di : Word) : Word × Word :=
  let den := fadd (d 2) (fmul (d 0) dr dr) (fmul (d 1) di di)
  (fdiv (d 6) (fadd (d 5) (fmul (d 3) nr dr) (fmul (d 4) ni di)) den,
   fdiv (d 10) (fsub (d 9) (fmul (d 7) ni dr) (fmul (d 8) nr di)) den)

/-- H at one frequency as (Hr, Hi) (R192). -/
def transfer (d : Nat → NaNBits) (c : Coeffs) (f fs : Word) : Word × Word :=
  let w := fdiv (d 4) (fmul (d 3) twoPi64 f) fs
  let c1 := numCos (d 5) w
  let s1 := numSin (d 6) w
  let c2 := numCos (d 8) (fmul (d 7) ftwo w)
  let s2 := numSin (d 10) (fmul (d 9) ftwo w)
  let nr := polyRe (fun j => d (11 + j)) c.b0 c.b1 c.b2 c1 c2
  let ni := polyIm (fun j => d (15 + j)) c.b1 c.b2 s1 s2
  let dr := polyRe (fun j => d (19 + j)) c.a0 c.a1 c.a2 c1 c2
  let di := polyIm (fun j => d (23 + j)) c.a1 c.a2 s1 s2
  quotient (fun j => d (27 + j)) nr ni dr di

/-- The magnitude in dB of (Hr, Hi) (R192). DESIGN CHOICE: no law makes it at least 20·log10(EPS64) (log 22), nor a NaN for
NaN Hr and Hi (log 21). -/
def magnitudeDb (d : Nat → NaNBits) (h : Word × Word) : Word :=
  fmul (d 41) ftwenty (numLog10 (d 40) (fmaxn (d 39) (numHypot (d 38) h.1 h.2) eps64))

/-- The wrapped phase in radians of (Hr, Hi) (R192). DESIGN CHOICE: free for a NaN Hr or Hi (log 21). -/
def wrappedPhase (d : Nat → NaNBits) (h : Word × Word) : Word := numAtan2 (d 42) h.2 h.1

/-- The correction c of R193 between two consecutive wrapped phases. -/
def unwrapCorrection (d : Nat → NaNBits) (prev ph : Word) : Word :=
  let diff := fsub (d 43) ph prev
  let dm := fsub (d 47) (floormod (d 45) (d 46) (fadd (d 44) diff pi64) twoPi64) pi64
  let dm' := if feq dm (fneg (d 48) pi64) && fgt diff fzero then pi64 else dm
  let c := fsub (d 49) dm' diff
  if flt (fabs (d 50) diff) pi64 then fzero else c

/-- UNWRAP from grid index `k` ≥ 1 on, with the previous wrapped phase and the running correction (R193). -/
def unwrapFrom (d : Nat → Nat → NaNBits) : Nat → Word → Word → List Word → List Word
  | _, _, _, [] => []
  | k, prev, acc, ph :: rest =>
    let c := unwrapCorrection (d k) prev ph
    let acc' := if k = 1 then c else fadd (d k 51) acc c
    fadd (d k 52) ph acc' :: unwrapFrom d (k + 1) ph acc' rest

/-- UNWRAP(ph, P) of R193. -/
def unwrap (d : Nat → Nat → NaNBits) : List Word → List Word
  | [] => []
  | ph :: rest => ph :: unwrapFrom d 1 ph fzero rest

/-- H on the grid. -/
def response (d : Nat → Nat → NaNBits) (c : Coeffs) (fs : Word) (p : Nat) : List (Word × Word) :=
  (grid d fs p).mapIdx fun k f => transfer (d k) c f fs

/-- MAG (R190). -/
def magnitudes (d : Nat → Nat → NaNBits) (c : Coeffs) (fs : Word) (p : Nat) : List Word :=
  (response d c fs p).mapIdx fun k h => magnitudeDb (d k) h

/-- PHASE: unwrapped, then in degrees (R190). -/
def phases (d : Nat → Nat → NaNBits) (c : Coeffs) (fs : Word) (p : Nat) : List Word :=
  (unwrap d ((response d c fs p).mapIdx fun k h => wrappedPhase (d k) h)).mapIdx
    fun k u => fmul (d k 53) u rad2deg64

/-- EVAL with its checks in the order of 60_exceptions.md R223; elements k ≥ P keep their values. -/
def evalRun (s : State) : Except Cause State :=
  let c := s.regs.coeffs
  let p := s.regs.npoints.toNat
  if !coeffsValid c then .error .coeffMalformed
  else if !fsValid s.regs.fs then .error .fsInvalid
  else if Config.respDepth < p then .error .lengthInvalid
  else .ok ((((s.setElems .freq 0 (grid s.nanAt s.regs.fs p)).setElems .mag 0
    (magnitudes s.nanAt c s.regs.fs p)).setElems .phase 0 (phases s.nanAt c s.regs.fs p)).setReg
    .respLen s.regs.npoints)

/-- EVAL (R190). -/
def execEval (s : State) : Host.Outcome State Fault Refusal := .next (s.complete (evalRun s))

end Sys2Proof.Machine
end

