-- ==== Sys2Proof/Machine/Filter.lean ====
section
/-! DEFINITION. The direct-form IIR filter command (42_biquad_filter.md R170, R171). -/

namespace Sys2Proof.Machine

/-- y of one iteration of R170. -/
def filterY (d : Nat → NaNBits) (c : Coeffs) (z1 x : Word) : Word := fadd (d 1) z1 (fmul (d 0) c.b0 x)

/-- z1 after one iteration of R170. -/
def filterZ1 (d : Nat → NaNBits) (c : Coeffs) (z2 x y : Word) : Word :=
  fsub (d 5) (fadd (d 3) z2 (fmul (d 2) x c.b1)) (fmul (d 4) y c.a1)

/-- z2 after one iteration of R170. -/
def filterZ2 (d : Nat → NaNBits) (c : Coeffs) (x y : Word) : Word :=
  fsub (d 8) (fmul (d 6) x c.b2) (fmul (d 7) y c.a2)

/-- The recurrence from sample `i` on with delay elements z1 and z2 (R170). -/
def filterFrom (d : Nat → Nat → NaNBits) (c : Coeffs) : Nat → Word → Word → List Word → List Word
  | _, _, _, [] => []
  | i, z1, z2, x :: xs =>
    let y := filterY (d i) c z1 x
    y :: filterFrom d c (i + 1) (filterZ1 (d i) c z2 x y) (filterZ2 (d i) c x y) xs

/-- The output signal: the recurrence with zero initial state (R170, R171). -/
def filterSignal (d : Nat → Nat → NaNBits) (c : Coeffs) (xs : List Word) : List Word :=
  filterFrom d c 0 fzero fzero xs

/-- FILTER with its checks in the order of 60_exceptions.md R223; Y[i] for i ≥ n keeps its value. -/
def filterRun (s : State) : Except Cause State :=
  if !coeffsValid s.regs.coeffs then .error .coeffMalformed
  else if Config.bufDepth < s.regs.xLen.toNat then .error .lengthInvalid
  else .ok ((s.setElems .y 0 (filterSignal s.nanAt s.regs.coeffs (s.elems .x s.regs.xLen.toNat))).setReg
    .yLen s.regs.xLen)

/-- FILTER (R170). -/
def execFilter (s : State) : Host.Outcome State Fault Refusal := .next (s.complete (filterRun s))

end Sys2Proof.Machine
end

