-- ==== Sys2Proof/Machine/Gen.lean ====
section
/-! DEFINITION. The waveform generator commands (40_waveform_generator.md R130 to R134). The numbers after `d` are the
sites of the pseudocode's primitives (log 3). -/

namespace Sys2Proof.Machine

/-- GEN_PROLOGUE (R133): the sample count, or the first failing check. -/
def sampleCount (d : NaNBits) (fs dur : Word) : Except Cause Nat :=
  if !fsValid fs then .error .fsInvalid
  else if !isFinite (fmul d fs dur) then .error .lengthInvalid
  else if roundHalfEven (fmul d fs dur) < 0 ∨ (Config.bufDepth : Int) < roundHalfEven (fmul d fs dur) then
    .error .lengthInvalid
  else .ok (roundHalfEven (fmul d fs dur)).toNat

/-- t(i), the time grid (R133). -/
def timeAt (d : NaNBits) (fs : Word) (i : Nat) : Word := fdiv d (i2f i) fs

/-- The argument of the sine in GEN.SINE and GEN.SQUARE (R130, R132). -/
def sineArg (d : Nat → NaNBits) (f fs : Word) (i : Nat) : Word :=
  fmul (d 2) (fmul (d 0) twoPi64 f) (timeAt (d 1) fs i)

/-- s[i] of GEN.SINE (R130). Its example's values beyond s[0] are no law's (log 24). -/
def sineSample (d : Nat → NaNBits) (g : Regs) (i : Nat) : Word :=
  fmul (d 4) g.ampl (numSin (d 3) (sineArg d g.fundHz g.fs i))

/-- s[i] of GEN.SAW (R131). -/
def sawSample (d : Nat → NaNBits) (g : Regs) (i : Nat) : Word :=
  fsub (d 5) (fmul (d 4) ftwo (floormod (d 2) (d 3) (fmul (d 1) g.fundHz (timeAt (d 0) g.fs i)) fone)) fone

/-- s[i] of GEN.SQUARE (R132). DESIGN CHOICE: where the laws leave the sine's sign open, so is the sample's, half periods and
the samples of R132's example included (log 24). -/
def squareSample (d : Nat → NaNBits) (g : Regs) (i : Nat) : Word :=
  sgn (d 4) (numSin (d 3) (sineArg d g.fundHz g.fs i))

/-- GEN_COMMIT (R133): X[0..n-1] and X_LEN; X[i] for i ≥ n keeps its value. -/
def genCommit (s : State) (ws : List Word) : State :=
  (s.setElems .x 0 ws).setReg .xLen (BitVec.ofNat 64 ws.length)

/-- A GEN command of a known kind: the prologue, n samples, the commit (R133). -/
def generate (s : State) (sample : (Nat → NaNBits) → Regs → Nat → Word) : Except Cause State :=
  match sampleCount (s.nanAt 0 0) s.regs.fs s.regs.dur with
  | .error c => .error c
  | .ok n => .ok (genCommit s ((List.range n).map fun i => sample (s.nanAt (i + 1)) s.regs i))

/-- GEN.SINE (R130). -/
def execGenSine (s : State) : Host.Outcome State Fault Refusal := .next (s.complete (generate s sineSample))

/-- GEN.SAW (R131). -/
def execGenSaw (s : State) : Host.Outcome State Fault Refusal := .next (s.complete (generate s sawSample))

/-- GEN.SQUARE (R132). -/
def execGenSquare (s : State) : Host.Outcome State Fault Refusal := .next (s.complete (generate s squareSample))

/-- GEN with KIND = 3 (R134): no register is read and UNKNOWN_KIND is raised. -/
def execGenUnknownKind (s : State) : Host.Outcome State Fault Refusal := .next (s.complete (.error .unknownKind))

end Sys2Proof.Machine
end

