-- ==== Sys2Proof/Machine/Dispatch.lean ====
section
/-! DEFINITION. exec: the completion of each command (60_exceptions.md R225), one arm per constructor. -/

namespace Sys2Proof.Machine

def exec (i : Instr) (s : State) : Host.Outcome State Fault Refusal :=
  match i with
  | .genSine => Sys2Proof.Machine.execGenSine s
  | .genSaw => Sys2Proof.Machine.execGenSaw s
  | .genSquare => Sys2Proof.Machine.execGenSquare s
  | .genUnknownKind => Sys2Proof.Machine.execGenUnknownKind s
  | .design => Sys2Proof.Machine.execDesign s
  | .filter => Sys2Proof.Machine.execFilter s
  | .eval => Sys2Proof.Machine.execEval s

end Sys2Proof.Machine
end

