-- ==== Sys2Proof/Machine/Engine.lean ====
section
/-! DEFINITION. The engine's turn (60_exceptions.md R225, R237). -/

namespace Sys2Proof.Machine

/-- While BUSY = 1 the engine completes the pending command: exec of what PEND decodes to, or ILLEGAL_CMD (R225). While
BUSY = 0 it has no step and its turn passes (R237; log 17). -/
def engineTurn (s : State) : Host.Outcome State Fault Refusal :=
  if s.status.busy then
    match decode s.pend with
    | .ok i => exec i s
    | .error _ => .next (s.complete (.error .illegalCmd))
  else .next s

/-- The command word of a row of the opcode table: one 64-bit word (30_encoding.md R100). -/
def tableWord (nbits w : Nat) : Word := BitVec.ofNat 64 (w % 2 ^ nbits)

/-- `s` with command word `w` accepted and the engine's turn next (log 2). -/
def State.withCommand (s : State) (w : Word) : State :=
  { s.accept w with inputs := .engine :: s.inputs }

end Sys2Proof.Machine
end

