-- ==== Sys2Proof/Machine/Step.lean ====
section
/-! DEFINITION. One step of the global order (20_memory.md R80): the next entry of State.inputs, and when none is left the
engine's turn, so that an accepted command is eventually completed (60_exceptions.md R225; log 1). -/

namespace Sys2Proof.Machine

def step (s : State) : Host.Outcome State Fault Refusal :=
  match s.inputs with
  | [] => engineTurn s
  | .engine :: rest => engineTurn { s with inputs := rest }
  | .read off size :: rest => access off size ({ s with inputs := rest }.hostRead off)
  | .write off size v :: rest => access off size ({ s with inputs := rest }.hostWrite off v)
  | .reset :: rest => .next { s with inputs := rest }.afterReset

/-- The block fetches nothing (R84): a command comes to run by being accepted into PEND and by the engine having the turn
(log 2). -/
def State.withFetchWord (s : State) (nbits w : Nat) : State := s.withCommand (tableWord nbits w)

end Sys2Proof.Machine
end

