-- ==== Sys2Proof/Safety.lean ====
section
/-! DEFINITION. What the claims call a sound state and an obedient host: the invariant of the block and the host's one
obligation (20_memory.md R76). -/

namespace Sys2Proof.Machine

/-- The byte at `a` belongs to a buffer element within depth (20_memory.md R71, R72). -/
def inBuffers (a : Nat) : Bool :=
  [Buf.x, Buf.y, Buf.freq, Buf.mag, Buf.phase].any fun b => decide (b.base ≤ a ∧ a < b.base + 8 * b.depth)

/-- The buffers are in canonical form and list nothing outside the elements within depth. -/
def Memory.Sound (m : Memory) : Prop := m.wf ∧ ∀ c ∈ m.cells, inBuffers c.1 = true

/-- While BUSY = 1, DONE, ERR and CAUSE are 0; ERR is 1 exactly when CAUSE is not 0 (10_state.md R34, R35; log 10). -/
def Status.Sound (t : Status) : Prop :=
  (t.busy = true → t.done = false ∧ t.err = false ∧ t.cause = .none) ∧ (t.err = true ↔ t.cause ≠ .none)

/-- The invariant of the block: sound buffers and STATUS, LAST_OP and LAST_KIND the fields of PEND (10_state.md R54), and
the result lengths within the depths (10_state.md R45, R46; 42_biquad_filter.md R170; 43_frequency_response.md R190). -/
def State.Inv (s : State) : Prop :=
  s.mem.Sound ∧ s.status.Sound ∧
  s.status.lastOp = s.pend.extractLsb' 0 4 ∧ s.status.lastKind = s.pend.extractLsb' 4 2 ∧
  s.regs.yLen.toNat ≤ Config.bufDepth ∧ s.regs.respLen.toNat ≤ Config.respDepth

/-- The host keeps its obligation in one entry of the order (R76). -/
def Input.admitted : Input → Bool
  | .read off size => Machine.admitted off size
  | .write off size _ => Machine.admitted off size
  | .engine | .reset => true

/-- The host issues only admitted accesses in what is to come (R76). -/
def State.hostObeys (s : State) : Prop := ∀ i ∈ s.inputs, i.admitted = true

/-! ## The resonance peak (43_frequency_response.md R194) -/

/-- MAG is greater at grid point `k` than at each neighbour that `k` has. -/
def State.PeakAt (s : State) (k : Nat) : Prop :=
  k < s.regs.respLen.toNat ∧
  (0 < k → fgt (s.elem .mag k) (s.elem .mag (k - 1)) = true) ∧
  (k + 1 < s.regs.respLen.toNat → fgt (s.elem .mag k) (s.elem .mag (k + 1)) = true)

/-- No grid point is nearer to FC than point `k`, in exact units. -/
def State.NearestToCentre (s : State) (k : Nat) : Prop :=
  ∀ j < s.regs.respLen.toNat,
    (units (s.elem .freq k) - units s.regs.fc).natAbs ≤ (units (s.elem .freq j) - units s.regs.fc).natAbs

/-- The source's testable property for EVAL as R194 reads it: the response curve has a local maximum at the grid point `k`
nearest FC. It is a property of one curve: R194 says that the hardware does not guarantee it for every input. -/
def State.PeaksAtCentre (s : State) (k : Nat) : Prop := s.NearestToCentre k ∧ s.PeakAt k

end Sys2Proof.Machine
end

