-- ==== Sys2Proof/Certificates/Slice0/Obligations.lean ====
section
/-! DEFINITION. The statements for the provers, from the numbered rules of spec/, file by file. Formulas are written out in
the primitives of 00_scope.md; `s.nanAt k j` are the free NaN bits of site j at index k (log 3), of which nothing is
known. The helper predicates of Sys2Proof.Claims only abbreviate. -/

namespace Sys2Proof.Claims

open Sys2Proof.Machine

/-- `t` is `s` after a successful completion, but for the output set (60_exceptions.md R225). -/
def Succeeds (s t : State) : Prop :=
  t.status = { s.status with busy := false, done := true, err := false, cause := .none } ∧
  t.pend = s.pend ∧ t.inputs = s.inputs ∧ t.rdata = s.rdata

/-- `exec i s` completes with the error `c`: STATUS has DONE, ERR and the cause, BUSY is 0, and nothing else of the block
changes (R225, R226). `draws` is the model's own counter. -/
def FailsWith (i : Instr) (s : State) (c : Cause) : Prop :=
  exec i s = .next { s with
    status := { s.status with busy := false, done := true, err := true, cause := c }
    draws := s.draws + 1 }

/-- The magnitude `m` is n/d units correctly rounded to nearest, a tie to the even magnitude (00_scope.md R11). -/
def NearestEven (n d m : Nat) : Prop :=
  ∀ c < infMag, |(magUnits m * d : Int) - n| ≤ |(magUnits c * d : Int) - n| ∧
    (|(magUnits m * d : Int) - n| = |(magUnits c * d : Int) - n| → c = m ∨ m % 2 = 0)

/-- `r` is the exact value n/d units with the given sign, rounded with roundTiesToEven: infinite from the midpoint of the
largest finite value and 2^1024 on, else finite and nearest (R11). -/
def Rounded (neg : Bool) (n d : Nat) (r : Word) : Prop :=
  fsign r = neg ∧
  if 2 * n < (magUnits (infMag - 1) + magUnits infMag) * d then fmag r < infMag ∧ NearestEven n d (fmag r)
  else fmag r = infMag

/-- A word is a quiet NaN: exponent all ones, fraction bit 51 set (R12). -/
def QuietNaN (a : Word) : Prop := a.extractLsb' 52 11 = 0x7FF#11 ∧ a.getLsbD 51 = true

/-- The four comparisons, both ways round, when a is below b exactly if `lt`, and equal to it exactly if `eq` (R13). -/
def Compares (a b : Word) (lt eq : Bool) : Prop :=
  flt a b = lt ∧ feq a b = eq ∧ fle a b = (lt || eq) ∧ fgt a b = (!lt && !eq) ∧
  flt b a = (!lt && !eq) ∧ feq b a = eq ∧ fle b a = !lt ∧ fgt b a = lt

/-- `w` is the current value at `off`, for STATUS, every register that stores a word, and every buffer element, whose byte j
is the byte of memory at off + j (20_memory.md R71, R73, R74; 10_state.md R58). What the other offsets read as is
FixedLocationsRead. -/
def CurrentValue (s : State) (off : Nat) (w : Word) : Prop :=
  (off = 0x018 → w = s.status.toWord) ∧
  (∀ p ∈ [(0x020, s.regs.fundHz), (0x028, s.regs.fs), (0x030, s.regs.dur), (0x038, s.regs.ampl),
      (0x040, s.regs.phase0), (0x048, s.regs.fc), (0x050, s.regs.q), (0x058, s.regs.npoints),
      (0x060, s.regs.xLen), (0x068, s.regs.yLen), (0x070, s.regs.respLen),
      (0x080, s.regs.b0), (0x088, s.regs.b1), (0x090, s.regs.b2),
      (0x098, s.regs.a0), (0x0A0, s.regs.a1), (0x0A8, s.regs.a2)], off = p.1 → w = p.2) ∧
  (∀ i < 131072, (off = 0x100000 + 8 * i → w = s.elem .x i) ∧ (off = 0x200000 + 8 * i → w = s.elem .y i)) ∧
  (∀ k < 8192, (off = 0x300000 + 8 * k → w = s.elem .freq k) ∧ (off = 0x310000 + 8 * k → w = s.elem .mag k) ∧
    (off = 0x320000 + 8 * k → w = s.elem .phase k)) ∧
  (0x100000 ≤ off → off < 0x330000 → ∀ j < 8, w.extractLsb' (8 * j) 8 = s.mem.readByte (off + j))

/-- The RW registers by offset (10_state.md R58). -/
def RwRegister (off : Nat) : Prop :=
  off ∈ [0x020, 0x028, 0x030, 0x038, 0x040, 0x048, 0x050, 0x058, 0x060,
    0x080, 0x088, 0x090, 0x098, 0x0A0, 0x0A8]

/-- The RW locations by offset (70_reset_and_hazards.md R260). -/
def RwLocation (off : Nat) : Prop := RwRegister off ∨ (0x100000 ≤ off ∧ off < 0x200000)

/-- The output set of a command by offset (60_exceptions.md R227; all of X for GEN). -/
def InOutputSet (i : Instr) (g : Regs) (off : Nat) : Prop :=
  match i with
  | .genSine | .genSaw | .genSquare => off = 0x060 ∨ (0x100000 ≤ off ∧ off < 0x200000)
  | .genUnknownKind => False
  | .design => off ∈ [0x080, 0x088, 0x090, 0x098, 0x0A0, 0x0A8]
  | .filter => off = 0x068 ∨ (0x200000 ≤ off ∧ off < 0x300000 ∧ off < 0x200000 + 8 * g.xLen.toNat)
  | .eval => off = 0x070 ∨
      (0x300000 ≤ off ∧ off < 0x310000 ∧ off < 0x300000 + 8 * g.npoints.toNat) ∨
      (0x310000 ≤ off ∧ off < 0x320000 ∧ off < 0x310000 + 8 * g.npoints.toNat) ∨
      (0x320000 ≤ off ∧ off < 0x330000 ∧ off < 0x320000 + 8 * g.npoints.toNat)

/-- The offset is in the output set of the word that is pending; an illegal word has none (60_exceptions.md R227). -/
def InPendingOutput (s : State) (off : Nat) : Prop := ∃ i, decode s.pend = .ok i ∧ InOutputSet i s.regs off

/-- The engine has the next step, and `rest` is to come after it (60_exceptions.md R225; log 1). -/
def EngineNext (s : State) (rest : List Input) : Prop := s.inputs = .engine :: rest ∨ (s.inputs = [] ∧ rest = [])

/-- The first sample count check passes with count `n` (40_waveform_generator.md R133). -/
def SampleCount (s : State) (n : Nat) : Prop :=
  isFinite s.regs.fs = true ∧ fgt s.regs.fs fzero = true ∧
  isFinite (fmul (s.nanAt 0 0) s.regs.fs s.regs.dur) = true ∧
  roundHalfEven (fmul (s.nanAt 0 0) s.regs.fs s.regs.dur) = (n : Int) ∧ n ≤ 131072

/-- The common effect of a successful GEN: n samples in X, X_LEN = n, the rest of X as before (R133). -/
def Generates (i : Instr) (s : State) (n : Nat) (sample : Nat → Word) : Prop :=
  ∃ t, exec i s = .next t ∧ Succeeds s t ∧
    t.regs = { s.regs with xLen := BitVec.ofNat 64 n } ∧
    (∀ k < n, t.elem .x k = sample k) ∧
    (∀ k, n ≤ k → k < 131072 → t.elem .x k = s.elem .x k)

/-- POINT(f, fs) gives `mag` and `ph` (43_frequency_response.md R192). -/
def Point (d : Nat → NaNBits) (g : Regs) (f mag ph : Word) : Prop :=
  let w := fdiv (d 4) (fmul (d 3) twoPi64 f) g.fs
  let c1 := numCos (d 5) w
  let s1 := numSin (d 6) w
  let c2 := numCos (d 8) (fmul (d 7) ftwo w)
  let s2 := numSin (d 10) (fmul (d 9) ftwo w)
  let nr := fadd (d 14) (fadd (d 12) g.b0 (fmul (d 11) g.b1 c1)) (fmul (d 13) g.b2 c2)
  let ni := fneg (d 18) (fadd (d 17) (fmul (d 15) g.b1 s1) (fmul (d 16) g.b2 s2))
  let dr := fadd (d 22) (fadd (d 20) g.a0 (fmul (d 19) g.a1 c1)) (fmul (d 21) g.a2 c2)
  let di := fneg (d 26) (fadd (d 25) (fmul (d 23) g.a1 s1) (fmul (d 24) g.a2 s2))
  let den := fadd (d 29) (fmul (d 27) dr dr) (fmul (d 28) di di)
  let hr := fdiv (d 33) (fadd (d 32) (fmul (d 30) nr dr) (fmul (d 31) ni di)) den
  let hi := fdiv (d 37) (fsub (d 36) (fmul (d 34) ni dr) (fmul (d 35) nr di)) den
  mag = fmul (d 41) ftwenty (numLog10 (d 40) (fmaxn (d 39) (numHypot (d 38) hr hi) eps64)) ∧
  ph = numAtan2 (d 42) hi hr

/-- The correction `c` of UNWRAP between wrapped phases `p` and `q` (43_frequency_response.md R193). -/
def Correction (d : Nat → NaNBits) (p q c : Word) : Prop :=
  let diff := fsub (d 43) q p
  let dm := fsub (d 47) (floormod (d 45) (d 46) (fadd (d 44) diff pi64) twoPi64) pi64
  let dm' := if feq dm (fneg (d 48) pi64) = true ∧ fgt diff fzero = true then pi64 else dm
  c = if flt (fabs (d 50) diff) pi64 = true then fzero else fsub (d 49) dm' diff

end Sys2Proof.Claims

open Sys2Proof Sys2Proof.Machine Sys2Proof.Claims

/-! ## 30_encoding.md -/

/-- R102, R103: each word of the opcode table decodes to its command, and its command is encoded by it. -/
def Obligations.CommandWordsDecode : Prop :=
  ∀ p ∈ [(0x01#64, Instr.genSine), (0x11#64, .genSaw), (0x21#64, .genSquare), (0x31#64, .genUnknownKind),
      (0x02#64, .design), (0x03#64, .filter), (0x04#64, .eval)],
    decode p.1 = .ok p.2 ∧ encode p.2 = p.1

/-- R104: of all 2^64 words exactly the seven of the table are not ILLEGAL, each its own command. -/
def Obligations.DecodeExactlySevenWords : Prop :=
  ∀ (w : Word) (i : Instr), decode w = .ok i ↔
    w = match i with
      | .genSine => 0x0000000000000001#64
      | .genSaw => 0x0000000000000011#64
      | .genSquare => 0x0000000000000021#64
      | .genUnknownKind => 0x0000000000000031#64
      | .design => 0x0000000000000002#64
      | .filter => 0x0000000000000003#64
      | .eval => 0x0000000000000004#64

/-- R106: the illegal words are those with RSV ≠ 0, with an OP of 0 or 5 to 15, or with KIND ≠ 0 and OP 2, 3 or 4. -/
def Obligations.IllegalWordsByGround : Prop :=
  ∀ w : Word, (∃ e, decode w = .error e) ↔
    w.toNat / 64 ≠ 0 ∨ w.toNat % 16 = 0 ∨ 5 ≤ w.toNat % 16 ∨
      (w.toNat / 16 % 4 ≠ 0 ∧ 2 ≤ w.toNat % 16 ∧ w.toNat % 16 ≤ 4)

/-- R106, R225: an illegal command that is pending completes with ILLEGAL_CMD and writes nothing but STATUS. -/
def Obligations.IllegalCommandCompletes : Prop :=
  ∀ (s : State) (rest : List Input) (e : Reject), EngineNext s rest → s.status.busy = true →
    decode s.pend = .error e →
    step s = .next { s with
      inputs := rest
      status := { s.status with busy := false, done := true, err := true, cause := .illegalCmd }
      draws := s.draws + 1 }

/-! ## 70_reset_and_hazards.md: reset -/

/-- R250: the value of every register, STATUS and PEND after reset, read at the register's offset. -/
def Obligations.ResetValues : Prop :=
  (∀ p ∈ [(0x000, 0x0000000757464731#64), (0x008, 0x0000200000020000#64), (0x010, 0#64), (0x018, 0#64),
      (0x020, 0#64), (0x028, 0x40E5888000000000#64), (0x030, 0x4000000000000000#64),
      (0x038, 0x3FF0000000000000#64), (0x040, 0x3FF921FB54442D18#64), (0x048, 0#64), (0x050, 0#64),
      (0x058, 512#64), (0x060, 0#64), (0x068, 0#64), (0x070, 0#64), (0x078, 0#64), (0x080, 0#64),
      (0x088, 0#64), (0x090, 0#64), (0x098, 0#64), (0x0A0, 0#64), (0x0A8, 0#64)],
    State.reset.valueAt (locate p.1) = p.2) ∧
  State.reset.pend = 0#64 ∧ State.reset.status.busy = false

/-- The invariant holds after reset. -/
def Obligations.ResetStateInvariant : Prop := State.reset.Inv

/-- R250, R251: reset from any state, a pending command included, gives the reset registers, STATUS and PEND, and lists
nothing in the buffers. That every unwritten byte is then a new free value is the model's form of "unspecified" (log 4);
that reset is one step which leaves the host's side alone is the model's choice (log 12). -/
def Obligations.ResetInputAbandonsCommand : Prop :=
  ∀ (s : State) (rest : List Input), s.inputs = .reset :: rest →
    ∃ t, step s = .next t ∧ t.regs = State.reset.regs ∧ t.status = State.reset.status ∧ t.pend = 0#64 ∧
      t.inputs = rest ∧ t.status.toWord = 0#64 ∧
      ∀ a, t.mem.readByte a = Config.freeByte (s.mem.epoch + 1) a

/-! ## The step: 20_memory.md R76, R80; 60_exceptions.md R225, R237 -/

/-- Every step keeps the invariant of the block, whatever the host does. -/
def Obligations.StepKeepsInvariant : Prop := ∀ s t, s.Inv → step s = .next t → t.Inv

/-- R76: a host that issues only admitted accesses is never stuck, and keeps its obligation. -/
def Obligations.ObedientHostNeverStuck : Prop :=
  ∀ s : State, s.hostObeys → ∃ t, step s = .next t ∧ t.hostObeys

/-- R76: the model stops at a host access exactly when it is not an aligned 64-bit access inside the window. -/
def Obligations.StuckExactlyAtUnadmittedAccess : Prop :=
  ∀ s : State, (∀ t, step s ≠ .next t) ↔
    ∃ off size, ((∃ rest, s.inputs = .read off size :: rest) ∨ (∃ v rest, s.inputs = .write off size v :: rest)) ∧
      ¬(size = 8 ∧ off % 8 = 0 ∧ off < 2 ^ 22)

/-- R225: the engine's step on a pending legal command is that command's completion. -/
def Obligations.StepRunsPendingCommand : Prop :=
  ∀ (s : State) (rest : List Input) (i : Instr), EngineNext s rest → s.status.busy = true →
    decode s.pend = .ok i → step s = exec i { s with inputs := rest }

/-- A command placed by withFetchWord is the next thing that runs (log 2). -/
def Obligations.FetchWordRunsCommand : Prop :=
  ∀ (s : State) (i : Instr), decodeTableWord 64 (encode i).toNat = some i ∧
    step (s.withFetchWord 64 (encode i).toNat) = exec i (s.accept (encode i))

/-- R237: while BUSY = 0 the engine has no step: its turn changes nothing of the block. -/
def Obligations.IdleEngineKeepsState : Prop :=
  ∀ (s : State) (rest : List Input), EngineNext s rest → s.status.busy = false →
    step s = .next { s with inputs := rest }

/-- R225: under weak fairness an accepted command is eventually completed: within the steps still to come and one more.
The list of steps to come is the model's form of the schedule (log 1). -/
def Obligations.AcceptedCommandCompletes : Prop :=
  ∀ s : State, s.status.busy = true → s.hostObeys → (∀ i ∈ s.inputs, i ≠ .reset) →
    ∃ k ≤ s.inputs.length + 1, ∃ t, core.run k s = .next t ∧ t.status.busy = false

/-! ## 40_waveform_generator.md -/

/-- R130, R133: GEN.SINE. -/
def Obligations.GenSineCompletes : Prop :=
  ∀ (s : State) (n : Nat), SampleCount s n →
    Generates .genSine s n fun k =>
      let d := s.nanAt (k + 1)
      fmul (d 4) s.regs.ampl (numSin (d 3)
        (fmul (d 2) (fmul (d 0) twoPi64 s.regs.fundHz) (fdiv (d 1) (i2f k) s.regs.fs)))

/-- R131, R133: GEN.SAW. -/
def Obligations.GenSawCompletes : Prop :=
  ∀ (s : State) (n : Nat), SampleCount s n →
    Generates .genSaw s n fun k =>
      let d := s.nanAt (k + 1)
      fsub (d 5) (fmul (d 4) ftwo
        (floormod (d 2) (d 3) (fmul (d 1) s.regs.fundHz (fdiv (d 0) (i2f k) s.regs.fs)) fone)) fone

/-- R132, R133: GEN.SQUARE. -/
def Obligations.GenSquareCompletes : Prop :=
  ∀ (s : State) (n : Nat), SampleCount s n →
    Generates .genSquare s n fun k =>
      let d := s.nanAt (k + 1)
      sgn (d 4) (numSin (d 3)
        (fmul (d 2) (fmul (d 0) twoPi64 s.regs.fundHz) (fdiv (d 1) (i2f k) s.regs.fs)))

/-- R133, R223: the checks of the GEN commands of a known kind, in order. -/
def Obligations.GenChecksInOrder : Prop :=
  ∀ i ∈ [Instr.genSine, .genSaw, .genSquare], ∀ s : State,
    let p := fmul (s.nanAt 0 0) s.regs.fs s.regs.dur
    (¬(isFinite s.regs.fs = true ∧ fgt s.regs.fs fzero = true) → FailsWith i s .fsInvalid) ∧
    (isFinite s.regs.fs = true → fgt s.regs.fs fzero = true →
      (isFinite p = false ∨ roundHalfEven p < 0 ∨ 131072 < roundHalfEven p) → FailsWith i s .lengthInvalid)

/-- R134: GEN with KIND = 3 always completes with UNKNOWN_KIND, whatever the registers hold, and writes only STATUS; from an
accepted word 0x31, with OVR = 0, STATUS reads 0x3116. -/
def Obligations.GenUnknownKindRaises : Prop :=
  decode 0x31#64 = .ok .genUnknownKind ∧
  (∀ s : State, FailsWith .genUnknownKind s .unknownKind) ∧
  ∀ s t : State, s.status.ovr = false → exec .genUnknownKind (s.accept 0x31#64) = .next t →
    t.status.toWord = 0x3116#64

/-- R130 to R132: the first sample. For the sine and the square the premise that 2π·f is finite is the model's: R130 and R132
claim it for every finite frequency, but 2π·f that overflows gives a NaN sample (log 20). -/
def Obligations.FirstSamples : Prop :=
  ∀ (s : State) (n : Nat), SampleCount s n → 0 < n → isFinite s.regs.fundHz = true →
    (∃ t, exec .genSaw s = .next t ∧ t.elem .x 0 = 0xBFF0000000000000#64) ∧
    (isFinite (fmul (s.nanAt 1 0) twoPi64 s.regs.fundHz) = true →
      ∃ t, exec .genSquare s = .next t ∧ t.elem .x 0 = 0#64) ∧
    (isFinite (fmul (s.nanAt 1 0) twoPi64 s.regs.fundHz) = true → isFinite s.regs.ampl = true →
      ∃ t, exec .genSine s = .next t ∧ fmag (t.elem .x 0) = 0)

/-- R135, R130, R131, R132: the bounds of the samples. The premise that the argument is finite is the model's: R135 claims
the bounds for every finite frequency, but an argument that overflows gives a NaN sample (log 20). -/
def Obligations.SampleBounds : Prop :=
  ∀ (s : State) (n k : Nat), SampleCount s n → k < n →
    let d := s.nanAt (k + 1)
    let arg := fmul (d 2) (fmul (d 0) twoPi64 s.regs.fundHz) (fdiv (d 1) (i2f k) s.regs.fs)
    let u := fmul (d 1) s.regs.fundHz (fdiv (d 0) (i2f k) s.regs.fs)
    (isFinite arg = true → isFinite s.regs.ampl = true →
      ∃ t, exec .genSine s = .next t ∧ fmag (t.elem .x k) ≤ fmag s.regs.ampl) ∧
    (isFinite arg = true →
      ∃ t, exec .genSquare s = .next t ∧ t.elem .x k ∈ [0xBFF0000000000000#64, 0#64, 0x3FF0000000000000#64]) ∧
    (isFinite u = true → fle fzero u = true →
      ∃ t, exec .genSaw s = .next t ∧ fle 0xBFF0000000000000#64 (t.elem .x k) = true ∧
        flt (t.elem .x k) 0x3FF0000000000000#64 = true)

/-- R227, R57: the frame of GEN: registers but X_LEN, PEND, the host's side, and every byte outside X[0..n-1]. -/
def Obligations.GenFrame : Prop :=
  ∀ i ∈ [Instr.genSine, .genSaw, .genSquare, .genUnknownKind], ∀ s t : State, exec i s = .next t →
    (∀ r, r ≠ .xLen → t.regs.get r = s.regs.get r) ∧
    t.pend = s.pend ∧ t.inputs = s.inputs ∧ t.rdata = s.rdata ∧
    t.status.ovr = s.status.ovr ∧ t.status.lastOp = s.status.lastOp ∧ t.status.lastKind = s.status.lastKind ∧
    (t.status.err = true → t.regs.xLen = s.regs.xLen ∧ ∀ a, t.mem.readByte a = s.mem.readByte a) ∧
    ∀ a, (a < Buf.addr .x 0 ∨ Buf.addr .x t.regs.xLen.toNat ≤ a) → t.mem.readByte a = s.mem.readByte a

/-! ## 41_resonant_designer.md -/

/-- R150: DESIGN with valid operands. -/
def Obligations.DesignCompletes : Prop :=
  ∀ s : State, isFinite s.regs.fs = true → fgt s.regs.fs fzero = true →
    fgt s.regs.fc fzero = true → flt s.regs.fc (fdiv (s.nanAt 0 0) s.regs.fs ftwo) = true →
    fgt s.regs.q fzero = true → isFinite s.regs.q = true →
    let d := s.nanAt 0
    let w0 := fdiv (d 2) (fmul (d 1) twoPi64 s.regs.fc) s.regs.fs
    let alpha := fdiv (d 5) (numSin (d 3) w0) (fmul (d 4) ftwo s.regs.q)
    let a0 := fadd (d 6) fone alpha
    let a1 := fmul (d 8) fminusTwo (numCos (d 7) w0)
    let a2 := fsub (d 9) fone alpha
    ∃ t, exec .design s = .next t ∧ Succeeds s t ∧
      t.regs = { s.regs with
        b0 := fdiv (d 10) alpha a0
        b1 := fdiv (d 11) fzero a0
        b2 := fdiv (d 13) (fneg (d 12) alpha) a0
        a0 := fone
        a1 := fdiv (d 14) a1 a0
        a2 := fdiv (d 15) a2 a0 } ∧
      t.mem = s.mem

/-- R150, R223: the checks of DESIGN in order. -/
def Obligations.DesignChecksInOrder : Prop :=
  ∀ s : State,
    let fsOk := isFinite s.regs.fs = true ∧ fgt s.regs.fs fzero = true
    let fcOk := fgt s.regs.fc fzero = true ∧ flt s.regs.fc (fdiv (s.nanAt 0 0) s.regs.fs ftwo) = true
    let qOk := fgt s.regs.q fzero = true ∧ isFinite s.regs.q = true
    (¬fsOk → FailsWith .design s .fsInvalid) ∧
    (fsOk → ¬fcOk → FailsWith .design s .fcOutOfRange) ∧
    (fsOk → fcOk → ¬qOk → FailsWith .design s .qNotPositive)

/-- R150: "B2 = fneg(B0) exactly", where B0 is not a NaN. -/
def Obligations.DesignB2MirrorsB0 : Prop :=
  ∀ s t : State, exec .design s = .next t → t.status.err = false → isNaN t.regs.b0 = false →
    t.regs.b2 = flipSign t.regs.b0 ∧ t.regs.a0 = 0x3FF0000000000000#64

/-- R227, R57: the frame of DESIGN: every register but the six coefficients, and all of memory. -/
def Obligations.DesignFrame : Prop :=
  ∀ s t : State, exec .design s = .next t →
    (∀ r, r ∉ [Reg.b0, .b1, .b2, .a0, .a1, .a2] → t.regs.get r = s.regs.get r) ∧
    t.pend = s.pend ∧ t.inputs = s.inputs ∧ t.rdata = s.rdata ∧
    t.status.ovr = s.status.ovr ∧ t.status.lastOp = s.status.lastOp ∧ t.status.lastKind = s.status.lastKind ∧
    (t.status.err = true → t.regs = s.regs) ∧
    ∀ a, t.mem.readByte a = s.mem.readByte a

/-! ## 42_biquad_filter.md -/

/-- R170, R171: FILTER runs the transposed direct form II with zero initial state over X[0..X_LEN-1] into Y. -/
def Obligations.FilterCompletes : Prop :=
  ∀ s : State, s.regs.a0 = 0x3FF0000000000000#64 → s.regs.xLen.toNat ≤ 131072 →
    ∃ t, exec .filter s = .next t ∧ Succeeds s t ∧ t.regs = { s.regs with yLen := s.regs.xLen } ∧
      (∃ z1 z2 : Nat → Word, z1 0 = 0#64 ∧ z2 0 = 0#64 ∧
        ∀ k < s.regs.xLen.toNat,
          let d := s.nanAt k
          let x := s.elem .x k
          let y := t.elem .y k
          y = fadd (d 1) (z1 k) (fmul (d 0) s.regs.b0 x) ∧
          z1 (k + 1) = fsub (d 5) (fadd (d 3) (z2 k) (fmul (d 2) x s.regs.b1)) (fmul (d 4) y s.regs.a1) ∧
          z2 (k + 1) = fsub (d 8) (fmul (d 6) x s.regs.b2) (fmul (d 7) y s.regs.a2)) ∧
      (∀ k, s.regs.xLen.toNat ≤ k → k < 131072 → t.elem .y k = s.elem .y k) ∧
      (∀ k < 131072, t.elem .x k = s.elem .x k)

/-- R170, R223: the checks of FILTER in order. -/
def Obligations.FilterChecksInOrder : Prop :=
  ∀ s : State,
    (s.regs.a0 ≠ 0x3FF0000000000000#64 → FailsWith .filter s .coeffMalformed) ∧
    (s.regs.a0 = 0x3FF0000000000000#64 → 131072 < s.regs.xLen.toNat → FailsWith .filter s .lengthInvalid)

/-- R170: a NaN sample makes its output and every later one a NaN, and an infinite sample makes them non-finite, whatever
the coefficients. -/
def Obligations.FilterNonFinitePropagates : Prop :=
  ∀ (s : State) (k : Nat), s.regs.a0 = 0x3FF0000000000000#64 → s.regs.xLen.toNat ≤ 131072 →
    k < s.regs.xLen.toNat →
    ∃ t, exec .filter s = .next t ∧ ∀ j, k ≤ j → j < s.regs.xLen.toNat →
      (isNaN (s.elem .x k) = true → isNaN (t.elem .y j) = true) ∧
      (isFinite (s.elem .x k) = false → isFinite (t.elem .y j) = false)

/-- R172: two FILTER commands with identical operands produce bit-identical output, but for the bits of NaN results, which
are free: whatever else differs between the two states. -/
def Obligations.FilterDeterministic : Prop :=
  ∀ s s' : State,
    s.regs.b0 = s'.regs.b0 → s.regs.b1 = s'.regs.b1 → s.regs.b2 = s'.regs.b2 →
    s.regs.a0 = 0x3FF0000000000000#64 → s'.regs.a0 = 0x3FF0000000000000#64 →
    s.regs.a1 = s'.regs.a1 → s.regs.a2 = s'.regs.a2 →
    s.regs.xLen = s'.regs.xLen → s.regs.xLen.toNat ≤ 131072 →
    (∀ k < s.regs.xLen.toNat, s.elem .x k = s'.elem .x k) →
    ∃ t t', exec .filter s = .next t ∧ exec .filter s' = .next t' ∧ t.regs.yLen = t'.regs.yLen ∧
      ∀ k < s.regs.xLen.toNat,
        isNaN (t.elem .y k) = isNaN (t'.elem .y k) ∧
        (isNaN (t.elem .y k) = false → t.elem .y k = t'.elem .y k)

/-- R227, R57: the frame of FILTER: every register but Y_LEN, and every byte outside Y[0..n-1]. -/
def Obligations.FilterFrame : Prop :=
  ∀ s t : State, exec .filter s = .next t →
    (∀ r, r ≠ .yLen → t.regs.get r = s.regs.get r) ∧
    t.pend = s.pend ∧ t.inputs = s.inputs ∧ t.rdata = s.rdata ∧
    t.status.ovr = s.status.ovr ∧ t.status.lastOp = s.status.lastOp ∧ t.status.lastKind = s.status.lastKind ∧
    (t.status.err = true → t.regs.yLen = s.regs.yLen ∧ ∀ a, t.mem.readByte a = s.mem.readByte a) ∧
    ∀ a, (a < Buf.addr .y 0 ∨ Buf.addr .y s.regs.xLen.toNat ≤ a) → t.mem.readByte a = s.mem.readByte a

/-! ## 43_frequency_response.md -/

/-- R190 to R193: EVAL writes the grid, the magnitudes in dB and the unwrapped phases in degrees, as the pseudocode computes
them; the corner sentences of R190, R191 and R192 that the laws of NUM or the rounding do not give are not claimed (logs 21
to 23). -/
def Obligations.EvalCompletes : Prop :=
  ∀ s : State, s.regs.a0 = 0x3FF0000000000000#64 → isFinite s.regs.fs = true → fgt s.regs.fs fzero = true →
    s.regs.npoints.toNat ≤ 8192 →
    let p := s.regs.npoints.toNat
    let half := fdiv (s.nanAt 0 0) s.regs.fs ftwo
    ∃ t, exec .eval s = .next t ∧ Succeeds s t ∧ t.regs = { s.regs with respLen := s.regs.npoints } ∧
      (∀ k < p, t.elem .freq k =
        if p = 1 then fzero
        else if k + 1 = p then half
        else fmul (s.nanAt k 2) (i2f k) (fdiv (s.nanAt 0 1) half (i2f (p - 1)))) ∧
      (∃ ph c acc : Nat → Word, ∀ k < p,
        Point (s.nanAt k) s.regs (t.elem .freq k) (t.elem .mag k) (ph k) ∧
        (k = 0 → t.elem .phase k = fmul (s.nanAt k 53) (ph k) rad2deg64) ∧
        (k ≠ 0 → Correction (s.nanAt k) (ph (k - 1)) (ph k) (c k) ∧
          acc k = (if k = 1 then c k else fadd (s.nanAt k 51) (acc (k - 1)) (c k)) ∧
          t.elem .phase k = fmul (s.nanAt k 53) (fadd (s.nanAt k 52) (ph k) (acc k)) rad2deg64)) ∧
      ∀ b ∈ [Buf.freq, .mag, .phase], ∀ k, p ≤ k → k < 8192 → t.elem b k = s.elem b k

/-- R190, R223: the checks of EVAL in order. -/
def Obligations.EvalChecksInOrder : Prop :=
  ∀ s : State,
    let fsOk := isFinite s.regs.fs = true ∧ fgt s.regs.fs fzero = true
    (s.regs.a0 ≠ 0x3FF0000000000000#64 → FailsWith .eval s .coeffMalformed) ∧
    (s.regs.a0 = 0x3FF0000000000000#64 → ¬fsOk → FailsWith .eval s .fsInvalid) ∧
    (s.regs.a0 = 0x3FF0000000000000#64 → fsOk → 8192 < s.regs.npoints.toNat → FailsWith .eval s .lengthInvalid)

/-- R227, R57: the frame of EVAL: every register but RESP_LEN, and every byte outside the first P elements of FREQ, MAG and
PHASE. -/
def Obligations.EvalFrame : Prop :=
  ∀ s t : State, exec .eval s = .next t →
    (∀ r, r ≠ .respLen → t.regs.get r = s.regs.get r) ∧
    t.pend = s.pend ∧ t.inputs = s.inputs ∧ t.rdata = s.rdata ∧
    t.status.ovr = s.status.ovr ∧ t.status.lastOp = s.status.lastOp ∧ t.status.lastKind = s.status.lastKind ∧
    (t.status.err = true → t.regs.respLen = s.regs.respLen ∧ ∀ a, t.mem.readByte a = s.mem.readByte a) ∧
    ∀ a, (∀ b ∈ [Buf.freq, .mag, .phase], a < Buf.addr b 0 ∨ Buf.addr b s.regs.npoints.toNat ≤ a) →
      t.mem.readByte a = s.mem.readByte a

/-! ## 60_exceptions.md -/

/-- R226: a command that raises an error writes nothing but STATUS, and so does the engine's step on any pending word, an
illegal one included. -/
def Obligations.ErrorWritesOnlyStatus : Prop :=
  (∀ (i : Instr) (s t : State), exec i s = .next t → t.status.err = true →
    t.regs = s.regs ∧ t.pend = s.pend ∧ t.mem = s.mem) ∧
  ∀ (s t : State) (rest : List Input), EngineNext s rest → s.status.busy = true → step s = .next t →
    t.status.err = true → t.regs = s.regs ∧ t.pend = s.pend ∧ t.mem = s.mem

/-- R40, R39, R37: PHASE0 has no effect on any command, AMPL only on GEN.SINE, FS none on FILTER: changing the register
changes nothing of the result but the register itself. -/
def Obligations.UnreadOperandsHaveNoEffect : Prop :=
  ∀ (i : Instr) (s : State) (v : Word),
    (∃ t, exec i s = .next t ∧
      exec i { s with regs := { s.regs with phase0 := v } } = .next { t with regs := { t.regs with phase0 := v } }) ∧
    (i ≠ .genSine → ∃ t, exec i s = .next t ∧
      exec i { s with regs := { s.regs with ampl := v } } = .next { t with regs := { t.regs with ampl := v } }) ∧
    (i = .filter → ∃ t, exec i s = .next t ∧
      exec i { s with regs := { s.regs with fs := v } } = .next { t with regs := { t.regs with fs := v } })

/-- R224: a host write of CMD is accepted when the engine is idle, whatever the word, and otherwise dropped with OVR. -/
def Obligations.CmdWriteAcceptedOrDropped : Prop :=
  ∀ (s : State) (w : Word) (rest : List Input), s.inputs = .write 0x010 8 w :: rest →
    (s.status.busy = true → step s = .next { s with inputs := rest, status := { s.status with ovr := true } }) ∧
    (s.status.busy = false → step s = .next { s with
      inputs := rest
      pend := w
      status := { busy := true, done := false, err := false, ovr := s.status.ovr, cause := .none,
                  lastOp := w.extractLsb' 0 4, lastKind := w.extractLsb' 4 2 } })

/-! ## 10_state.md and 20_memory.md: the bus -/

/-- R34: STATUS as the host reads it, field by field. -/
def Obligations.StatusWordLayout : Prop :=
  ∀ t : Status,
    t.toWord.getLsbD 0 = t.busy ∧ t.toWord.getLsbD 1 = t.done ∧ t.toWord.getLsbD 2 = t.err ∧
    t.toWord.getLsbD 3 = t.ovr ∧ t.toWord.extractLsb' 8 4 = t.lastOp ∧ t.toWord.extractLsb' 12 2 = t.lastKind ∧
    t.toWord.extractLsb' 14 50 = 0#50 ∧
    t.toWord.extractLsb' 4 4 = match t.cause with
      | .none => 0#4 | .unknownKind => 1#4 | .qNotPositive => 2#4 | .fcOutOfRange => 3#4
      | .coeffMalformed => 4#4 | .fsInvalid => 5#4 | .lengthInvalid => 6#4 | .illegalCmd => 7#4

/-- R35: a host write of STATUS works field by field and is never dropped; while BUSY = 1 (so DONE, ERR and CAUSE are 0) it
can change only OVR. -/
def Obligations.StatusWriteClearsFieldByField : Prop :=
  ∀ (s : State) (v : Word) (rest : List Input), s.inputs = .write 0x018 8 v :: rest →
    step s = .next { s with
      inputs := rest
      status := {
        busy := s.status.busy
        done := if v.getLsbD 1 then false else s.status.done
        err := if v.getLsbD 2 then false else s.status.err
        cause := if v.getLsbD 2 then .none else s.status.cause
        ovr := if v.getLsbD 3 then false else s.status.ovr
        lastOp := s.status.lastOp
        lastKind := s.status.lastKind } } ∧
    (s.status.busy = true → s.status.Sound →
      ∃ t, step s = .next t ∧ t.status = { s.status with ovr := t.status.ovr })

/-- R260: host writes while BUSY = 1, STATUS apart: CMD and RW locations dropped with OVR set, every other location ignored. -/
def Obligations.WriteWhileBusyDropped : Prop :=
  ∀ (s : State) (off : Nat) (v : Word) (rest : List Input), s.status.busy = true →
    s.inputs = .write off 8 v :: rest → off % 8 = 0 → off < 2 ^ 22 → off ≠ 0x018 →
    ((off = 0x010 ∨ RwLocation off) →
      step s = .next { s with inputs := rest, status := { s.status with ovr := true } }) ∧
    (¬(off = 0x010 ∨ RwLocation off) → step s = .next { s with inputs := rest })

/-- R75, R59: an idle RW register takes any 64-bit pattern, which the next read returns; every other offset reads as
before. -/
def Obligations.RegisterWriteThenRead : Prop :=
  ∀ (s : State) (off : Nat) (v : Word) (rest : List Input), s.status.busy = false → RwRegister off →
    s.inputs = .write off 8 v :: .read off 8 :: rest →
    ∃ t u, step s = .next t ∧ step t = .next u ∧ u.rdata = some v ∧
      (∀ off', off' % 8 = 0 → off' < 2 ^ 22 → off' ≠ off → u.valueAt (locate off') = s.valueAt (locate off')) ∧
      u.pend = s.pend ∧ u.status = s.status ∧ u.mem = s.mem ∧ u.inputs = rest

/-- R75, R49: an idle X element takes any 64-bit pattern, which the next read returns; every other offset reads as
before. -/
def Obligations.XWriteThenRead : Prop :=
  ∀ (s : State) (i : Nat) (v : Word) (rest : List Input), s.status.busy = false → i < 131072 →
    s.inputs = .write (0x100000 + 8 * i) 8 v :: .read (0x100000 + 8 * i) 8 :: rest →
    ∃ t u, step s = .next t ∧ step t = .next u ∧ u.rdata = some v ∧
      (∀ off', off' % 8 = 0 → off' < 2 ^ 22 → off' ≠ 0x100000 + 8 * i →
        u.valueAt (locate off') = s.valueAt (locate off')) ∧
      u.pend = s.pend ∧ u.status = s.status ∧ u.regs = s.regs ∧ u.inputs = rest

/-- R75 case 5: an idle block ignores writes of everything but CMD, STATUS and the RW locations. -/
def Obligations.ReadOnlyWritesIgnored : Prop :=
  ∀ (s : State) (off : Nat) (v : Word) (rest : List Input), s.status.busy = false →
    s.inputs = .write off 8 v :: rest → off % 8 = 0 → off < 2 ^ 22 →
    ¬(off = 0x010 ∨ off = 0x018 ∨ RwLocation off) → step s = .next { s with inputs := rest }

/-- R78, R74: an admitted read always answers and has no side effect on the block, and while the block is idle it returns
the current value at its offset: STATUS, a register, or a buffer element. -/
def Obligations.ReadsHaveNoSideEffect : Prop :=
  ∀ (s : State) (off : Nat) (rest : List Input), s.inputs = .read off 8 :: rest → off % 8 = 0 → off < 2 ^ 22 →
    ∃ t w, step s = .next t ∧ t.rdata = some w ∧
      t.regs = s.regs ∧ t.status = s.status ∧ t.pend = s.pend ∧ t.mem = s.mem ∧ t.inputs = rest ∧
      (s.status.busy = false → CurrentValue s off w ∧ t.draws = s.draws)

/-- R74: ID, CAP, CMD and the RAZ locations read the same in every state. -/
def Obligations.FixedLocationsRead : Prop :=
  ∀ (s : State) (off : Nat) (rest : List Input), s.inputs = .read off 8 :: rest → off % 8 = 0 → off < 2 ^ 22 →
    ∃ t, step s = .next t ∧
      (off = 0x000 → t.rdata = some 0x0000000757464731#64) ∧
      (off = 0x008 → t.rdata = some 0x0000200000020000#64) ∧
      ((off = 0x010 ∨ off = 0x078 ∨ (0x0B0 ≤ off ∧ off < 0x100000) ∨ 0x330000 ≤ off) → t.rdata = some 0#64)

/-- R86, R227, R74: while a command word is pending, legal or not, a read of its output set returns a free word, drawn for
that read, and a read of any other location its current value; an illegal word has no output set. -/
def Obligations.ReadWhileBusy : Prop :=
  ∀ (s : State) (off : Nat) (rest : List Input), s.status.busy = true →
    s.inputs = .read off 8 :: rest → off % 8 = 0 → off < 2 ^ 22 →
    ∃ t, step s = .next t ∧
      (InPendingOutput s off → t.rdata = some (Config.freeWord s.draws) ∧ t.draws = s.draws + 1) ∧
      (¬InPendingOutput s off →
        t.rdata = some (s.valueAt (locate off)) ∧ CurrentValue s off (s.valueAt (locate off)) ∧ t.draws = s.draws)

/-- R81: no host access changes an operand or the pending command while BUSY = 1. -/
def Obligations.OperandsFixedWhileBusy : Prop :=
  ∀ s t : State, s.status.busy = true → step s = .next t →
    ((∃ off size rest, s.inputs = .read off size :: rest) ∨
      (∃ off size v rest, s.inputs = .write off size v :: rest)) →
    t.regs = s.regs ∧ t.mem = s.mem ∧ t.pend = s.pend ∧ t.status.busy = true

/-- R34, R260, R231: OVR is sticky, and set only by a dropped write. -/
def Obligations.OvrIsSticky : Prop :=
  ∀ s t : State, step s = .next t →
    (s.status.ovr = true → t.status.ovr = false →
      (∃ v rest, s.inputs = .write 0x018 8 v :: rest ∧ v.getLsbD 3 = true) ∨ ∃ rest, s.inputs = .reset :: rest) ∧
    (s.status.ovr = false → t.status.ovr = true → s.status.busy = true ∧
      ∃ off v rest, s.inputs = .write off 8 v :: rest ∧ (off = 0x010 ∨ RwLocation off))

/-- R49, R50, R51: who writes the buffers. No command writes X except GEN, none Y except FILTER, none the curve except EVAL;
the host writes X only; reset apart. -/
def Obligations.WhoWritesTheBuffers : Prop :=
  ∀ s t : State, step s = .next t → (∀ rest, s.inputs ≠ .reset :: rest) →
    (∀ k < 131072, t.elem .x k ≠ s.elem .x k →
      (s.status.busy = true ∧ (decode s.pend = .ok .genSine ∨ decode s.pend = .ok .genSaw ∨
        decode s.pend = .ok .genSquare)) ∨
      (s.status.busy = false ∧ ∃ v rest, s.inputs = .write (0x100000 + 8 * k) 8 v :: rest)) ∧
    (∀ k < 131072, t.elem .y k ≠ s.elem .y k → s.status.busy = true ∧ decode s.pend = .ok .filter) ∧
    (∀ b ∈ [Buf.freq, .mag, .phase], ∀ k < 8192, t.elem b k ≠ s.elem b k →
      s.status.busy = true ∧ decode s.pend = .ok .eval)

/-- R57: the engine never writes a parameter register. -/
def Obligations.EngineKeepsParameters : Prop :=
  ∀ (s t : State) (rest : List Input), EngineNext s rest → step s = .next t →
    ∀ r ∈ [Reg.fundHz, .fs, .dur, .ampl, .phase0, .fc, .q, .npoints], t.regs.get r = s.regs.get r

/-! ## 00_scope.md: numerics -/

/-- R11: fadd and fsub of finite operands are the exact sum and difference rounded once with roundTiesToEven. An infinite
operand gives the IEEE 754 results: the infinity, or a NaN where two infinities cancel (R12). fneg flips the sign bit and
fabs clears it. -/
def Obligations.FaddCorrectlyRounded : Prop :=
  ∀ (d : NaNBits) (a b : Word),
    (isFinite a = true → isFinite b = true →
      (units a + units b ≠ 0 →
        Rounded (decide (units a + units b < 0)) (units a + units b).natAbs 1 (fadd d a b)) ∧
      (units a + units b = 0 → fadd d a b = ofSignMag (fsign a && fsign b) 0) ∧
      (units a - units b ≠ 0 →
        Rounded (decide (units a - units b < 0)) (units a - units b).natAbs 1 (fsub d a b)) ∧
      (units a - units b = 0 → fsub d a b = ofSignMag (fsign a && !fsign b) 0)) ∧
    (isInf a = true → isFinite b = true → fadd d a b = a ∧ fsub d a b = a) ∧
    (isFinite a = true → isInf b = true →
      fadd d a b = b ∧ fsub d a b = ofSignMag (!fsign b) infMag) ∧
    (isInf a = true → isInf b = true →
      (fsign a = fsign b → fadd d a b = a ∧ isNaN (fsub d a b) = true) ∧
      (fsign a ≠ fsign b → isNaN (fadd d a b) = true ∧ fsub d a b = a)) ∧
    (isNaN a = false → fneg d a = ofSignMag (!fsign a) (fmag a) ∧ fabs d a = ofSignMag false (fmag a))

/-- R11: fmul of finite operands is the exact product rounded once, with the exclusive or of the signs. An infinite operand
gives an infinity of that sign, but a NaN with a zero (R12). -/
def Obligations.FmulCorrectlyRounded : Prop :=
  ∀ (d : NaNBits) (a b : Word),
    (isFinite a = true → isFinite b = true →
      Rounded (fsign a != fsign b) (magUnits (fmag a) * magUnits (fmag b)) (2 ^ 1074) (fmul d a b)) ∧
    (isNaN a = false → isNaN b = false → isInf a = true ∨ isInf b = true →
      (fmag a = 0 ∨ fmag b = 0 → isNaN (fmul d a b) = true) ∧
      (fmag a ≠ 0 → fmag b ≠ 0 → fmul d a b = ofSignMag (fsign a != fsign b) infMag))

/-- R11: fdiv of finite operands is the exact quotient rounded once; a nonzero value divided by zero gives a correctly
signed infinity, a finite value divided by an infinity a signed zero, an infinity divided by a finite value a signed
infinity; 0/0 and an infinity divided by an infinity are NaNs (R12). -/
def Obligations.FdivCorrectlyRounded : Prop :=
  ∀ (d : NaNBits) (a b : Word),
    (isFinite a = true → isFinite b = true →
      (fmag b ≠ 0 →
        Rounded (fsign a != fsign b) (magUnits (fmag a) * 2 ^ 1074) (magUnits (fmag b)) (fdiv d a b)) ∧
      (fmag b = 0 → fmag a ≠ 0 → fdiv d a b = ofSignMag (fsign a != fsign b) infMag) ∧
      (fmag b = 0 → fmag a = 0 → isNaN (fdiv d a b) = true)) ∧
    (isFinite a = true → isInf b = true → fdiv d a b = ofSignMag (fsign a != fsign b) 0) ∧
    (isInf a = true → isFinite b = true → fdiv d a b = ofSignMag (fsign a != fsign b) infMag) ∧
    (isInf a = true → isInf b = true → isNaN (fdiv d a b) = true)

/-- R12, R13: every NaN result is a quiet NaN, a NaN operand gives a NaN, and comparisons with a NaN are false. Comparisons
of other words go by value: finite words by their exact values, so +0 == -0, the infinities at the ends. The classes are
those of the exponent and fraction fields (R10). -/
def Obligations.NaNResultsAreQuiet : Prop :=
  ∀ (d d' : NaNBits) (a b : Word),
    (∀ r ∈ [fadd d a b, fsub d a b, fmul d a b, fdiv d a b, fmod d a b, fmaxn d a b, floormod d d' a b],
      (isNaN a = true ∨ isNaN b = true → isNaN r = true)) ∧
    (∀ r ∈ [fneg d a, fabs d a, sgn d a], isNaN a = true → isNaN r = true) ∧
    (∀ r ∈ [fadd d a b, fsub d a b, fmul d a b, fdiv d a b, fneg d a, fabs d a, fmod d a b, sgn d a, fmaxn d a b,
        floormod d d' a b, numSin d a, numCos d a, numLog10 d a, numAtan2 d a b, numHypot d a b],
      isNaN r = true → QuietNaN r) ∧
    (isNaN a = true ∨ isNaN b = true →
      flt a b = false ∧ fgt a b = false ∧ feq a b = false ∧ fle a b = false) ∧
    (isFinite a = true → isFinite b = true →
      Compares a b (decide (units a < units b)) (decide (units a = units b))) ∧
    (isFinite a = true → Compares a 0x7FF0000000000000#64 true false ∧ Compares 0xFFF0000000000000#64 a true false) ∧
    Compares 0xFFF0000000000000#64 0x7FF0000000000000#64 true false ∧
    Compares 0x7FF0000000000000#64 0x7FF0000000000000#64 false true ∧
    Compares 0xFFF0000000000000#64 0xFFF0000000000000#64 false true ∧
    Compares 0x0000000000000000#64 0x8000000000000000#64 false true ∧
    (isFinite a = true ↔ a.extractLsb' 52 11 ≠ 0x7FF#11) ∧
    (isInf a = true ↔ a.extractLsb' 52 11 = 0x7FF#11 ∧ a.extractLsb' 0 52 = 0#52) ∧
    (isNaN a = true ↔ a.extractLsb' 52 11 = 0x7FF#11 ∧ a.extractLsb' 0 52 ≠ 0#52)

/-- R14: fmod is exact, the remainder of the truncated quotient with the sign of the dividend, and a NaN where R14 says. -/
def Obligations.FmodExact : Prop :=
  ∀ (d : NaNBits) (a b : Word),
    (isFinite a = true → isFinite b = true → fmag b ≠ 0 →
      isFinite (fmod d a b) = true ∧ units (fmod d a b) = Int.tmod (units a) (units b) ∧
        fsign (fmod d a b) = fsign a) ∧
    (isFinite a = false ∨ fmag b = 0 → isNaN (fmod d a b) = true) ∧
    (fmag a = 0 → fmag b ≠ 0 → isNaN b = false → fmod d a b = a)

/-- R15: i2f is exact below 2^53. -/
def Obligations.IntegerConversionExact : Prop :=
  ∀ i : Nat, i < 2 ^ 53 → isFinite (i2f i) = true ∧ units (i2f i) = (i : Int) * 2 ^ 1074

/-- R16: roundHalfEven gives the integer nearest to a finite value, and the even one on a tie; the rule's examples 2.5, 3.5
and -0.4. -/
def Obligations.RoundHalfEvenNearest : Prop :=
  (∀ p : Word, isFinite p = true → ∀ z : Int,
    |roundHalfEven p * 2 ^ 1074 - units p| ≤ |z * 2 ^ 1074 - units p| ∧
    (|roundHalfEven p * 2 ^ 1074 - units p| = |z * 2 ^ 1074 - units p| →
      z = roundHalfEven p ∨ roundHalfEven p % 2 = 0)) ∧
  roundHalfEven 0x4004000000000000#64 = 2 ∧ roundHalfEven 0x400C000000000000#64 = 4 ∧
  roundHalfEven 0xBFD999999999999A#64 = 0

/-- R17: the laws L1 to L7 of NUM. -/
def Obligations.NumLaws : Prop :=
  ∀ (d : NaNBits) (x y : Word),
    (fmag x = 0 → numSin d x = x ∧ numCos d x = 0x3FF0000000000000#64) ∧
    (isFinite x = true → fle fminusOne (numSin d x) = true ∧ fle (numSin d x) fone = true ∧
      fle fminusOne (numCos d x) = true ∧ fle (numCos d x) fone = true) ∧
    (isFinite x = false → isNaN (numSin d x) = true ∧ isNaN (numCos d x) = true) ∧
    (numLog10 d finf = finf ∧ (isNaN x = true → isNaN (numLog10 d x) = true) ∧
      (isFinite x = true → fgt x fzero = true → isFinite (numLog10 d x) = true)) ∧
    ((isNaN x = false → isNaN y = false → fle fzero (numHypot d x y) = true) ∧
      (fmag x = 0 → fmag y = 0 → numHypot d x y = 0#64) ∧
      (isNaN x = true → isFinite y = true → isNaN (numHypot d x y) = true ∧ isNaN (numHypot d y x) = true) ∧
      (isInf x = true → numHypot d x y = finf ∧ numHypot d y x = finf)) ∧
    ((isNaN x = false → isNaN y = false →
        fle (flipSign pi64) (numAtan2 d y x) = true ∧ fle (numAtan2 d y x) pi64 = true) ∧
      (fmag y = 0 → numAtan2 d y 0#64 = y ∧
        numAtan2 d y 0x8000000000000000#64 = if fsign y then flipSign pi64 else pi64)) ∧
    (fle fzero x = true → fle x pi64 = true → fle fzero (numSin d x) = true)

/-- R18, R19: sgn and fmaxn. -/
def Obligations.SgnAndFmaxn : Prop :=
  ∀ (d : NaNBits) (a b : Word),
    (fgt a fzero = true → sgn d a = 0x3FF0000000000000#64) ∧
    (flt a fzero = true → sgn d a = 0xBFF0000000000000#64) ∧
    (fmag a = 0 → sgn d a = 0#64) ∧ (isNaN a = true → isNaN (sgn d a) = true) ∧
    (isNaN a = true ∨ isNaN b = true → isNaN (fmaxn d a b) = true) ∧
    (fgt a b = true → fmaxn d a b = a) ∧
    (fgt b a = true → fmaxn d a b = b) ∧ (feq a b = true → fmaxn d a b = b)

/-- R20: floormod for m > 0. For a finite dividend it lies in [+0, m]; for a finite m too it is the exact a mod m (the
remainder of the floor quotient) rounded once: exactly the remainder of fmod where that is not negative, and m itself only
where that is negative. It is a NaN for a NaN or infinite dividend. For m = +inf it rests on log 8 (fmod of a finite value
and an infinity is that value). -/
def Obligations.FloormodRange : Prop :=
  ∀ (d d' : NaNBits) (a m : Word), fgt m fzero = true →
    (isFinite a = true → fle fzero (floormod d d' a m) = true ∧ fsign (floormod d d' a m) = false ∧
      fle (floormod d d' a m) m = true) ∧
    (isFinite a = true → isFinite m = true →
      Rounded false (units a % units m).toNat 1 (floormod d d' a m) ∧
      (0 ≤ Int.tmod (units a) (units m) → units (floormod d d' a m) = Int.tmod (units a) (units m)) ∧
      (feq (floormod d d' a m) m = true → Int.tmod (units a) (units m) < 0)) ∧
    (isFinite a = true → isInf m = true → (flt a fzero = true → floormod d d' a m = m) ∧
      (fgt a fzero = true → floormod d d' a m = a) ∧ (fmag a = 0 → floormod d d' a m = 0#64)) ∧
    (isFinite a = false → isNaN (floormod d d' a m) = true)
end

