-- ==== Sys2Proof/Laws/Float.lean ====
section
/-! SUPPORT. The laws of the arithmetic: fields and classes of words, the rounding theorem (`roundMag` gives the nearest
magnitude, a tie the even one, 00_scope.md R11), and which results are NaNs (R12). -/

namespace Sys2Proof.Machine

/-! ## Fields -/

theorem fmag_lt (a : Word) : fmag a < 2 ^ 63 := Nat.mod_lt _ (by decide)

theorem infMag_lt : infMag < 2 ^ 63 := by decide

theorem fsign_eq (a : Word) : fsign a = decide (2 ^ 63 ≤ a.toNat) := by
  rw [fsign, BitVec.msb_eq_decide]

theorem toNat_eq (a : Word) : a.toNat = (if fsign a then 2 ^ 63 else 0) + fmag a := by
  have := a.isLt
  rw [fsign_eq, fmag]
  by_cases h : 2 ^ 63 ≤ a.toNat
  · rw [decide_eq_true h, if_pos rfl]
    omega
  · rw [decide_eq_false h, if_neg (by decide)]
    omega

theorem toNat_ofSignMag (s : Bool) {m : Nat} (h : m < 2 ^ 63) :
    (ofSignMag s m).toNat = (if s then 2 ^ 63 else 0) + m := by
  rw [ofSignMag, BitVec.toNat_append, BitVec.toNat_ofNat, Nat.mod_eq_of_lt h, ← Nat.shiftLeft_add_eq_or_of_lt h]
  cases s <;> simp [Nat.shiftLeft_eq]

@[simp] theorem fsign_ofSignMag (s : Bool) (m : Nat) : fsign (ofSignMag s m) = s := by
  rw [fsign, ofSignMag, BitVec.msb_append]
  cases s <;> simp

theorem fmag_ofSignMag (s : Bool) {m : Nat} (h : m < 2 ^ 63) : fmag (ofSignMag s m) = m := by
  rw [fmag, toNat_ofSignMag s h]
  cases s <;> simp <;> omega

/-- A word is its sign and its magnitude. -/
theorem word_ext {a b : Word} (hs : fsign a = fsign b) (hm : fmag a = fmag b) : a = b := by
  apply BitVec.eq_of_toNat_eq
  rw [toNat_eq, toNat_eq b, hs, hm]

theorem ofSignMag_self (a : Word) : ofSignMag (fsign a) (fmag a) = a :=
  word_ext (by simp) (fmag_ofSignMag _ (fmag_lt a))

theorem signMask_bits {i : Nat} (h : i < 64) : (0x8000000000000000#64).getLsbD i = decide (i = 63) := by
  interval_cases i <;> decide

theorem magMask_bits {i : Nat} (h : i < 64) : (0x7FFFFFFFFFFFFFFF#64).getLsbD i = decide (i ≠ 63) := by
  interval_cases i <;> decide

/-- Words with the same bits below the sign have the same magnitude. -/
theorem fmag_congr {a b : Word} (h : ∀ i < 63, a.getLsbD i = b.getLsbD i) : fmag a = fmag b := by
  have e : ∀ c : Word, fmag c = (c.extractLsb' 0 63).toNat := by
    intro c
    simp [fmag, BitVec.extractLsb'_toNat]
  rw [e, e]
  congr 1
  ext i hi
  simpa [BitVec.getElem_extractLsb'] using h i hi

@[simp] theorem fsign_flipSign (a : Word) : fsign (flipSign a) = !fsign a := by
  simp [fsign, flipSign, BitVec.msb_eq_getLsbD_last]

@[simp] theorem fmag_flipSign (a : Word) : fmag (flipSign a) = fmag a :=
  fmag_congr fun i hi => by
    rw [flipSign, BitVec.getLsbD_xor, signMask_bits (by omega), decide_eq_false (by omega), Bool.xor_false]

@[simp] theorem fsign_clearSign (a : Word) : fsign (clearSign a) = false := by
  simp [fsign, clearSign, BitVec.msb_eq_getLsbD_last]

@[simp] theorem fmag_clearSign (a : Word) : fmag (clearSign a) = fmag a :=
  fmag_congr fun i hi => by
    rw [clearSign, BitVec.getLsbD_and, magMask_bits (by omega), decide_eq_true (by omega), Bool.and_true]

/-! ## Classes -/

theorem isNaN_iff {a : Word} : isNaN a = true ↔ infMag < fmag a := by simp [isNaN]
theorem isInf_iff {a : Word} : isInf a = true ↔ fmag a = infMag := by simp [isInf]
theorem isFinite_iff {a : Word} : isFinite a = true ↔ fmag a < infMag := by simp [isFinite]
theorem isZero_iff {a : Word} : isZero a = true ↔ fmag a = 0 := by simp [isZero]

theorem isFinite_eq (a : Word) : isFinite a = (!isNaN a && !isInf a) := by
  simp only [isFinite, isNaN, isInf]
  rcases lt_trichotomy (fmag a) infMag with h | h | h
  · simp [h, h.ne, h.le]
  · simp [h]
  · simp [h, h.le]

theorem isNaN_of_isFinite {a : Word} (h : isFinite a = true) : isNaN a = false := by
  rw [isFinite_eq] at h
  simp_all

theorem isInf_of_isFinite {a : Word} (h : isFinite a = true) : isInf a = false := by
  rw [isFinite_eq] at h
  simp_all

@[simp] theorem isNaN_flipSign (a : Word) : isNaN (flipSign a) = isNaN a := by simp [isNaN]
@[simp] theorem isInf_flipSign (a : Word) : isInf (flipSign a) = isInf a := by simp [isInf]
@[simp] theorem isFinite_flipSign (a : Word) : isFinite (flipSign a) = isFinite a := by simp [isFinite]

theorem fmag_quietNaN (d : NaNBits) : infMag + 2 ^ 51 ≤ fmag (quietNaN d) := by
  have h : (quietNaN d).toNat = (d.extractLsb' 51 1).toNat * 2 ^ 63 + (2 ^ 63 - 2 ^ 51 + (d.extractLsb' 0 51).toNat) := by
    have h0 := (d.extractLsb' 0 51).isLt
    rw [quietNaN, BitVec.toNat_append, ← Nat.shiftLeft_add_eq_or_of_lt h0, BitVec.toNat_append,
      ← Nat.shiftLeft_add_eq_or_of_lt (by decide), BitVec.toNat_append, ← Nat.shiftLeft_add_eq_or_of_lt (by decide)]
    simp only [Nat.shiftLeft_eq]
    have e1 : (0x7FF#11).toNat = 2047 := by decide
    have e2 : (1#1).toNat = 1 := by decide
    rw [e1, e2]
    omega
  have h0 := (d.extractLsb' 0 51).isLt
  have h1 := (d.extractLsb' 51 1).isLt
  rw [fmag, h, infMag]
  omega

/-- A drawn NaN is a NaN (R12). -/
@[simp] theorem isNaN_quietNaN (d : NaNBits) : isNaN (quietNaN d) = true := by
  have := fmag_quietNaN d
  rw [isNaN_iff]
  omega

@[simp] theorem isNaN_drawnNaN (d : NaNBits) (a : Word) : isNaN (drawnNaN d a) = isNaN a := by
  unfold drawnNaN
  split <;> simp_all

theorem isNaN_ofSignMag {s : Bool} {m : Nat} (h : m ≤ infMag) : isNaN (ofSignMag s m) = false := by
  have := infMag_lt
  rw [isNaN, fmag_ofSignMag s (by omega)]
  simpa using h

/-! ## Units -/

theorem magUnits_form {k m : Nat} (h1 : m < 2 ^ 53) (h2 : k = 0 ∨ 2 ^ 52 ≤ m) :
    magUnits (k * 2 ^ 52 + m) = m * 2 ^ k := by
  unfold magUnits
  by_cases hm : m < 2 ^ 52
  · obtain rfl : k = 0 := by omega
    rw [if_pos (by omega), Nat.pow_zero, Nat.mul_one]
    omega
  · have e1 : (k * 2 ^ 52 + m) / 2 ^ 52 = k + 1 := by omega
    have e2 : (k * 2 ^ 52 + m) % 2 ^ 52 = m - 2 ^ 52 := by omega
    rw [e1, e2, if_neg (by omega), Nat.add_sub_cancel, show 2 ^ 52 + (m - 2 ^ 52) = m by omega]

/-- Every magnitude is a significand of at most 53 bits, scaled. -/
theorem magUnits_decompose (c : Nat) :
    ∃ k m, c = k * 2 ^ 52 + m ∧ m < 2 ^ 53 ∧ (k = 0 ∨ 2 ^ 52 ≤ m) ∧ magUnits c = m * 2 ^ k := by
  have h : ∃ k m, c = k * 2 ^ 52 + m ∧ m < 2 ^ 53 ∧ (k = 0 ∨ 2 ^ 52 ≤ m) := by
    by_cases hc : c / 2 ^ 52 = 0
    · exact ⟨0, c, by omega, by omega, .inl rfl⟩
    · exact ⟨c / 2 ^ 52 - 1, 2 ^ 52 + c % 2 ^ 52, by omega, by omega, .inr (by omega)⟩
  obtain ⟨k, m, rfl, h1, h2⟩ := h
  exact ⟨k, m, rfl, h1, h2, magUnits_form h1 h2⟩

theorem magUnits_succ (k : Nat) : magUnits ((k + 1) * 2 ^ 52) = 2 ^ 52 * 2 ^ k := by
  rw [show (k + 1) * 2 ^ 52 = k * 2 ^ 52 + 2 ^ 52 by omega]
  exact magUnits_form (by decide) (.inr le_rfl)

theorem magUnits_lt_succ (c : Nat) : magUnits c < magUnits (c + 1) := by
  obtain ⟨k, m, rfl, h1, h2, h3⟩ := magUnits_decompose c
  rw [h3]
  by_cases hm : m + 1 < 2 ^ 53
  · rw [Nat.add_assoc, magUnits_form hm (by omega)]
    exact Nat.mul_lt_mul_of_pos_right (Nat.lt_succ_self m) (by positivity)
  · rw [show k * 2 ^ 52 + m + 1 = ((k + 1) + 1) * 2 ^ 52 by omega, magUnits_succ,
      show (2 : Nat) ^ 52 * 2 ^ (k + 1) = 2 ^ 53 * 2 ^ k by ring]
    exact Nat.mul_lt_mul_of_pos_right h1 (by positivity)

/-- The magnitude orders the values. -/
theorem magUnits_strictMono : StrictMono magUnits := strictMono_nat_of_lt_succ magUnits_lt_succ

@[simp] theorem magUnits_inj {c c' : Nat} : magUnits c = magUnits c' ↔ c = c' := magUnits_strictMono.injective.eq_iff

@[simp] theorem magUnits_zero : magUnits 0 = 0 := by decide

theorem magUnits_eq_zero {c : Nat} : magUnits c = 0 ↔ c = 0 :=
  ⟨fun h => magUnits_inj.1 (h.trans magUnits_zero.symm), fun h => h ▸ magUnits_zero⟩

/-! ## Rounding (R11) -/

/-- `nearestDiv n d` is the integer nearest to n/d; a tie goes to the even one. -/
theorem nearestDiv_nearest (n : Nat) {d : Nat} (hd : 0 < d) (c : Nat) :
    |(nearestDiv n d * d : Int) - n| ≤ |(c * d : Int) - n| ∧
    (|(nearestDiv n d * d : Int) - n| = |(c * d : Int) - n| → c = nearestDiv n d ∨ nearestDiv n d % 2 = 0) := by
  have hn : (n : Int) = (n / d : Nat) * d + (n % d : Nat) := by exact_mod_cast (Nat.div_add_mod' n d).symm
  have hr : n % d < d := Nat.mod_lt _ hd
  have hq : ((n / d + 1 : Nat) : Int) * d = (n / d : Nat) * d + d := by push_cast; ring
  have hc : (c * d : Int) + d ≤ (n / d : Nat) * d ∨ c = n / d ∧ (c * d : Int) = (n / d : Nat) * d ∨
      c = n / d + 1 ∧ (c * d : Int) = (n / d : Nat) * d + d ∨ ((n / d : Nat) : Int) * d + 2 * d ≤ c * d := by
    rcases lt_trichotomy c (n / d) with h | h | h
    · left
      have := Nat.mul_le_mul_right d (show c + 1 ≤ n / d from h)
      rw [Nat.add_mul, Nat.one_mul] at this
      exact_mod_cast this
    · exact .inr (.inl ⟨h, by rw [h]⟩)
    · by_cases h' : c = n / d + 1
      · exact .inr (.inr (.inl ⟨h', by rw [h', hq]⟩))
      · right; right; right
        have := Nat.mul_le_mul_right d (show n / d + 2 ≤ c by omega)
        rw [Nat.add_mul] at this
        exact_mod_cast this
  have h0 : (nearestDiv n d = n / d ∧ (nearestDiv n d * d : Int) = (n / d : Nat) * d) ∧
        2 * (n % d) ≤ d ∧ (2 * (n % d) = d → nearestDiv n d % 2 = 0) ∨
      (nearestDiv n d = n / d + 1 ∧ (nearestDiv n d * d : Int) = (n / d : Nat) * d + d) ∧
        d ≤ 2 * (n % d) ∧ (2 * (n % d) = d → nearestDiv n d % 2 = 0) := by
    unfold nearestDiv
    split_ifs with h1 h2
    · exact .inl ⟨⟨rfl, rfl⟩, h1.le, by omega⟩
    · exact .inr ⟨⟨rfl, hq⟩, h2.le, by omega⟩
    · rcases Nat.mod_two_eq_zero_or_one (n / d) with h | h
      · exact .inl ⟨⟨by omega, by rw [h, Nat.add_zero]⟩, by omega, fun _ => by omega⟩
      · exact .inr ⟨⟨by omega, by rw [h, hq]⟩, by omega, fun _ => by omega⟩
  generalize (nearestDiv n d * d : Int) = y at h0 ⊢
  generalize (c * d : Int) = x at hc ⊢
  generalize ((n / d : Nat) * d : Int) = z at hn hc h0
  clear hq
  rcases h0 with ⟨⟨e, rfl⟩, h1, h2⟩ | ⟨⟨e, rfl⟩, h1, h2⟩ <;>
    rcases hc with h3 | ⟨h3, h4⟩ | ⟨h3, h4⟩ | h3 <;>
    simp only [abs_eq_max_neg] <;> (constructor <;> [omega; skip]) <;> intro h5 <;> omega

/-- The magnitude before overflow is taken into account. -/
def roundMagWide (n d : Nat) : Nat :=
  (Nat.log2 (n / d) - 52) * 2 ^ 52 + nearestDiv n (d * 2 ^ (Nat.log2 (n / d) - 52))

theorem roundMag_eq (n d : Nat) : roundMag n d = min (roundMagWide n d) infMag := rfl

theorem nearestDiv_le {n d b : Nat} (hd : 0 < d) (h : n ≤ b * d) : nearestDiv n d ≤ b := by
  by_contra hb
  have h1 := (nearestDiv_nearest n hd b).1
  have h2 : ((b + 1 : Nat) * d : Int) ≤ nearestDiv n d * d := by
    exact_mod_cast Nat.mul_le_mul_right d (by omega)
  have h3 : (n : Int) ≤ b * d := by exact_mod_cast h
  push_cast at h2
  rw [abs_of_nonneg (by nlinarith), abs_of_nonneg (by omega)] at h1
  nlinarith

theorem le_nearestDiv {n d b : Nat} (hd : 0 < d) (h : b * d ≤ n) : b ≤ nearestDiv n d := by
  by_contra hb
  have h1 := (nearestDiv_nearest n hd b).1
  have h2 : ((nearestDiv n d + 1 : Nat) * d : Int) ≤ b * d := by
    exact_mod_cast Nat.mul_le_mul_right d (by omega)
  have h3 : (b * d : Int) ≤ n := by exact_mod_cast h
  push_cast at h2
  rw [abs_of_nonpos (by nlinarith), abs_of_nonpos (by omega)] at h1
  nlinarith

/-- The significand and scale `roundMag` works with. -/
theorem roundMagWide_form (n : Nat) {d : Nat} (hd : 0 < d) :
    ∃ k m, roundMagWide n d = k * 2 ^ 52 + m ∧ m = nearestDiv n (d * 2 ^ k) ∧
      magUnits (roundMagWide n d) = m * 2 ^ k ∧ (k = 0 ∨ 2 ^ 52 * (d * 2 ^ k) ≤ n) := by
  set k := Nat.log2 (n / d) - 52 with hk
  have hD : 0 < d * 2 ^ k := by positivity
  have hlo : k = 0 ∨ 2 ^ 52 * (d * 2 ^ k) ≤ n := by
    rcases Nat.eq_zero_or_pos k with h | h
    · exact .inl h
    · right
      have hq : n / d ≠ 0 := by
        intro h0
        rw [hk, h0] at h
        simp at h
      have h1 : 2 ^ (n / d).log2 ≤ n / d := Nat.log2_self_le hq
      rw [show (n / d).log2 = 52 + k by omega, Nat.pow_add] at h1
      calc 2 ^ 52 * (d * 2 ^ k) = 2 ^ 52 * 2 ^ k * d := by ring
        _ ≤ n / d * d := Nat.mul_le_mul_right _ h1
        _ ≤ n := Nat.div_mul_le_self n d
  have hhi : n ≤ 2 ^ 53 * (d * 2 ^ k) := by
    have h1 : n / d < 2 ^ ((n / d).log2 + 1) := Nat.lt_log2_self
    have h2 : n / d < 2 ^ (53 + k) := h1.trans_le (Nat.pow_le_pow_right (by decide) (by omega))
    have h3 : n < d * 2 ^ (53 + k) := by
      rw [Nat.mul_comm]
      exact (Nat.div_lt_iff_lt_mul hd).1 h2
    calc n ≤ d * 2 ^ (53 + k) := h3.le
      _ = 2 ^ 53 * (d * 2 ^ k) := by rw [Nat.pow_add]; ring
  refine ⟨k, nearestDiv n (d * 2 ^ k), rfl, rfl, ?_, hlo⟩
  have hm1 : nearestDiv n (d * 2 ^ k) ≤ 2 ^ 53 := nearestDiv_le hD hhi
  have hm2 : k = 0 ∨ 2 ^ 52 ≤ nearestDiv n (d * 2 ^ k) := hlo.imp_right (le_nearestDiv hD)
  change magUnits (k * 2 ^ 52 + nearestDiv n (d * 2 ^ k)) = _
  rcases hm1.lt_or_eq with h | h
  · exact magUnits_form h hm2
  · rw [h, show k * 2 ^ 52 + 2 ^ 53 = ((k + 1) + 1) * 2 ^ 52 by omega, magUnits_succ]
    ring

/-- Correct rounding without overflow: no magnitude is nearer to n/d units, and on a tie the even one is taken. -/
theorem roundMagWide_nearest (n : Nat) {d : Nat} (hd : 0 < d) (c : Nat) :
    |(magUnits (roundMagWide n d) * d : Int) - n| ≤ |(magUnits c * d : Int) - n| ∧
    (|(magUnits (roundMagWide n d) * d : Int) - n| = |(magUnits c * d : Int) - n| →
      c = roundMagWide n d ∨ roundMagWide n d % 2 = 0) := by
  obtain ⟨k, m, hR, hm, hu, hlo⟩ := roundMagWide_form n hd
  have hD : 0 < d * 2 ^ k := by positivity
  have eR : (magUnits (roundMagWide n d) * d : Int) = m * (d * 2 ^ k : Nat) := by
    rw [hu]
    push_cast
    ring
  obtain ⟨j, p, hc, hp1, hp2, hcu⟩ := magUnits_decompose c
  by_cases hj : k ≤ j
  · -- c is a multiple of 2^k units
    have eC : (magUnits c * d : Int) = (p * 2 ^ (j - k) : Nat) * (d * 2 ^ k : Nat) := by
      rw [hcu]
      have : (2 : Int) ^ j = 2 ^ (j - k) * 2 ^ k := by rw [← pow_add, Nat.sub_add_cancel hj]
      push_cast
      rw [this]
      ring
    have h := nearestDiv_nearest n hD (p * 2 ^ (j - k))
    rw [← hm] at h
    rw [eR, eC]
    refine ⟨h.1, fun ht => ?_⟩
    rcases h.2 ht with h | h
    · left
      rw [← magUnits_inj, hu, hcu, ← h, Nat.mul_assoc, ← Nat.pow_add, Nat.sub_add_cancel hj]
    · right
      omega
  · -- c is below 2^52 · 2^k units, a magnitude that is no further from n/d
    have hk : 2 ^ 52 * (d * 2 ^ k) ≤ n := hlo.resolve_left (by omega)
    have hlt : magUnits c * d < 2 ^ 52 * (d * 2 ^ k) := by
      have h1 : magUnits c < magUnits ((k + 1) * 2 ^ 52) := by
        apply magUnits_strictMono
        have := Nat.mul_le_mul_right (2 ^ 52) (show j + 1 ≤ k by omega)
        omega
      rw [magUnits_succ] at h1
      calc magUnits c * d < 2 ^ 52 * 2 ^ k * d := Nat.mul_lt_mul_of_pos_right h1 hd
        _ = 2 ^ 52 * (d * 2 ^ k) := by ring
    have h := (nearestDiv_nearest n hD (2 ^ 52)).1
    rw [← hm] at h
    rw [eR]
    have h1 : (magUnits c * d : Int) < (2 ^ 52 : Nat) * (d * 2 ^ k : Nat) := by exact_mod_cast hlt
    have h2 : ((2 ^ 52 : Nat) : Int) * (d * 2 ^ k : Nat) ≤ n := by exact_mod_cast hk
    rw [abs_of_nonpos (a := ((2 ^ 52 : Nat) : Int) * (d * 2 ^ k : Nat) - n) (by omega)] at h
    have h3 : |(magUnits c * d : Int) - n| = n - magUnits c * d := by
      rw [abs_of_nonpos (by omega)]
      ring
    rw [h3]
    constructor
    · omega
    · intro h4
      omega

/-- A value no larger than a magnitude's rounds to no more than it. -/
theorem roundMagWide_le {n d m : Nat} (hd : 0 < d) (h : n ≤ magUnits m * d) : roundMagWide n d ≤ m := by
  by_contra hm
  have h1 := (roundMagWide_nearest n hd m).1
  have h2 : magUnits m < magUnits (roundMagWide n d) := magUnits_strictMono (by omega)
  have h3 : ((magUnits m + 1 : Nat) * d : Int) ≤ magUnits (roundMagWide n d) * d := by
    exact_mod_cast Nat.mul_le_mul_right d (by omega)
  have h4 : (n : Int) ≤ magUnits m * d := by exact_mod_cast h
  push_cast at h3
  have hd' : (0 : Int) < d := by exact_mod_cast hd
  rw [add_mul, one_mul] at h3
  rw [abs_of_nonneg (by omega), abs_of_nonneg (by omega)] at h1
  omega

/-- A value no smaller than a magnitude's rounds to no less than it. -/
theorem le_roundMagWide {n d m : Nat} (hd : 0 < d) (h : magUnits m * d ≤ n) : m ≤ roundMagWide n d := by
  by_contra hm
  have h1 := (roundMagWide_nearest n hd m).1
  have h2 : magUnits (roundMagWide n d) < magUnits m := magUnits_strictMono (by omega)
  have h3 : ((magUnits (roundMagWide n d) + 1 : Nat) * d : Int) ≤ magUnits m * d := by
    exact_mod_cast Nat.mul_le_mul_right d (by omega)
  have h4 : (magUnits m * d : Int) ≤ n := by exact_mod_cast h
  push_cast at h3
  have hd' : (0 : Int) < d := by exact_mod_cast hd
  rw [add_mul, one_mul] at h3
  rw [abs_of_nonpos (by omega), abs_of_nonpos (by omega)] at h1
  omega

theorem roundMag_le_infMag (n d : Nat) : roundMag n d ≤ infMag := Nat.min_le_right _ _

theorem roundMag_le {n d m : Nat} (hd : 0 < d) (h : n ≤ magUnits m * d) : roundMag n d ≤ m :=
  (Nat.min_le_left _ _).trans (roundMagWide_le hd h)

theorem le_roundMag {n d m : Nat} (hd : 0 < d) (hm : m ≤ infMag) (h : magUnits m * d ≤ n) : m ≤ roundMag n d :=
  Nat.le_min.2 ⟨le_roundMagWide hd h, hm⟩

/-- A representable value is rounded to itself. -/
theorem roundMag_exact {n d m : Nat} (hd : 0 < d) (hm : m ≤ infMag) (h : n = magUnits m * d) : roundMag n d = m :=
  le_antisymm (roundMag_le hd h.le) (le_roundMag hd hm h.ge)

/-- A significand of at most 53 bits times a power of two, below the overflow range, is rounded to itself. -/
theorem magUnits_roundMag_scaled {m k : Nat} (hm : m < 2 ^ 53) (hlt : m * 2 ^ k < magUnits infMag) :
    magUnits (roundMag (m * 2 ^ k) 1) = m * 2 ^ k := by
  have key : ∃ c, magUnits c = m * 2 ^ k := by
    clear hlt
    induction k generalizing m with
    | zero => exact ⟨m, by simpa using magUnits_form (k := 0) hm (.inl rfl)⟩
    | succ k ih =>
      by_cases h : m < 2 ^ 52
      · obtain ⟨c, hc⟩ := ih (m := 2 * m) (by omega)
        exact ⟨c, by rw [hc]; ring⟩
      · exact ⟨(k + 1) * 2 ^ 52 + m, magUnits_form hm (.inr (by omega))⟩
  obtain ⟨c, hc⟩ := key
  have hcl : c < infMag := by
    rw [← hc] at hlt
    exact magUnits_strictMono.lt_iff_lt.1 hlt
  rw [← hc, roundMag_exact (by decide) hcl.le (by rw [Nat.mul_one])]

theorem roundMag_zero (d : Nat) : roundMag 0 d = 0 := by
  simp [roundMag, nearestDiv]

/-- When rounding overflows: exactly from the midpoint of the largest finite value and 2^1024 on (R11). -/
theorem roundMagWide_lt_infMag (n : Nat) {d : Nat} (hd : 0 < d) :
    roundMagWide n d < infMag ↔ 2 * n < (magUnits (infMag - 1) + magUnits infMag) * d := by
  have hodd : (infMag - 1) % 2 = 1 := by decide
  have hpos : 0 < infMag := by decide
  generalize hR : roundMagWide n d = R
  have near := roundMagWide_nearest n hd
  rw [hR] at near
  have mono : ∀ {x y : Nat}, x ≤ y → magUnits x * d ≤ magUnits y * d := fun h =>
    Nat.mul_le_mul_right d (magUnits_strictMono.le_iff_le.2 h)
  constructor
  · intro h
    have h1 := near infMag
    have h2 := mono (show R ≤ infMag - 1 by omega)
    have h3 := mono (show infMag - 1 ≤ infMag by omega)
    by_contra hn
    have e : (magUnits (infMag - 1) + magUnits infMag) * d = magUnits (infMag - 1) * d + magUnits infMag * d := by ring
    rw [e] at hn
    zify at h1 h2 h3 hn
    have h5 : |(magUnits R * d : Int) - n| = n - magUnits R * d := by
      rw [abs_of_nonpos (by omega)]
      ring
    rw [h5] at h1
    have h6 : |(magUnits infMag * d : Int) - n| ≤ n - magUnits R * d := by
      rw [abs_le]
      constructor <;> omega
    have h7 := h1.2 (le_antisymm h1.1 h6)
    have h8 : R ≠ infMag - 1 ∨ R = infMag - 1 := by omega
    rcases h7 with h7 | h7
    · omega
    · have h9 : magUnits R < magUnits (infMag - 1) := magUnits_strictMono (by omega)
      have h10 := Nat.mul_lt_mul_of_pos_right h9 hd
      zify at h10
      have h11 : |(magUnits infMag * d : Int) - n| < n - magUnits R * d := by
        rw [abs_lt]
        constructor <;> omega
      exact absurd h11 (not_lt.2 h1.1)
  · intro h
    by_contra hn
    have h1 := (near (infMag - 1)).1
    have h2 := mono (show infMag ≤ R by omega)
    have h3 := Nat.mul_lt_mul_of_pos_right (magUnits_strictMono (show infMag - 1 < infMag by omega)) hd
    have e : (magUnits (infMag - 1) + magUnits infMag) * d = magUnits (infMag - 1) * d + magUnits infMag * d := by ring
    rw [e] at h
    zify at h1 h2 h3 h
    rw [abs_of_nonneg (by omega)] at h1
    rcases abs_cases ((magUnits (infMag - 1) * d : Int) - n) with ⟨h4, _⟩ | ⟨h4, _⟩ <;> omega

/-! ## NaN results (R12) -/

theorem isNaN_roundUnits (x : Int) (z : Bool) : isNaN (roundUnits x z) = false := by
  unfold roundUnits
  split
  · exact isNaN_ofSignMag (by decide)
  · exact isNaN_ofSignMag (roundMag_le_infMag _ _)

/-- When fadd gives a NaN. -/
theorem isNaN_fadd (d : NaNBits) (a b : Word) :
    isNaN (fadd d a b) = (isNaN a || isNaN b || (isInf a && isInf b && fsign a != fsign b)) := by
  unfold fadd
  split_ifs with h1 h2 h3 h4 <;> simp_all [isNaN_roundUnits]

theorem isNaN_fsub (d : NaNBits) (a b : Word) :
    isNaN (fsub d a b) = (isNaN a || isNaN b || (isInf a && isInf b && fsign a == fsign b)) := by
  rw [fsub, isNaN_fadd]
  simp only [isNaN_flipSign, isInf_flipSign, fsign_flipSign]
  cases fsign a <;> cases fsign b <;> rfl

/-- When fmul gives a NaN. -/
theorem isNaN_fmul (d : NaNBits) (a b : Word) :
    isNaN (fmul d a b) = (isNaN a || isNaN b || ((isInf a || isInf b) && (isZero a || isZero b))) := by
  unfold fmul
  split_ifs with h1 h2 h3 <;> simp_all [isNaN_ofSignMag, roundMag_le_infMag]

/-- When fdiv gives a NaN. -/
theorem isNaN_fdiv (d : NaNBits) (a b : Word) :
    isNaN (fdiv d a b) = (isNaN a || isNaN b || (isInf a && isInf b) || (isZero a && isZero b)) := by
  have hz : ∀ c : Word, isZero c = true → isInf c = false := by
    intro c hc
    rw [isZero_iff] at hc
    simp [isInf, hc, infMag]
  unfold fdiv
  split_ifs with h1 h2 h3 h4 h5 h6 <;>
    simp_all [isNaN_ofSignMag, roundMag_le_infMag]
  all_goals
    have h7 := hz a
    have h8 := hz b
    revert h7 h8
    cases isZero a <;> cases isZero b <;> simp_all

@[simp] theorem isNaN_fneg (d : NaNBits) (a : Word) : isNaN (fneg d a) = isNaN a := by simp [fneg]

theorem isNaN_clearSign (a : Word) : isNaN (clearSign a) = isNaN a := by simp [isNaN]

@[simp] theorem isNaN_fabs (d : NaNBits) (a : Word) : isNaN (fabs d a) = isNaN a := by simp [fabs, isNaN_clearSign]

/-! ## Rounding is monotone (R11) -/

theorem roundMagWide_mono {n n' d : Nat} (hd : 0 < d) (h : n ≤ n') : roundMagWide n d ≤ roundMagWide n' d := by
  by_contra hc
  have h1 := (roundMagWide_nearest n hd (roundMagWide n' d)).1
  have h2 := roundMagWide_nearest n' hd (roundMagWide n d)
  have lo : magUnits (roundMagWide n' d) * d < n := by
    by_contra hl
    exact hc (roundMagWide_le hd (by omega))
  have hi : n' < magUnits (roundMagWide n d) * d := by
    by_contra hl
    exact hc (le_roundMagWide hd (by omega))
  have key : ∀ A B : Nat, B < n → n' < A → |(A : Int) - n| ≤ |(B : Int) - n| → |(B : Int) - n'| ≤ |(A : Int) - n'| →
      n = n' := by
    intro A B hB hA g1 g2
    rw [abs_of_nonneg (by omega), abs_of_nonpos (by omega)] at g1
    rw [abs_of_nonpos (by omega), abs_of_nonneg (by omega)] at g2
    omega
  have e : n = n' := key _ _ lo hi (by push_cast; exact h1) (by push_cast; exact h2.1)
  exact hc (by rw [e])

theorem roundMag_mono {n n' d : Nat} (hd : 0 < d) (h : n ≤ n') : roundMag n d ≤ roundMag n' d := by
  have := roundMagWide_mono hd h
  rw [roundMag_eq, roundMag_eq]
  omega

@[simp] theorem fsign_i2f (i : Nat) : fsign (i2f i) = false := fsign_ofSignMag _ _

theorem fmag_i2f (i : Nat) : fmag (i2f i) = roundMag (i * unitScale) 1 :=
  fmag_ofSignMag _ (lt_of_le_of_lt (roundMag_le_infMag _ _) infMag_lt)

theorem fmag_i2f_mono {i j : Nat} (h : i ≤ j) : fmag (i2f i) ≤ fmag (i2f j) := by
  rw [fmag_i2f, fmag_i2f]
  exact roundMag_mono Nat.one_pos (Nat.mul_le_mul_right _ h)

theorem isFinite_i2f {i : Nat} (h : i ≤ 2 ^ 53) : isFinite (i2f i) = true := by
  rw [isFinite_iff, fmag_i2f]
  refine lt_of_le_of_lt (roundMag_le (m := (1075 + 1) * 2 ^ 52) Nat.one_pos ?_) (by decide)
  rw [magUnits_succ, mul_one, unitScale, show 2 ^ 52 * 2 ^ 1075 = 2 ^ 53 * 2 ^ 1074 by rw [← pow_add, ← pow_add]]
  exact Nat.mul_le_mul_right _ h

/-- fmul of finite operands by the rounding operation. -/
theorem fmul_of_finite (d : NaNBits) {a b : Word} (ha : isFinite a = true) (hb : isFinite b = true) :
    fmul d a b = ofSignMag (fsign a != fsign b) (roundMag (magUnits (fmag a) * magUnits (fmag b)) unitScale) := by
  rw [fmul, isNaN_of_isFinite ha, isNaN_of_isFinite hb, isInf_of_isFinite ha, isInf_of_isFinite hb,
    if_neg (by decide), if_neg (by decide)]

/-- fmul is monotone in the magnitude of a finite operand. -/
theorem fmag_fmul_mono (d d' : NaNBits) {a a' b : Word} (ha : isFinite a = true) (ha' : isFinite a' = true)
    (hb : isFinite b = true) (h : fmag a ≤ fmag a') : fmag (fmul d a b) ≤ fmag (fmul d' a' b) := by
  have hlt : ∀ n, roundMag n unitScale < 2 ^ 63 := fun n => lt_of_le_of_lt (roundMag_le_infMag _ _) infMag_lt
  rw [fmul_of_finite d ha hb, fmul_of_finite d' ha' hb, fmag_ofSignMag _ (hlt _), fmag_ofSignMag _ (hlt _)]
  exact roundMag_mono (by unfold unitScale; positivity)
    (Nat.mul_le_mul_right _ (magUnits_strictMono.monotone h))

/-! ## The order of words (R13) -/

/-- `fkey` orders words as their units do. -/
theorem units_lt_iff {a b : Word} : units a < units b ↔ fkey a < fkey b := by
  have h1 := @StrictMono.lt_iff_lt _ _ _ _ _ magUnits_strictMono (fmag a) (fmag b)
  have h2 := @StrictMono.lt_iff_lt _ _ _ _ _ magUnits_strictMono (fmag b) (fmag a)
  have z1 := @magUnits_eq_zero (fmag a)
  have z2 := @magUnits_eq_zero (fmag b)
  unfold units fkey
  split_ifs <;> omega

theorem units_eq_iff {a b : Word} : units a = units b ↔ fkey a = fkey b := by
  have h1 := @units_lt_iff a b
  have h2 := @units_lt_iff b a
  omega

end Sys2Proof.Machine
end

