-- ==== Sys2Proof/Laws/State.lean ====
section
/-! SUPPORT. One lemma per field per update of State, Regs and Status, each true by rfl, so that no proof unfolds a record
update; register reads after register writes. -/

namespace Sys2Proof.Machine

/-! ## Registers -/

@[simp] theorem Regs.get_set (g : Regs) (r r' : Reg) (v : Word) :
    (g.set r v).get r' = if r' = r then v else g.get r' := by
  cases r <;> cases r' <;> rfl

theorem Regs.ext_get {g h : Regs} (e : ∀ r, g.get r = h.get r) : g = h := by
  obtain ⟨⟩ := g
  obtain ⟨⟩ := h
  simp only [Regs.mk.injEq]
  exact ⟨e .fundHz, e .fs, e .dur, e .ampl, e .phase0, e .fc, e .q, e .npoints, e .xLen, e .yLen, e .respLen,
    e .b0, e .b1, e .b2, e .a0, e .a1, e .a2⟩

@[simp] theorem Regs.set_xLen (g : Regs) (v : Word) : g.set .xLen v = { g with xLen := v } := rfl
@[simp] theorem Regs.set_yLen (g : Regs) (v : Word) : g.set .yLen v = { g with yLen := v } := rfl
@[simp] theorem Regs.set_respLen (g : Regs) (v : Word) : g.set .respLen v = { g with respLen := v } := rfl

/-! ## State.setReg -/

@[simp] theorem State.setReg_regs (s : State) (r : Reg) (v : Word) : (s.setReg r v).regs = s.regs.set r v := rfl
@[simp] theorem State.setReg_status (s : State) (r : Reg) (v : Word) : (s.setReg r v).status = s.status := rfl
@[simp] theorem State.setReg_pend (s : State) (r : Reg) (v : Word) : (s.setReg r v).pend = s.pend := rfl
@[simp] theorem State.setReg_mem (s : State) (r : Reg) (v : Word) : (s.setReg r v).mem = s.mem := rfl
@[simp] theorem State.setReg_inputs (s : State) (r : Reg) (v : Word) : (s.setReg r v).inputs = s.inputs := rfl
@[simp] theorem State.setReg_rdata (s : State) (r : Reg) (v : Word) : (s.setReg r v).rdata = s.rdata := rfl
@[simp] theorem State.setReg_draws (s : State) (r : Reg) (v : Word) : (s.setReg r v).draws = s.draws := rfl
@[simp] theorem State.setReg_elem (s : State) (r : Reg) (v : Word) (b : Buf) (i : Nat) :
    (s.setReg r v).elem b i = s.elem b i := rfl

/-! ## State.setElems -/

@[simp] theorem State.setElems_regs (s : State) (b : Buf) (i : Nat) (ws : List Word) :
    (s.setElems b i ws).regs = s.regs := rfl
@[simp] theorem State.setElems_status (s : State) (b : Buf) (i : Nat) (ws : List Word) :
    (s.setElems b i ws).status = s.status := rfl
@[simp] theorem State.setElems_pend (s : State) (b : Buf) (i : Nat) (ws : List Word) :
    (s.setElems b i ws).pend = s.pend := rfl
@[simp] theorem State.setElems_inputs (s : State) (b : Buf) (i : Nat) (ws : List Word) :
    (s.setElems b i ws).inputs = s.inputs := rfl
@[simp] theorem State.setElems_rdata (s : State) (b : Buf) (i : Nat) (ws : List Word) :
    (s.setElems b i ws).rdata = s.rdata := rfl
@[simp] theorem State.setElems_draws (s : State) (b : Buf) (i : Nat) (ws : List Word) :
    (s.setElems b i ws).draws = s.draws := rfl
@[simp] theorem State.setElems_mem (s : State) (b : Buf) (i : Nat) (ws : List Word) :
    (s.setElems b i ws).mem = s.mem.write (b.addr i) (bytesOfWords ws) := rfl

/-! ## State.finish, State.accept, State.dropWrite, State.writeStatus, State.afterReset -/

@[simp] theorem State.finish_regs (s : State) (c : Cause) : (s.finish c).regs = s.regs := rfl
@[simp] theorem State.finish_status (s : State) (c : Cause) : (s.finish c).status = s.status.complete c := rfl
@[simp] theorem State.finish_pend (s : State) (c : Cause) : (s.finish c).pend = s.pend := rfl
@[simp] theorem State.finish_mem (s : State) (c : Cause) : (s.finish c).mem = s.mem := rfl
@[simp] theorem State.finish_inputs (s : State) (c : Cause) : (s.finish c).inputs = s.inputs := rfl
@[simp] theorem State.finish_rdata (s : State) (c : Cause) : (s.finish c).rdata = s.rdata := rfl
@[simp] theorem State.finish_draws (s : State) (c : Cause) : (s.finish c).draws = s.draws + 1 := rfl
@[simp] theorem State.finish_elem (s : State) (c : Cause) (b : Buf) (i : Nat) :
    (s.finish c).elem b i = s.elem b i := rfl

@[simp] theorem State.accept_regs (s : State) (w : Word) : (s.accept w).regs = s.regs := rfl
@[simp] theorem State.accept_status (s : State) (w : Word) : (s.accept w).status = s.status.accept w := rfl
@[simp] theorem State.accept_pend (s : State) (w : Word) : (s.accept w).pend = w := rfl
@[simp] theorem State.accept_mem (s : State) (w : Word) : (s.accept w).mem = s.mem := rfl
@[simp] theorem State.accept_inputs (s : State) (w : Word) : (s.accept w).inputs = s.inputs := rfl
@[simp] theorem State.accept_rdata (s : State) (w : Word) : (s.accept w).rdata = s.rdata := rfl
@[simp] theorem State.accept_draws (s : State) (w : Word) : (s.accept w).draws = s.draws := rfl

@[simp] theorem State.dropWrite_regs (s : State) : s.dropWrite.regs = s.regs := rfl
@[simp] theorem State.dropWrite_status (s : State) : s.dropWrite.status = s.status.dropWrite := rfl
@[simp] theorem State.dropWrite_pend (s : State) : s.dropWrite.pend = s.pend := rfl
@[simp] theorem State.dropWrite_mem (s : State) : s.dropWrite.mem = s.mem := rfl
@[simp] theorem State.dropWrite_inputs (s : State) : s.dropWrite.inputs = s.inputs := rfl

@[simp] theorem State.writeStatus_regs (s : State) (v : Word) : (s.writeStatus v).regs = s.regs := rfl
@[simp] theorem State.writeStatus_status (s : State) (v : Word) : (s.writeStatus v).status = s.status.clear v := rfl
@[simp] theorem State.writeStatus_pend (s : State) (v : Word) : (s.writeStatus v).pend = s.pend := rfl
@[simp] theorem State.writeStatus_mem (s : State) (v : Word) : (s.writeStatus v).mem = s.mem := rfl
@[simp] theorem State.writeStatus_inputs (s : State) (v : Word) : (s.writeStatus v).inputs = s.inputs := rfl

@[simp] theorem State.afterReset_regs (s : State) : s.afterReset.regs = Regs.reset := rfl
@[simp] theorem State.afterReset_status (s : State) : s.afterReset.status = Status.reset := rfl
@[simp] theorem State.afterReset_pend (s : State) : s.afterReset.pend = 0#64 := rfl
@[simp] theorem State.afterReset_mem (s : State) : s.afterReset.mem = s.mem.afterReset := rfl
@[simp] theorem State.afterReset_inputs (s : State) : s.afterReset.inputs = s.inputs := rfl
@[simp] theorem State.afterReset_rdata (s : State) : s.afterReset.rdata = s.rdata := rfl
@[simp] theorem State.afterReset_draws (s : State) : s.afterReset.draws = s.draws := rfl

@[simp] theorem State.hostRead_regs (s : State) (off : Nat) : (s.hostRead off).regs = s.regs := rfl
@[simp] theorem State.hostRead_status (s : State) (off : Nat) : (s.hostRead off).status = s.status := rfl
@[simp] theorem State.hostRead_pend (s : State) (off : Nat) : (s.hostRead off).pend = s.pend := rfl
@[simp] theorem State.hostRead_mem (s : State) (off : Nat) : (s.hostRead off).mem = s.mem := rfl
@[simp] theorem State.hostRead_inputs (s : State) (off : Nat) : (s.hostRead off).inputs = s.inputs := rfl
@[simp] theorem State.hostRead_rdata (s : State) (off : Nat) :
    (s.hostRead off).rdata = some (s.readValue (locate off)) := rfl

/-! ## Status -/

@[simp] theorem Status.complete_busy (t : Status) (c : Cause) : (t.complete c).busy = false := rfl
@[simp] theorem Status.complete_done (t : Status) (c : Cause) : (t.complete c).done = true := rfl
@[simp] theorem Status.complete_err (t : Status) (c : Cause) : (t.complete c).err = (c != .none) := rfl
@[simp] theorem Status.complete_cause (t : Status) (c : Cause) : (t.complete c).cause = c := rfl
@[simp] theorem Status.complete_ovr (t : Status) (c : Cause) : (t.complete c).ovr = t.ovr := rfl
@[simp] theorem Status.complete_lastOp (t : Status) (c : Cause) : (t.complete c).lastOp = t.lastOp := rfl
@[simp] theorem Status.complete_lastKind (t : Status) (c : Cause) : (t.complete c).lastKind = t.lastKind := rfl

@[simp] theorem Status.accept_busy (t : Status) (w : Word) : (t.accept w).busy = true := rfl
@[simp] theorem Status.accept_done (t : Status) (w : Word) : (t.accept w).done = false := rfl
@[simp] theorem Status.accept_err (t : Status) (w : Word) : (t.accept w).err = false := rfl
@[simp] theorem Status.accept_cause (t : Status) (w : Word) : (t.accept w).cause = .none := rfl
@[simp] theorem Status.accept_ovr (t : Status) (w : Word) : (t.accept w).ovr = t.ovr := rfl
@[simp] theorem Status.accept_lastOp (t : Status) (w : Word) : (t.accept w).lastOp = w.extractLsb' 0 4 := rfl
@[simp] theorem Status.accept_lastKind (t : Status) (w : Word) : (t.accept w).lastKind = w.extractLsb' 4 2 := rfl

@[simp] theorem Status.clear_busy (t : Status) (v : Word) : (t.clear v).busy = t.busy := rfl
@[simp] theorem Status.clear_done (t : Status) (v : Word) : (t.clear v).done = (t.done && !v.getLsbD 1) := rfl
@[simp] theorem Status.clear_err (t : Status) (v : Word) : (t.clear v).err = (t.err && !v.getLsbD 2) := rfl
@[simp] theorem Status.clear_cause (t : Status) (v : Word) :
    (t.clear v).cause = if v.getLsbD 2 then .none else t.cause := rfl
@[simp] theorem Status.clear_ovr (t : Status) (v : Word) : (t.clear v).ovr = (t.ovr && !v.getLsbD 3) := rfl
@[simp] theorem Status.clear_lastOp (t : Status) (v : Word) : (t.clear v).lastOp = t.lastOp := rfl
@[simp] theorem Status.clear_lastKind (t : Status) (v : Word) : (t.clear v).lastKind = t.lastKind := rfl

@[simp] theorem Status.dropWrite_busy (t : Status) : t.dropWrite.busy = t.busy := rfl
@[simp] theorem Status.dropWrite_done (t : Status) : t.dropWrite.done = t.done := rfl
@[simp] theorem Status.dropWrite_err (t : Status) : t.dropWrite.err = t.err := rfl
@[simp] theorem Status.dropWrite_ovr (t : Status) : t.dropWrite.ovr = true := rfl
@[simp] theorem Status.dropWrite_cause (t : Status) : t.dropWrite.cause = t.cause := rfl
@[simp] theorem Status.dropWrite_lastOp (t : Status) : t.dropWrite.lastOp = t.lastOp := rfl
@[simp] theorem Status.dropWrite_lastKind (t : Status) : t.dropWrite.lastKind = t.lastKind := rfl

end Sys2Proof.Machine
end

