-- ==== Sys2Proof/Laws/Memory.lean ====
section
/-! SUPPORT. The laws of the buffers: what a write leaves at each byte and word, and that it keeps the canonical form. -/

namespace Sys2Proof.Machine

/-! ## Lists of cells -/

theorem cellsFrom_bounds {a : Nat} {bs : List Byte} {c : Host.Cell} (h : c ∈ cellsFrom a bs) :
    a ≤ c.1 ∧ c.1 < a + bs.length := by
  induction bs generalizing a with
  | nil => simp [cellsFrom] at h
  | cons b bs ih =>
    simp only [cellsFrom, List.mem_cons] at h
    obtain rfl | h := h
    · simp
    · have := ih h
      simp only [List.length_cons]
      omega

theorem cellsFrom_sorted (a : Nat) (bs : List Byte) : (cellsFrom a bs).Pairwise fun c d => c.1 < d.1 := by
  induction bs generalizing a with
  | nil => exact .nil
  | cons b bs ih =>
    refine .cons (fun d hd => ?_) (ih (a + 1))
    have := cellsFrom_bounds hd
    simp only
    omega

theorem find_cellsFrom (a x : Nat) (bs : List Byte) :
    ((cellsFrom a bs).find? fun c => c.1 == x).map Prod.snd = if a ≤ x then bs[x - a]? else none := by
  induction bs generalizing a with
  | nil => simp [cellsFrom]
  | cons b bs ih =>
    by_cases hx : a = x
    · simp [cellsFrom, hx]
    · rw [cellsFrom, List.find?_cons_of_neg (by simpa using hx), ih (a + 1)]
      by_cases hl : a ≤ x
      · rw [if_pos (by omega), if_pos hl, show x - a = x - (a + 1) + 1 by omega, List.getElem?_cons_succ]
      · rw [if_neg (by omega), if_neg hl]

/-! ## Memory.write -/

@[simp] theorem Memory.write_epoch (m : Memory) (a : Nat) (bs : List Byte) : (m.write a bs).epoch = m.epoch := rfl

/-- Every memory operation keeps the canonical form: this is the only one that stores. -/
theorem Memory.write_wf {m : Memory} (h : m.wf) (a : Nat) (bs : List Byte) : (m.write a bs).wf := by
  refine List.pairwise_append.2 ⟨List.pairwise_append.2 ⟨h.filter _, cellsFrom_sorted a bs, ?_⟩, h.filter _, ?_⟩
  · intro c hc d hd
    have hc := (List.mem_filter.1 hc).2
    have := cellsFrom_bounds hd
    simp only [decide_eq_true_eq] at hc
    omega
  · intro c hc d hd
    have hd := (List.mem_filter.1 hd).2
    simp only [decide_eq_true_eq] at hd
    rcases List.mem_append.1 hc with hc | hc
    · have hc := (List.mem_filter.1 hc).2
      simp only [decide_eq_true_eq] at hc
      omega
    · have := cellsFrom_bounds hc
      omega

theorem Memory.afterReset_wf (m : Memory) : m.afterReset.wf := .nil

/-- A write lists no address but those it writes and those listed before. -/
theorem Memory.mem_write {m : Memory} {a : Nat} {bs : List Byte} {c : Host.Cell} (h : c ∈ (m.write a bs).cells) :
    c ∈ m.cells ∨ (a ≤ c.1 ∧ c.1 < a + bs.length) := by
  simp only [Memory.write, List.mem_append, List.mem_filter] at h
  rcases h with (h | h) | h
  · exact .inl h.1
  · exact .inr (cellsFrom_bounds h)
  · exact .inl h.1

theorem find_filter_of_imp (cells : List Host.Cell) (p : Host.Cell → Bool) (x : Nat)
    (hp : ∀ c : Host.Cell, c.1 = x → p c = true) :
    (cells.filter p).find? (fun c => c.1 == x) = cells.find? fun c => c.1 == x := by
  rw [List.find?_filter]
  congr 1
  funext c
  by_cases hc : c.1 = x
  · simp [hp c hc, hc]
  · simp [hc]

theorem find_filter_of_not (cells : List Host.Cell) (p : Host.Cell → Bool) (x : Nat)
    (hp : ∀ c : Host.Cell, c.1 = x → p c = false) :
    (cells.filter p).find? (fun c => c.1 == x) = none := by
  rw [List.find?_filter, List.find?_eq_none]
  intro c _
  by_cases hc : c.1 = x
  · simp [hp c hc]
  · simp [hc]

/-- What a write leaves listed at each address. -/
theorem Memory.listed_write (m : Memory) (a : Nat) (bs : List Byte) (x : Nat) :
    (m.write a bs).listed x = if a ≤ x ∧ x < a + bs.length then bs[x - a]? else m.listed x := by
  simp only [Memory.listed, Memory.write, List.find?_append, Option.map_or, find_cellsFrom]
  by_cases h1 : x < a
  · rw [find_filter_of_imp _ _ x (by rintro c rfl; simpa using h1),
      find_filter_of_not _ (fun c => decide (a + bs.length ≤ c.1)) x (by rintro c rfl; simp; omega),
      if_neg (show ¬ a ≤ x by omega), if_neg (by omega)]
    simp
  · rw [find_filter_of_not _ _ x (by rintro c rfl; simpa using h1), if_pos (show a ≤ x by omega)]
    by_cases h2 : x < a + bs.length
    · rw [if_pos (by omega), find_filter_of_not _ _ x (by rintro c rfl; simpa using h2)]
      simp
    · rw [if_neg (by omega), find_filter_of_imp _ _ x (by rintro c rfl; simp; omega),
        List.getElem?_eq_none (by omega)]
      simp

/-- A byte outside the written ones reads as before. -/
theorem Memory.readByte_write_of_outside (m : Memory) {a : Nat} {bs : List Byte} {x : Nat}
    (h : x < a ∨ a + bs.length ≤ x) : (m.write a bs).readByte x = m.readByte x := by
  rw [Memory.readByte, Memory.listed_write, if_neg (by omega), Memory.readByte, Memory.write_epoch]

/-- A written byte reads as written. -/
theorem Memory.readByte_write_of_inside (m : Memory) {a : Nat} {bs : List Byte} {k : Nat} (h : k < bs.length) :
    (m.write a bs).readByte (a + k) = bs[k] := by
  rw [Memory.readByte, Memory.listed_write, if_pos (by omega), Nat.add_sub_cancel_left,
    List.getElem?_eq_getElem h, Option.getD_some]

/-! ## Words -/

theorem wordOfBytes_byteOfWord (w : Word) : wordOfBytes (byteOfWord w) = w := by
  apply BitVec.eq_of_getLsbD_eq
  intro i hi
  have bit : ∀ j, 8 * j ≤ i → i < 8 * j + 8 → (byteOfWord w j).getLsbD (i - 8 * j) = w.getLsbD i := by
    intro j h1 h2
    rw [byteOfWord, BitVec.getLsbD_extractLsb', decide_eq_true (by omega), Bool.true_and,
      show 8 * j + (i - 8 * j) = i by omega]
  simp only [wordOfBytes, BitVec.getLsbD_append, Nat.sub_sub]
  split_ifs
  · exact bit 0 (by omega) (by omega)
  · exact bit 1 (by omega) (by omega)
  · exact bit 2 (by omega) (by omega)
  · exact bit 3 (by omega) (by omega)
  · exact bit 4 (by omega) (by omega)
  · exact bit 5 (by omega) (by omega)
  · exact bit 6 (by omega) (by omega)
  · exact bit 7 (by omega) (by omega)

/-- Byte `j` of an assembled word is the byte it was assembled from (20_memory.md R73). -/
theorem byteOfWord_wordOfBytes (f : Nat → Byte) {j : Nat} (h : j < 8) : byteOfWord (wordOfBytes f) j = f j := by
  apply BitVec.eq_of_getLsbD_eq
  intro i hi
  simp only [byteOfWord, wordOfBytes, BitVec.getLsbD_extractLsb', BitVec.getLsbD_append]
  interval_cases j <;> interval_cases i <;> simp

theorem wordOfBytes_congr {f g : Nat → Byte} (h : ∀ j < 8, f j = g j) : wordOfBytes f = wordOfBytes g := by
  simp [wordOfBytes, h]

@[simp] theorem bytesOfWord_length (w : Word) : (bytesOfWord w).length = 8 := rfl

theorem bytesOfWord_getElem? (w : Word) {j : Nat} (h : j < 8) : (bytesOfWord w)[j]? = some (byteOfWord w j) := by
  match j, h with
  | 0, _ | 1, _ | 2, _ | 3, _ | 4, _ | 5, _ | 6, _ | 7, _ => rfl

@[simp] theorem bytesOfWords_length (ws : List Word) : (bytesOfWords ws).length = 8 * ws.length := by
  induction ws with
  | nil => rfl
  | cons w ws ih =>
    have : bytesOfWords (w :: ws) = bytesOfWord w ++ bytesOfWords ws := rfl
    simp only [this, List.length_append, ih, bytesOfWord_length, List.length_cons]
    omega

/-- Byte `j` of word `i` of a sequence of words. -/
theorem bytesOfWords_getElem? (ws : List Word) {i j : Nat} (hi : i < ws.length) (hj : j < 8) :
    (bytesOfWords ws)[8 * i + j]? = some (byteOfWord ws[i] j) := by
  induction ws generalizing i with
  | nil => simp at hi
  | cons w ws ih =>
    have e : bytesOfWords (w :: ws) = bytesOfWord w ++ bytesOfWords ws := rfl
    rw [e]
    cases i with
    | zero =>
      rw [List.getElem?_append_left (by simp; omega), Nat.mul_zero, Nat.zero_add]
      exact bytesOfWord_getElem? w hj
    | succ i =>
      rw [List.getElem?_append_right (by simp; omega), bytesOfWord_length,
        show 8 * (i + 1) + j - 8 = 8 * i + j by omega, ih (by simpa using hi), List.getElem_cons_succ]

/-- A word outside the written bytes reads as before. -/
theorem Memory.readWord_write_of_outside (m : Memory) {a : Nat} {bs : List Byte} {x : Nat}
    (h : x + 8 ≤ a ∨ a + bs.length ≤ x) : (m.write a bs).readWord x = m.readWord x :=
  wordOfBytes_congr fun _ _ => m.readByte_write_of_outside (by omega)

/-- A written word reads as written. -/
theorem Memory.readWord_write_of_inside (m : Memory) (a : Nat) (ws : List Word) {i : Nat} (h : i < ws.length) :
    (m.write a (bytesOfWords ws)).readWord (a + 8 * i) = ws[i] := by
  rw [← wordOfBytes_byteOfWord ws[i]]
  refine wordOfBytes_congr fun j hj => ?_
  have hl : 8 * i + j < (bytesOfWords ws).length := by simp; omega
  rw [Nat.add_assoc, Memory.readByte_write_of_inside _ hl]
  have := bytesOfWords_getElem? ws h hj
  rwa [List.getElem?_eq_getElem hl, Option.some_inj] at this

/-! ## Buffers -/

theorem Buf.depth_le (b : Buf) : b.base + 8 * b.depth ≤ 0x330000 := by cases b <;> decide

/-- Two buffers do not overlap. -/
theorem Buf.separate {b b' : Buf} (h : b ≠ b') : b.base + 8 * b.depth ≤ b'.base ∨ b'.base + 8 * b'.depth ≤ b.base := by
  cases b <;> cases b' <;> first | exact absurd rfl h | decide

/-- The elements a write of a buffer leaves within depth. -/
theorem State.elem_setElems (s : State) {b b' : Buf} {i j : Nat} {ws : List Word} (hw : i + ws.length ≤ b.depth)
    (hj : j < b'.depth) :
    (s.setElems b i ws).elem b' j =
      if h : b' = b ∧ i ≤ j ∧ j < i + ws.length then ws[j - i] else s.elem b' j := by
  by_cases h : b' = b ∧ i ≤ j ∧ j < i + ws.length
  · obtain ⟨rfl, h1, h2⟩ := h
    rw [dif_pos ⟨rfl, h1, h2⟩, State.elem, State.setElems_mem,
      show Buf.addr b' j = b'.addr i + 8 * (j - i) by simp only [Buf.addr]; omega,
      Memory.readWord_write_of_inside _ _ _ (by omega)]
  · rw [dif_neg h]
    refine Memory.readWord_write_of_outside _ ?_
    simp only [bytesOfWords_length, Buf.addr]
    by_cases hb : b' = b
    · subst hb
      simp only [true_and] at h
      omega
    · have := Buf.separate hb
      omega

/-- The bytes a write of a buffer leaves as they were: all outside the elements written. -/
theorem State.readByte_setElems (s : State) {b : Buf} {i : Nat} {ws : List Word} {x : Nat}
    (h : x < b.addr i ∨ b.addr i + 8 * ws.length ≤ x) :
    (s.setElems b i ws).mem.readByte x = s.mem.readByte x :=
  Memory.readByte_write_of_outside _ (by simpa using h)

theorem inBuffers_of_elem {b : Buf} {x : Nat} (h1 : b.base ≤ x) (h2 : x < b.base + 8 * b.depth) :
    inBuffers x = true := by
  simp only [inBuffers, List.any_eq_true, decide_eq_true_eq]
  exact ⟨b, by cases b <;> simp, h1, h2⟩

/-- Writing elements within depth keeps the buffers sound. -/
theorem State.setElems_sound {s : State} (hs : s.mem.Sound) {b : Buf} {i : Nat} {ws : List Word}
    (h : i + ws.length ≤ b.depth) : (s.setElems b i ws).mem.Sound := by
  refine ⟨Memory.write_wf hs.1 _ _, fun c hc => ?_⟩
  rcases Memory.mem_write hc with hc | hc
  · exact hs.2 c hc
  · simp only [bytesOfWords_length, Buf.addr] at hc
    exact inBuffers_of_elem (b := b) (by omega) (by omega)

theorem Memory.afterReset_sound (m : Memory) : m.afterReset.Sound := ⟨.nil, by simp [Memory.afterReset]⟩

end Sys2Proof.Machine
end

