-- ==== Sys2Proof/Laws/Exec.lean ====
section
/-! SUPPORT. Everything a completion can do: `exec_cases` is the inversion every claim about exec goes through, and
`Commits` the output set of each command (60_exceptions.md R227). -/

namespace Sys2Proof.Machine

/-! ## The runs of the commands -/

@[simp] theorem exec_genSine (s : State) : exec .genSine s = .next (s.complete (generate s sineSample)) := rfl
@[simp] theorem exec_genSaw (s : State) : exec .genSaw s = .next (s.complete (generate s sawSample)) := rfl
@[simp] theorem exec_genSquare (s : State) : exec .genSquare s = .next (s.complete (generate s squareSample)) := rfl
@[simp] theorem exec_genUnknownKind (s : State) :
    exec .genUnknownKind s = .next (s.complete (.error .unknownKind)) := rfl
@[simp] theorem exec_design (s : State) : exec .design s = .next (s.complete (designRun s)) := rfl
@[simp] theorem exec_filter (s : State) : exec .filter s = .next (s.complete (filterRun s)) := rfl
@[simp] theorem exec_eval (s : State) : exec .eval s = .next (s.complete (evalRun s)) := rfl

@[simp] theorem State.complete_ok (s t : State) : s.complete (.ok t) = t.finish .none := rfl
@[simp] theorem State.complete_error (s : State) (c : Cause) : s.complete (.error c) = s.finish c := rfl

/-! ## Lengths -/

@[simp] theorem State.elems_length (s : State) (b : Buf) (n : Nat) : (s.elems b n).length = n := by simp [State.elems]

theorem State.elems_getElem (s : State) (b : Buf) {n i : Nat} (h : i < (s.elems b n).length) :
    (s.elems b n)[i] = s.elem b i := by simp [State.elems]

@[simp] theorem filterFrom_length (d : Nat → Nat → NaNBits) (c : Coeffs) (i : Nat) (z1 z2 : Word) (xs : List Word) :
    (filterFrom d c i z1 z2 xs).length = xs.length := by
  induction xs generalizing i z1 z2 with
  | nil => rfl
  | cons x xs ih => simp [filterFrom, ih]

@[simp] theorem filterSignal_length (d : Nat → Nat → NaNBits) (c : Coeffs) (xs : List Word) :
    (filterSignal d c xs).length = xs.length := filterFrom_length ..

@[simp] theorem grid_length (d : Nat → Nat → NaNBits) (fs : Word) (p : Nat) : (grid d fs p).length = p := by
  match p with
  | 0 => rfl
  | 1 => rfl
  | n + 2 => simp [grid]

@[simp] theorem unwrapFrom_length (d : Nat → Nat → NaNBits) (k : Nat) (prev acc : Word) (ps : List Word) :
    (unwrapFrom d k prev acc ps).length = ps.length := by
  induction ps generalizing k prev acc with
  | nil => rfl
  | cons p ps ih => simp [unwrapFrom, ih]

@[simp] theorem unwrap_length (d : Nat → Nat → NaNBits) (ps : List Word) : (unwrap d ps).length = ps.length := by
  cases ps <;> simp [unwrap]

@[simp] theorem response_length (d : Nat → Nat → NaNBits) (c : Coeffs) (fs : Word) (p : Nat) :
    (response d c fs p).length = p := by simp [response]

@[simp] theorem magnitudes_length (d : Nat → Nat → NaNBits) (c : Coeffs) (fs : Word) (p : Nat) :
    (magnitudes d c fs p).length = p := by simp [magnitudes]

@[simp] theorem phases_length (d : Nat → Nat → NaNBits) (c : Coeffs) (fs : Word) (p : Nat) :
    (phases d c fs p).length = p := by simp [phases]

/-! ## What a success commits -/

/-- The states a successful command can leave before STATUS is written, one constructor per output set of R227. -/
inductive Commits (s : State) : Instr → State → Prop where
  | gen {i : Instr} (hi : i = .genSine ∨ i = .genSaw ∨ i = .genSquare) (ws : List Word)
      (h : ws.length ≤ Config.bufDepth) : Commits s i (genCommit s ws)
  | design (c : Coeffs) : Commits s .design { s with regs := s.regs.setCoeffs c }
  | filter (ws : List Word) (h : ws.length = s.regs.xLen.toNat) (hd : ws.length ≤ Config.bufDepth) :
      Commits s .filter ((s.setElems .y 0 ws).setReg .yLen s.regs.xLen)
  | eval (fr mg ph : List Word) (hf : fr.length = s.regs.npoints.toNat) (hm : mg.length = s.regs.npoints.toNat)
      (hp : ph.length = s.regs.npoints.toNat) (hd : s.regs.npoints.toNat ≤ Config.respDepth) :
      Commits s .eval ((((s.setElems .freq 0 fr).setElems .mag 0 mg).setElems .phase 0 ph).setReg
        .respLen s.regs.npoints)

/-- The sample count of a success is within the X buffer, and the failing checks in order (R133). -/
theorem sampleCount_ok {d : NaNBits} {fs dur : Word} {n : Nat} (h : sampleCount d fs dur = .ok n) :
    fsValid fs = true ∧ isFinite (fmul d fs dur) = true ∧ roundHalfEven (fmul d fs dur) = n ∧
      n ≤ Config.bufDepth := by
  unfold sampleCount at h
  split_ifs at h with h1 h2 h3
  simp only [Except.ok.injEq] at h
  simp only [Bool.not_eq_true', Bool.not_eq_false] at h1 h2
  refine ⟨by simpa using h1, by simpa using h2, ?_, ?_⟩ <;> omega

theorem sampleCount_of_valid {d : NaNBits} {fs dur : Word} {n : Nat} (h1 : fsValid fs = true)
    (h2 : isFinite (fmul d fs dur) = true) (h3 : roundHalfEven (fmul d fs dur) = n) (h4 : n ≤ Config.bufDepth) :
    sampleCount d fs dur = .ok n := by
  unfold sampleCount
  rw [h1, h2, h3, if_neg (by simp), if_neg (by simp), if_neg (by omega), Int.toNat_natCast]

theorem sampleCount_error_ne_none {d : NaNBits} {fs dur : Word} {c : Cause} (h : sampleCount d fs dur = .error c) :
    c ≠ .none := by
  unfold sampleCount at h
  split_ifs at h <;> simp_all <;> subst h <;> decide

theorem generate_cases {s : State} {f : (Nat → NaNBits) → Regs → Nat → Word} :
    (∃ c, c ≠ .none ∧ generate s f = .error c) ∨
      ∃ n, n ≤ Config.bufDepth ∧ sampleCount (s.nanAt 0 0) s.regs.fs s.regs.dur = .ok n ∧
        generate s f = .ok (genCommit s ((List.range n).map fun i => f (s.nanAt (i + 1)) s.regs i)) := by
  unfold generate
  split
  · next c h => exact .inl ⟨c, sampleCount_error_ne_none h, rfl⟩
  · next n h => exact .inr ⟨n, (sampleCount_ok h).2.2.2, h, rfl⟩

/-- Everything a completion can do: an error writes only STATUS, a success commits the command's output set and then
writes STATUS (R225 to R227). -/
theorem exec_cases {i : Instr} {s t : State} (h : exec i s = .next t) :
    (∃ c, c ≠ .none ∧ t = s.finish c) ∨ ∃ u, Commits s i u ∧ t = u.finish .none := by
  have gen : ∀ f, (i = .genSine ∨ i = .genSaw ∨ i = .genSquare) → s.complete (generate s f) = t →
      (∃ c, c ≠ .none ∧ t = s.finish c) ∨ ∃ u, Commits s i u ∧ t = u.finish .none := by
    rintro f hi rfl
    rcases generate_cases (s := s) (f := f) with ⟨c, hc, e⟩ | ⟨n, hn, -, e⟩ <;> rw [e]
    · exact .inl ⟨c, hc, rfl⟩
    · exact .inr ⟨_, .gen hi _ (by simpa using hn), rfl⟩
  cases i with
  | genSine => exact gen sineSample (by simp) (by simpa using h)
  | genSaw => exact gen sawSample (by simp) (by simpa using h)
  | genSquare => exact gen squareSample (by simp) (by simpa using h)
  | genUnknownKind =>
    simp only [exec_genUnknownKind, Host.Outcome.next.injEq, State.complete_error] at h
    exact .inl ⟨_, by decide, h.symm⟩
  | design =>
    simp only [exec_design, Host.Outcome.next.injEq] at h
    subst h
    unfold designRun
    split_ifs
    · exact .inl ⟨_, by decide, rfl⟩
    · exact .inl ⟨_, by decide, rfl⟩
    · exact .inl ⟨_, by decide, rfl⟩
    · exact .inr ⟨_, .design _, rfl⟩
  | filter =>
    simp only [exec_filter, Host.Outcome.next.injEq] at h
    subst h
    unfold filterRun
    split_ifs with h1 h2
    · exact .inl ⟨_, by decide, rfl⟩
    · exact .inl ⟨_, by decide, rfl⟩
    · exact .inr ⟨_, .filter _ (by simp) (by simpa using h2), rfl⟩
  | eval =>
    simp only [exec_eval, Host.Outcome.next.injEq] at h
    subst h
    unfold evalRun
    simp only
    split_ifs with h1 h2 h3
    · exact .inl ⟨_, by decide, rfl⟩
    · exact .inl ⟨_, by decide, rfl⟩
    · exact .inl ⟨_, by decide, rfl⟩
    · exact .inr ⟨_, .eval _ _ _ (by simp) (by simp) (by simp) (by simpa using h3), rfl⟩

/-- Every command completes: exec never stops. -/
theorem exec_next (i : Instr) (s : State) : ∃ t, exec i s = .next t := by
  cases i <;> exact ⟨_, rfl⟩

/-! ## What a commit leaves alone -/

theorem Commits.status {s u : State} {i : Instr} (h : Commits s i u) : u.status = s.status := by cases h <;> rfl
theorem Commits.pend {s u : State} {i : Instr} (h : Commits s i u) : u.pend = s.pend := by cases h <;> rfl
theorem Commits.inputs {s u : State} {i : Instr} (h : Commits s i u) : u.inputs = s.inputs := by cases h <;> rfl
theorem Commits.rdata {s u : State} {i : Instr} (h : Commits s i u) : u.rdata = s.rdata := by cases h <;> rfl
theorem Commits.draws {s u : State} {i : Instr} (h : Commits s i u) : u.draws = s.draws := by cases h <;> rfl

theorem genCommit_regs (s : State) (ws : List Word) :
    (genCommit s ws).regs = { s.regs with xLen := BitVec.ofNat 64 ws.length } := rfl

theorem genCommit_mem (s : State) (ws : List Word) :
    (genCommit s ws).mem = (s.setElems .x 0 ws).mem := rfl

/-- A commit writes within the buffers' depths and keeps their canonical form. -/
theorem Commits.sound {s u : State} {i : Instr} (h : Commits s i u) (hs : s.mem.Sound) : u.mem.Sound := by
  cases h with
  | gen hi ws h => exact State.setElems_sound hs (by simpa [Buf.depth] using h)
  | design c => exact hs
  | filter ws h hd => exact State.setElems_sound hs (by simpa [Buf.depth] using hd)
  | eval fr mg ph hf hm hp hd =>
    have h1 : (s.setElems .freq 0 fr).mem.Sound := State.setElems_sound hs (by simp [Buf.depth]; omega)
    have h2 : ((s.setElems .freq 0 fr).setElems .mag 0 mg).mem.Sound :=
      State.setElems_sound h1 (by simp [Buf.depth]; omega)
    exact State.setElems_sound h2 (by simp [Buf.depth]; omega)

/-- The lengths a commit leaves within the depths. -/
theorem Commits.lengths {s u : State} {i : Instr} (h : Commits s i u)
    (hs : s.regs.yLen.toNat ≤ Config.bufDepth ∧ s.regs.respLen.toNat ≤ Config.respDepth) :
    u.regs.yLen.toNat ≤ Config.bufDepth ∧ u.regs.respLen.toNat ≤ Config.respDepth := by
  cases h with
  | gen hi ws h => exact hs
  | design c => exact hs
  | filter ws h hd => exact ⟨by simpa [← h] using hd, hs.2⟩
  | eval fr mg ph hf hm hp hd => exact ⟨hs.1, hd⟩

end Sys2Proof.Machine
end

