-- ==== Sys2Proof/Laws/Step.lean ====
section
/-! SUPPORT. Everything a step can do: `step_cases` is the inversion every claim about step goes through. -/

namespace Sys2Proof.Machine

/-- One constructor per kind of step (20_memory.md R80). -/
inductive StepCase (s : State) : State → Prop where
  /-- The engine's turn while BUSY = 0. -/
  | idle (rest : List Input) (hi : s.inputs = .engine :: rest ∨ s.inputs = [] ∧ rest = [])
      (hb : s.status.busy = false) : StepCase s { s with inputs := rest }
  /-- The engine completes a legal command. -/
  | command (rest : List Input) (hi : s.inputs = .engine :: rest ∨ s.inputs = [] ∧ rest = [])
      (hb : s.status.busy = true) (i : Instr) (hd : decode s.pend = .ok i) (t : State)
      (he : exec i { s with inputs := rest } = .next t) : StepCase s t
  /-- The engine completes an illegal command. -/
  | illegal (rest : List Input) (hi : s.inputs = .engine :: rest ∨ s.inputs = [] ∧ rest = [])
      (hb : s.status.busy = true) (e : Reject) (hd : decode s.pend = .error e) :
      StepCase s ({ s with inputs := rest }.finish .illegalCmd)
  /-- A host read. -/
  | read (off size : Nat) (rest : List Input) (hi : s.inputs = .read off size :: rest)
      (ha : admitted off size = true) : StepCase s ({ s with inputs := rest }.hostRead off)
  /-- A host write. -/
  | write (off size : Nat) (v : Word) (rest : List Input) (hi : s.inputs = .write off size v :: rest)
      (ha : admitted off size = true) : StepCase s ({ s with inputs := rest }.hostWrite off v)
  /-- Reset. -/
  | reset (rest : List Input) (hi : s.inputs = .reset :: rest) : StepCase s { s with inputs := rest }.afterReset

theorem engineTurn_cases {s : State} {rest : List Input}
    (hi : s.inputs = .engine :: rest ∨ s.inputs = [] ∧ rest = []) {t : State}
    (h : engineTurn { s with inputs := rest } = .next t) : StepCase s t := by
  unfold engineTurn at h
  split_ifs at h with hb
  · split at h
    · next i hd => exact .command rest hi hb i hd t h
    · next e hd =>
      simp only [Host.Outcome.next.injEq] at h
      exact h ▸ .illegal rest hi hb e hd
  · simp only [Host.Outcome.next.injEq] at h
    exact h ▸ .idle rest hi (by simpa using hb)

theorem access_next {off size : Nat} {a t : State} (h : access off size a = .next t) :
    admitted off size = true ∧ t = a := by
  unfold access at h
  split_ifs at h with ha
  exact ⟨ha, (Host.Outcome.next.inj h).symm⟩

/-- Everything a step can do when it answers a next state. -/
theorem step_cases {s t : State} (h : step s = .next t) : StepCase s t := by
  unfold step at h
  split at h
  · next hi => exact engineTurn_cases (.inr ⟨hi, rfl⟩) (by rw [← hi]; exact h)
  · next rest hi => exact engineTurn_cases (.inl hi) h
  · next off size rest hi =>
    obtain ⟨ha, rfl⟩ := access_next h
    exact .read off size rest hi ha
  · next off size v rest hi =>
    obtain ⟨ha, rfl⟩ := access_next h
    exact .write off size v rest hi ha
  · next rest hi =>
    obtain rfl := Host.Outcome.next.inj h
    exact .reset rest hi

/-- A host write of an offset, by what stands there (20_memory.md R75). -/
theorem State.hostWrite_cases (s : State) (off : Nat) (v : Word) :
    locate off = .cmd ∧ s.hostWrite off v = s.submit v ∨
    locate off = .status ∧ s.hostWrite off v = s.writeStatus v ∨
    (locate off ≠ .cmd ∧ locate off ≠ .status ∧
      (s.status.busy = true ∧ (locate off).writable = true ∧ s.hostWrite off v = s.dropWrite ∨
       s.status.busy = true ∧ (locate off).writable = false ∧ s.hostWrite off v = s ∨
       s.status.busy = false ∧ s.hostWrite off v = s.store (locate off) v)) := by
  unfold State.hostWrite
  split
  · next h => exact .inl ⟨h, rfl⟩
  · next h => exact .inr (.inl ⟨h, rfl⟩)
  · next l h1 h2 =>
    refine .inr (.inr ⟨h1, h2, ?_⟩)
    cases hb : s.status.busy <;> cases hw : (locate off).writable <;> simp

/-- What a storing write can do (R75 cases 4 and 5). -/
theorem State.store_cases (s : State) (l : Loc) (v : Word) :
    (∃ r, l = .reg r ∧ r.writable = true ∧ s.store l v = s.setReg r v) ∨
    (∃ i, l = .elem .x i ∧ s.store l v = s.setElems .x i [v]) ∨
    (l.writable = false ∧ s.store l v = s) := by
  cases l with
  | reg r =>
    cases hw : r.writable
    · exact .inr (.inr ⟨hw, by simp [State.store, hw]⟩)
    · exact .inl ⟨r, rfl, hw, by simp [State.store, hw]⟩
  | elem b i =>
    cases b
    · exact .inr (.inl ⟨i, rfl, rfl⟩)
    all_goals exact .inr (.inr ⟨rfl, rfl⟩)
  | _ => exact .inr (.inr ⟨rfl, rfl⟩)

/-- No named register is a buffer element. -/
theorem registerMap_not_elem (off : Nat) (b : Buf) (i : Nat) : (registerMap.lookup off).getD .reserved ≠ .elem b i := by
  have key : ∀ m : List (Nat × Loc), (∀ e ∈ m, ∀ b i, e.2 ≠ .elem b i) → (m.lookup off).getD .reserved ≠ .elem b i := by
    intro m hm
    induction m with
    | nil => simp
    | cons e m ih =>
      rw [List.lookup_cons]
      split
      · exact hm e (by simp) b i
      · exact ih fun e' h => hm e' (by simp [h])
  exact key registerMap (by simp [registerMap])

/-- An element location is within its buffer's depth. -/
theorem locate_elem {off i : Nat} {b : Buf} (h : locate off = .elem b i) : i < b.depth := by
  have hs : ∀ c k, slot c k = .elem b i → i < b.depth := by
    intro c k hk
    unfold slot at hk
    split_ifs at hk with hl
    obtain ⟨rfl, rfl⟩ := Loc.elem.inj hk
    exact hl
  unfold locate at h
  split_ifs at h
  · exact absurd h (registerMap_not_elem off b i)
  all_goals exact hs _ _ h

end Sys2Proof.Machine
end

