-- ==== Sys2Proof/Laws/Bus.lean ====
section
/-! SUPPORT. The address map read both ways, and that only an unadmitted access stops a step. -/

namespace Sys2Proof.Machine

theorem admitted_iff {off size : Nat} : admitted off size = true ↔ size = 8 ∧ off % 8 = 0 ∧ off < 2 ^ 22 := by
  have h : decide (off < windowSize) = true ↔ off < 2 ^ 22 := decide_eq_true_iff
  unfold admitted
  rw [Bool.and_eq_true, Bool.and_eq_true, beq_iff_eq, beq_iff_eq, h, and_assoc]

/-- An offset is recovered from its platform address, whatever WFG_BASE is (20_memory.md R70). -/
theorem offsetOf_platformAddress (off : Nat) : offsetOf (platformAddress off) = some off := by
  rw [offsetOf, platformAddress, if_pos (Nat.le_add_right _ _), Nat.add_sub_cancel_left]

/-- The engine's turn never stops. -/
theorem engineTurn_next (s : State) : ∃ t, engineTurn s = .next t := by
  unfold engineTurn
  split_ifs
  · split
    · exact exec_next _ _
    · exact ⟨_, rfl⟩
  · exact ⟨_, rfl⟩

/-! ## Named registers -/

theorem lookup_mem {off : Nat} {l : Loc} {m : List (Nat × Loc)} (h : m.lookup off = some l) : (off, l) ∈ m := by
  induction m with
  | nil => simp at h
  | cons e m ih =>
    rw [List.lookup_cons] at h
    split at h
    · next he =>
      obtain ⟨o, l'⟩ := e
      simp only [beq_iff_eq] at he
      simp only [Option.some.injEq] at h
      simp [he, h]
    · exact List.mem_cons_of_mem _ (ih h)

theorem slot_ne {b : Buf} {i : Nat} {l : Loc} (h : slot b i = l) : l = .elem b i ∧ i < b.depth ∨ l = .reserved := by
  unfold slot at h
  split_ifs at h with hl
  · exact .inl ⟨h.symm, hl⟩
  · exact .inr h.symm

/-- Every location but an element and a reserved one is a named register, at its offset of the register table. -/
theorem locate_named {off : Nat} {l : Loc} (h : locate off = l) (h1 : l ≠ .reserved) (h2 : ∀ b i, l ≠ .elem b i) :
    (off, l) ∈ registerMap := by
  unfold locate at h
  split_ifs at h
  · cases hl : registerMap.lookup off with
    | none => simp [hl] at h; exact absurd h.symm h1
    | some l' =>
      simp only [hl, Option.getD_some] at h
      exact lookup_mem (h ▸ hl)
  all_goals
    first
    | exact absurd h.symm h1
    | rcases slot_ne h with ⟨e, -⟩ | e
      · exact absurd e (h2 _ _)
      · exact absurd e h1

theorem locate_cmd {off : Nat} (h : locate off = .cmd) : off = 0x010 := by
  have := locate_named h (by simp) (by simp)
  simpa [registerMap] using this

theorem locate_status {off : Nat} (h : locate off = .status) : off = 0x018 := by
  have := locate_named h (by simp) (by simp)
  simpa [registerMap] using this

/-- The offset of a storing register. -/
def Reg.offset : Reg → Nat
  | .fundHz => 0x020 | .fs => 0x028 | .dur => 0x030 | .ampl => 0x038 | .phase0 => 0x040 | .fc => 0x048
  | .q => 0x050 | .npoints => 0x058 | .xLen => 0x060 | .yLen => 0x068 | .respLen => 0x070
  | .b0 => 0x080 | .b1 => 0x088 | .b2 => 0x090 | .a0 => 0x098 | .a1 => 0x0A0 | .a2 => 0x0A8

theorem locate_reg {off : Nat} {r : Reg} : locate off = .reg r ↔ off = r.offset := by
  constructor
  · intro h
    have := locate_named h (by simp) (by simp)
    cases r <;> simpa [registerMap, Reg.offset] using this
  · rintro rfl
    cases r <;> decide

/-! ## Buffer elements -/

/-- An aligned element offset is base + 8 i. -/
theorem locate_elem_offset {off i : Nat} {b : Buf} (ha : off % 8 = 0) (h : locate off = .elem b i) :
    off = b.addr i ∧ i < b.depth := by
  refine ⟨?_, locate_elem h⟩
  unfold locate at h
  split_ifs at h
  · exact absurd h (registerMap_not_elem off b i)
  all_goals
    rcases slot_ne h with ⟨e, -⟩ | e
    · obtain ⟨rfl, rfl⟩ := Loc.elem.inj e
      simp only [Buf.addr, Buf.base]
      omega
    · exact absurd e (by simp)

theorem locate_addr {b : Buf} {i : Nat} (h : i < b.depth) : locate (b.addr i) = .elem b i := by
  have key : ∀ base off : Nat, off = base + 8 * i → (off - base) / 8 = i := by omega
  have hs : slot b i = .elem b i := if_pos h
  cases b <;> simp only [Buf.depth, Config.bufDepth, Config.respDepth] at h
  · have e : Buf.addr .x i = 0x100000 + 8 * i := rfl
    unfold locate
    rw [if_neg (by omega), if_pos (by omega), key _ _ e, hs]
  · have e : Buf.addr .y i = 0x200000 + 8 * i := rfl
    unfold locate
    rw [if_neg (by omega), if_neg (by omega), if_pos (by omega), key _ _ e, hs]
  · have e : Buf.addr .freq i = 0x300000 + 8 * i := rfl
    unfold locate
    rw [if_neg (by omega), if_neg (by omega), if_neg (by omega), if_pos (by omega), key _ _ e, hs]
  · have e : Buf.addr .mag i = 0x310000 + 8 * i := rfl
    unfold locate
    rw [if_neg (by omega), if_neg (by omega), if_neg (by omega), if_neg (by omega), if_pos (by omega), key _ _ e, hs]
  · have e : Buf.addr .phase i = 0x320000 + 8 * i := rfl
    unfold locate
    rw [if_neg (by omega), if_neg (by omega), if_neg (by omega), if_neg (by omega), if_neg (by omega),
      if_pos (by omega), key _ _ e, hs]

/-- Writing an X element within depth is the write of one element. -/
theorem State.elem_setElems_one (s : State) {b b' : Buf} {i j : Nat} {w : Word} (hi : i < b.depth) (hj : j < b'.depth) :
    (s.setElems b i [w]).elem b' j = if b' = b ∧ j = i then w else s.elem b' j := by
  rw [State.elem_setElems s (by simpa using hi) hj]
  by_cases h : b' = b ∧ j = i
  · obtain ⟨rfl, rfl⟩ := h
    simp
  · rw [dif_neg, if_neg h]
    rintro ⟨h1, h2, h3⟩
    exact h ⟨h1, by simp at h3; omega⟩

/-- A write never touches the host's side. -/
theorem State.hostWrite_inputs (s : State) (off : Nat) (v : Word) : (s.hostWrite off v).inputs = s.inputs := by
  rcases s.hostWrite_cases off v with ⟨-, e⟩ | ⟨-, e⟩ | ⟨-, -, ⟨-, -, e⟩ | ⟨-, -, e⟩ | ⟨-, e⟩⟩ <;> rw [e]
  · unfold State.submit
    split_ifs <;> rfl
  · rfl
  · rfl
  · rcases s.store_cases (locate off) v with ⟨r, -, -, e⟩ | ⟨i, -, e⟩ | ⟨-, e⟩ <;> rw [e] <;> rfl

end Sys2Proof.Machine
end

