-- ==== Sys2Proof/Laws/Num.lean ====
section
/-! SUPPORT. What confining NUM does (00_scope.md R17; log 6): a confined value is lawful, and a lawful one is left as it
is, so the model is neither wider nor narrower than the laws. -/

namespace Sys2Proof.Machine

/-- A confined value is admitted, provided the replacement is. -/
theorem confined_ok {ok : Word → Bool} {other : Word} (h : ok other = true) (r : Word) : ok (confined ok other r) = true := by
  unfold confined
  split_ifs with hr
  · exact hr
  · exact h

/-- An admitted value is left as it is. -/
theorem confined_of_ok {ok : Word → Bool} {r : Word} (h : ok r = true) (other : Word) : confined ok other r = r := if_pos h

theorem within_iff {lo hi a : Word} : within lo hi a = true ↔ fle lo a = true ∧ fle a hi = true := by
  rw [within, Bool.and_eq_true]

/-- The bounds L2 and L7 put on sin are never empty. -/
theorem sinFloor_lawful (x : Word) : within (sinFloor x) fone (sinFloor x) = true := by
  unfold sinFloor
  split_ifs <;> decide

/-- NUM.sin at a finite nonzero argument is the arbitrary function wherever that meets L2 and L7. -/
theorem numSin_of_lawful (d : NaNBits) {x : Word} (hz : isZero x = false) (hf : isFinite x = true)
    (h : within (sinFloor x) fone (Config.rawSin x) = true) : numSin d x = Config.rawSin x := by
  rw [numSin, hz, hf, if_neg (by decide), if_neg (by decide), confined_of_ok h]

/-- NUM.cos at a finite nonzero argument is the arbitrary function wherever that meets L2. -/
theorem numCos_of_lawful (d : NaNBits) {x : Word} (hz : isZero x = false) (hf : isFinite x = true)
    (h : within fminusOne fone (Config.rawCos x) = true) : numCos d x = Config.rawCos x := by
  rw [numCos, hz, hf, if_neg (by decide), if_neg (by decide), confined_of_ok h]

/-- NUM.log10 at a finite positive argument is the arbitrary function wherever that meets L4. -/
theorem numLog10_of_lawful (d : NaNBits) {x : Word} (hf : isFinite x = true) (hp : fgt x fzero = true)
    (h : isFinite (Config.rawLog10 x) = true) : numLog10 d x = Config.rawLog10 x := by
  have hx : x ≠ finf := by
    rintro rfl
    exact absurd hf (by decide)
  rw [numLog10, isNaN_of_isFinite hf, if_neg (by decide), if_neg hx, if_pos hp, confined_of_ok h]

/-- NUM.hypot at finite arguments, the first not a zero, is the arbitrary function wherever that meets L5. -/
theorem numHypot_of_lawful (d : NaNBits) {x y : Word} (hx : isFinite x = true) (hy : isFinite y = true)
    (hz : isZero x = false) (h : fle fzero (Config.rawHypot x y) = true) : numHypot d x y = Config.rawHypot x y := by
  rw [numHypot, isInf_of_isFinite hx, isInf_of_isFinite hy, isNaN_of_isFinite hx, isNaN_of_isFinite hy, hz,
    if_neg (by decide), if_neg (by decide), if_neg (by decide), if_neg (by simp), confined_of_ok h]

end Sys2Proof.Machine
end

