-- ==== Sys2Proof/Laws/Eval.lean ====
section
/-! SUPPORT. What EVAL leaves in FREQ and MAG, element by element (43_frequency_response.md R190 to R192), and the state
after a successful EVAL. -/

namespace Sys2Proof.Machine

/-- Point k of the grid (R191). -/
theorem grid_getElem? (d : Nat → Nat → NaNBits) (fs : Word) {p k : Nat} (hk : k < p) :
    (grid d fs p)[k]? = some (
      if p = 1 then fzero
      else if k + 1 = p then gridHalf (d 0 0) fs
      else fmul (d k 2) (i2f k) (gridStep (d 0) fs p)) := by
  match p, hk with
  | 1, hk => obtain rfl : k = 0 := by omega
             rfl
  | n + 2, hk =>
    simp only [grid]
    by_cases h : k = n + 1
    · subst h
      simp
    · rw [List.getElem?_append_left (by simp; omega)]
      simp [show k < n + 1 by omega, h]

/-- The grid rises up to its last point but one, by the monotonicity R191 names. (The last point is fs/2 as rounded, and may
lie below it for a subnormal FS: log 23.) -/
theorem grid_mono (d : Nat → Nat → NaNBits) {fs : Word} {p j k : Nat} (hs : isFinite (gridStep (d 0) fs p) = true)
    (hn : fsign (gridStep (d 0) fs p) = false) (hjk : j ≤ k) (hk : k + 1 < p) (hp : p ≤ Config.respDepth) {f g : Word}
    (hf : (grid d fs p)[j]? = some f) (hg : (grid d fs p)[k]? = some g) : units f ≤ units g := by
  rw [grid_getElem? d fs (by omega), if_neg (by omega), if_neg (by omega), Option.some.injEq] at hf hg
  have fin : ∀ i ≤ k, isFinite (i2f i) = true := fun i hi => isFinite_i2f (by
    simp only [Config.respDepth] at hp
    omega)
  have sgn : ∀ i ≤ k, ∀ e, fsign (fmul e (i2f i) (gridStep (d 0) fs p)) = false := fun i hi e => by
    rw [fmul_of_finite e (fin i hi) hs, fsign_ofSignMag, fsign_i2f, hn]
    rfl
  have h := magUnits_strictMono.monotone
    (fmag_fmul_mono (d j 2) (d k 2) (fin j hjk) (fin k le_rfl) hs (fmag_i2f_mono hjk))
  rw [hf, hg] at h
  rw [units, units, ← hf, ← hg, sgn j hjk, sgn k le_rfl, hf, hg]
  simpa using h

/-- MAG[k] comes from point k of the grid alone (R190, R192). -/
theorem magnitudes_getElem? (d : Nat → Nat → NaNBits) (c : Coeffs) (fs : Word) (p k : Nat) :
    (magnitudes d c fs p)[k]? = ((grid d fs p)[k]?).map fun f => magnitudeDb (d k) (transfer (d k) c f fs) := by
  simp [magnitudes, response, List.getElem?_mapIdx, Function.comp_def]

/-- H at one frequency from the values of NUM it rests on (R192). -/
theorem transfer_eq {d : Nat → NaNBits} {c : Coeffs} {f fs w w2 c1 s1 c2 s2 : Word}
    (hw : fdiv (d 4) (fmul (d 3) twoPi64 f) fs = w) (hc1 : numCos (d 5) w = c1) (hs1 : numSin (d 6) w = s1)
    (h7 : fmul (d 7) ftwo w = w2) (hc2 : numCos (d 8) w2 = c2) (h9 : fmul (d 9) ftwo w = w2)
    (hs2 : numSin (d 10) w2 = s2) :
    transfer d c f fs = quotient (fun j => d (27 + j))
      (polyRe (fun j => d (11 + j)) c.b0 c.b1 c.b2 c1 c2) (polyIm (fun j => d (15 + j)) c.b1 c.b2 s1 s2)
      (polyRe (fun j => d (19 + j)) c.a0 c.a1 c.a2 c1 c2) (polyIm (fun j => d (23 + j)) c.a1 c.a2 s1 s2) := by
  simp only [transfer, hw, hc1, hs1, h7, hc2, h9, hs2]

/-- Everything a successful EVAL leaves in the registers, FREQ and MAG. -/
theorem exec_eval_of_valid {s : State} (ha : coeffsValid s.regs.coeffs = true) (hf : fsValid s.regs.fs = true)
    (hp : s.regs.npoints.toNat ≤ Config.respDepth) :
    ∃ t, exec .eval s = .next t ∧ t.regs = { s.regs with respLen := s.regs.npoints } ∧
      ∀ k < s.regs.npoints.toNat,
        (grid s.nanAt s.regs.fs s.regs.npoints.toNat)[k]? = some (t.elem .freq k) ∧
        (magnitudes s.nanAt s.regs.coeffs s.regs.fs s.regs.npoints.toNat)[k]? = some (t.elem .mag k) := by
  refine ⟨_, by rw [exec_eval, evalRun, if_neg (by simp [ha]), if_neg (by simp [hf]), if_neg (by omega),
    State.complete_ok], rfl, fun k hk => ?_⟩
  have hd : ∀ b : Buf, b = .freq ∨ b = .mag ∨ b = .phase → b.depth = Config.respDepth := by
    rintro b (rfl | rfl | rfl) <;> rfl
  have el : ∀ (u : State) (b b' : Buf) (ws : List Word), ws.length = s.regs.npoints.toNat →
      (b = .freq ∨ b = .mag ∨ b = .phase) → (b' = .freq ∨ b' = .mag ∨ b' = .phase) →
      some ((u.setElems b 0 ws).elem b' k) = if b' = b then ws[k]? else some (u.elem b' k) := by
    intro u b b' ws hw hb hb'
    rw [State.elem_setElems u (by rw [hd b hb]; omega) (by rw [hd b' hb']; omega)]
    by_cases e : b' = b
    · rw [dif_pos ⟨e, by omega, by omega⟩, if_pos e, List.getElem?_eq_getElem (by omega)]
      rfl
    · rw [dif_neg (fun h => e h.1), if_neg e]
  rw [State.finish_elem, State.setReg_elem, State.finish_elem, State.setReg_elem]
  constructor
  · rw [el _ _ _ _ (by simp) (by simp) (by simp), if_neg (by decide), el _ _ _ _ (by simp) (by simp) (by simp),
      if_neg (by decide), el _ _ _ _ (by simp) (by simp) (by simp), if_pos rfl]
  · rw [el _ _ _ _ (by simp) (by simp) (by simp), if_neg (by decide), el _ _ _ _ (by simp) (by simp) (by simp),
      if_pos rfl]

end Sys2Proof.Machine
end

