-- ==== Sys2Proof/Laws/PerInstr.lean ====
section
/-! SUPPORT. The per-instruction family Encodes: what the tables of 30_encoding.md R101 to R104 say of each command, one
lemma per constructor. -/

namespace Sys2Proof.Laws.Encodes

/-- The fields of the command are well formed, its RSV bits are 0, and its word decodes to it. -/
def Statement (i : Instr) : Prop :=
  (encodeFields i).wf = true ∧ (encode i).toNat / 2 ^ 6 = 0 ∧ decode (encode i) = .ok i

theorem genSine : Statement .genSine := by refine ⟨?_, ?_, ?_⟩ <;> decide
theorem genSaw : Statement .genSaw := by refine ⟨?_, ?_, ?_⟩ <;> decide
theorem genSquare : Statement .genSquare := by refine ⟨?_, ?_, ?_⟩ <;> decide
theorem genUnknownKind : Statement .genUnknownKind := by refine ⟨?_, ?_, ?_⟩ <;> decide
theorem design : Statement .design := by refine ⟨?_, ?_, ?_⟩ <;> decide
theorem filter : Statement .filter := by refine ⟨?_, ?_, ?_⟩ <;> decide
theorem eval : Statement .eval := by refine ⟨?_, ?_, ?_⟩ <;> decide

end Sys2Proof.Laws.Encodes
end

