-- ==== Sys2Proof/Laws/Response.lean ====
section
/-! SUPPORT. The exact-real response of the designed filter (41_resonant_designer.md R152; 43_frequency_response.md R194):
|H| has its single maximum, 1, at w0. These are theorems about the reals, of which the binary64 results are
approximations; the model's own results are Machine/Design.lean and Machine/Eval.lean. -/

namespace Sys2Proof.Exact

/-- H of R152 at z = e^{jw}, with z⁻¹ = cos w - j sin w as R192 has it. -/
noncomputable def response (α w0 w : ℝ) : ℂ :=
  let zi : ℂ := Real.cos w - Complex.I * Real.sin w
  α * (1 - zi ^ 2) / ((1 + α) - 2 * Real.cos w0 * zi + (1 - α) * zi ^ 2)

/-- Numerator and denominator with the factor z⁻¹ taken out. -/
theorem response_eq (α w0 w : ℝ) : response α w0 w =
    (2 * α * Real.sin w * Complex.I) / (2 * (Real.cos w - Real.cos w0) + 2 * α * Real.sin w * Complex.I) := by
  have hz : ((Real.cos w : ℂ) - Complex.I * Real.sin w) * (Real.cos w + Complex.I * Real.sin w) = 1 := by
    have h : ((Real.cos w : ℂ)) ^ 2 + (Real.sin w : ℂ) ^ 2 = 1 := by exact_mod_cast Real.cos_sq_add_sin_sq w
    linear_combination h - (Real.sin w : ℂ) ^ 2 * Complex.I_sq
  have hne : (Real.cos w : ℂ) + Complex.I * Real.sin w ≠ 0 := right_ne_zero_of_mul_eq_one hz
  rw [response, ← mul_div_mul_left _ _ hne]
  generalize (Real.cos w : ℂ) = c at *
  generalize (Real.sin w : ℂ) = s at *
  congr 1
  · linear_combination (-(α : ℂ) * (c - Complex.I * s)) * hz
  · linear_combination (-2 * (Real.cos w0 : ℂ) + (1 - α) * (c - Complex.I * s)) * hz

/-- |H|² in closed form. -/
theorem normSq_response (α w0 w : ℝ) : Complex.normSq (response α w0 w) =
    (α * Real.sin w) ^ 2 / ((Real.cos w - Real.cos w0) ^ 2 + (α * Real.sin w) ^ 2) := by
  rw [response_eq]
  generalize Real.cos w = c
  generalize Real.sin w = s
  generalize Real.cos w0 = c0
  have hn : (2 * α * s * Complex.I : ℂ) = ⟨0, 2 * (α * s)⟩ := by
    apply Complex.ext <;> simp [mul_assoc]
  have hd : (2 * (c - c0) + 2 * α * s * Complex.I : ℂ) = ⟨2 * (c - c0), 2 * (α * s)⟩ := by
    apply Complex.ext <;> simp [mul_assoc]
  rw [hd, hn, map_div₀, Complex.normSq_mk, Complex.normSq_mk,
    show (0 : ℝ) * 0 + 2 * (α * s) * (2 * (α * s)) = 4 * (α * s) ^ 2 by ring,
    show 2 * (c - c0) * (2 * (c - c0)) + 2 * (α * s) * (2 * (α * s)) = 4 * ((c - c0) ^ 2 + (α * s) ^ 2) by ring,
    mul_div_mul_left _ _ (by norm_num)]

/-- R152, R194: over the reals |H|² ≤ 1 at every frequency. -/
theorem normSq_response_le_one (α w0 w : ℝ) : Complex.normSq (response α w0 w) ≤ 1 := by
  rw [normSq_response]
  exact div_le_one_of_le₀ (le_add_of_nonneg_left (sq_nonneg _)) (by positivity)

/-- R152, R194: the maximum 1 is reached at w0 and nowhere else between DC and Nyquist. -/
theorem normSq_response_eq_one_iff {α w0 w : ℝ} (hα : 0 < α) (h0 : 0 < w0) (h0π : w0 < Real.pi) (hw : 0 ≤ w)
    (hwπ : w ≤ Real.pi) : Complex.normSq (response α w0 w) = 1 ↔ w = w0 := by
  rw [normSq_response]
  constructor
  · intro h
    have hne : (Real.cos w - Real.cos w0) ^ 2 + (α * Real.sin w) ^ 2 ≠ 0 := fun e => by
      rw [e, div_zero] at h
      exact zero_ne_one h
    rw [div_eq_one_iff_eq hne] at h
    have hc : Real.cos w = Real.cos w0 := by
      have : (Real.cos w - Real.cos w0) ^ 2 = 0 := by linarith
      exact sub_eq_zero.1 (pow_eq_zero_iff (two_ne_zero)|>.1 this)
    exact Real.injOn_cos ⟨hw, hwπ⟩ ⟨h0.le, h0π.le⟩ hc
  · rintro rfl
    have : α * Real.sin w ≠ 0 := (mul_pos hα (Real.sin_pos_of_pos_of_lt_pi h0 h0π)).ne'
    rw [sub_self, zero_pow two_ne_zero, zero_add, div_self (pow_ne_zero 2 this)]

/-- R152: the zeros at DC and Nyquist. -/
theorem response_zeros (α w0 : ℝ) : response α w0 0 = 0 ∧ response α w0 Real.pi = 0 := by
  simp [response]

end Sys2Proof.Exact
end

