-- ==== Sys2Proof/Tests/Slice0.lean ====
section
/-! SUPPORT. Tests whose expected values come from the spec (30_encoding.md; the vectors V<n> and programs P<n> of
95_test_vectors.md), and for each statement with hypotheses a witness that meets them. -/

namespace Sys2Proof.Tests

open Sys2Proof.Machine Sys2Proof.Claims

-- One theorem at a time: the kernel evaluations of many tests at once take too much memory.
set_option Elab.async false

/-! ## Helpers -/

/-- Reset with other register values. -/
def withRegs (g : Regs) : State := { State.reset with regs := g }

/-- A property of the next state; false at a stop. -/
def after (o : Host.Outcome State Fault Refusal) (p : State → Bool) : Bool :=
  match o with
  | .next t => p t
  | .fault _ | .refused _ => false

/-- Accept the word and let the engine complete it: exactly one step. -/
def command (s : State) (w : Nat) (p : State → Bool) : Bool := after (step (s.withFetchWord 64 w)) p

/-- STATUS reads as `v`. -/
def reads (v : Word) (t : State) : Bool := t.status.toWord == v

/-- FS = 8, DUR = 0.25 (two samples), FUND_HZ as given. -/
def tone (f : Word) : State := withRegs { Regs.reset with fundHz := f, fs := 0x4020000000000000#64, dur := 0x3FD0000000000000#64 }

/-- FS = 8, DUR = 1, FUND_HZ = 1: eight samples (P1). -/
def eight : State := withRegs { Regs.reset with
  fundHz := 0x3FF0000000000000#64, fs := 0x4020000000000000#64, dur := 0x3FF0000000000000#64 }

/-- FC and Q as given, FS = 44100. -/
def designer (fc q : Word) : State := withRegs { Regs.reset with fc := fc, q := q }

/-- Coefficients B, A1, A2 with A0 = 1, and X written. -/
def biquad (b0 b1 b2 a1 a2 : Word) (xs : List Word) : State :=
  (withRegs { Regs.reset with
    b0 := b0, b1 := b1, b2 := b2, a0 := fone, a1 := a1, a2 := a2, xLen := BitVec.ofNat 64 xs.length }).setElems .x 0 xs

/-- The unity filter with FS = 8 and NPOINTS = p. -/
def evaluator (p : Word) : State := withRegs { Regs.reset with
  b0 := 0x3FF0000000000000#64, a0 := 0x3FF0000000000000#64, fs := 0x4020000000000000#64, npoints := p }

/-- Reset with steps still to come. -/
def script (is : List Input) : State := { State.reset with inputs := is }

/-- A command word pending, and steps still to come. -/
def pending (w : Word) (is : List Input) : State := { State.reset.accept w with inputs := is }

/-! ## WellFormed: one ill-formed command word for each check -/

theorem test_wf_refuses_rsv : (splitWord 0x41#64).rsvOk = false ∧ (splitWord 0x41#64).wf = false := by decide
theorem test_wf_refuses_op : (splitWord 0x05#64).opOk = false ∧ (splitWord 0x05#64).wf = false := by decide
theorem test_wf_refuses_kind : (splitWord 0x12#64).kindOk = false ∧ (splitWord 0x12#64).wf = false := by decide

/-! ## Decode: words written out from RSV [63:6], KIND [5:4], OP [3:0] (R101 to R103), and V51 -/

theorem test_decode_genSine : decode (0#58 ++ 0b00#2 ++ 0b0001#4) = .ok .genSine := by decide
theorem test_decode_genSaw : decode (0#58 ++ 0b01#2 ++ 0b0001#4) = .ok .genSaw := by decide
theorem test_decode_genSquare : decode (0#58 ++ 0b10#2 ++ 0b0001#4) = .ok .genSquare := by decide
theorem test_decode_genUnknownKind : decode (0#58 ++ 0b11#2 ++ 0b0001#4) = .ok .genUnknownKind := by decide
theorem test_decode_design : decode (0#58 ++ 0b00#2 ++ 0b0010#4) = .ok .design := by decide
theorem test_decode_filter : decode (0#58 ++ 0b00#2 ++ 0b0011#4) = .ok .filter := by decide
theorem test_decode_eval : decode (0#58 ++ 0b00#2 ++ 0b0100#4) = .ok .eval := by decide
theorem test_decode_illegal :
    decode 0x0#64 = .error .opIllegal ∧ decode 0x5#64 = .error .opIllegal ∧ decode 0xF#64 = .error .opIllegal ∧
    decode 0x12#64 = .error .kindNonzero ∧ decode 0x33#64 = .error .kindNonzero ∧
    decode 0x41#64 = .error .rsvNonzero ∧ decode 0x8000000000000004#64 = .error .rsvNonzero := by decide
theorem test_encode_words : encode .genSquare = 0x21#64 ∧ encode .eval = 0x04#64 := by decide
theorem test_decodeTableWord : decodeTableWord 64 0x31 = some .genUnknownKind ∧ decodeTableWord 64 0x13 = none := by decide

/-! ## Arithmetic: R11 to R16, R20 -/

/-- 0.1 + 0.2 = 0.30000000000000004 and the largest finite value plus itself is infinite. -/
theorem test_fadd : fadd 0 0x3FB999999999999A#64 0x3FC999999999999A#64 = 0x3FD3333333333334#64 ∧
    fadd 0 0x7FEFFFFFFFFFFFFF#64 0x7FEFFFFFFFFFFFFF#64 = finf := by decide +kernel
/-- 1/3, and a subnormal result kept: 2^-1022 / 2 = 2^-1023. -/
theorem test_fdiv : fdiv 0 fone 0x4008000000000000#64 = 0x3FD5555555555555#64 ∧
    fdiv 0 0x0010000000000000#64 ftwo = 0x0008000000000000#64 := by decide +kernel
/-- R21: TWO_PI64, HALF_PI64 and RAD2DEG64 are computed from PI64 as the table says. -/
theorem test_constants : fmul 0 ftwo pi64 = twoPi64 ∧ fdiv 0 pi64 ftwo = halfPi64 ∧
    fdiv 0 0x4066800000000000#64 pi64 = rad2deg64 := by decide +kernel
/-- R16: roundHalfEven of 2.5, 3.5 and -0.4. -/
theorem test_roundHalfEven : roundHalfEven 0x4004000000000000#64 = 2 ∧ roundHalfEven 0x400C000000000000#64 = 4 ∧
    roundHalfEven 0xBFD999999999999A#64 = 0 := by decide +kernel

/-! ## The commands -/

/-- V3. -/
theorem test_genSaw_V3 : command eight 0x11 (fun t => reads 0x1102#64 t && t.regs.xLen == 8#64 &&
    t.elems .x 8 == [0xBFF0000000000000#64, 0xBFE8000000000000#64, 0xBFE0000000000000#64, 0xBFD0000000000000#64,
      0x0000000000000000#64, 0x3FD0000000000000#64, 0x3FE0000000000000#64, 0x3FE8000000000000#64]) = true := by
  decide +kernel
/-- V6: the one case where the ramp reaches +1. -/
theorem test_genSaw_V6 : command (withRegs { Regs.reset with fundHz := 0xBBC79CA10C924223#64, fs := fone }) 0x11
    (fun t => t.elems .x 2 == [0xBFF0000000000000#64, 0x3FF0000000000000#64]) = true := by decide +kernel
/-- V9. -/
theorem test_genSine_V9 : command (tone fzero) 0x01 (fun t => reads 0x0102#64 t && t.regs.xLen == 2#64 &&
    t.elems .x 2 == [fzero, fzero]) = true := by decide +kernel
/-- V12: FS = 0 is FS_INVALID. -/
theorem test_genSine_V12 : command (withRegs { Regs.reset with fs := fzero }) 0x01 (reads 0x0156#64) = true := by decide +kernel
/-- V9, and V8: X[0] is +0.0 for a negative frequency too. -/
theorem test_genSquare_V9 : command (tone fzero) 0x21 (fun t => reads 0x2102#64 t && t.elems .x 2 == [fzero, fzero]) = true ∧
    command (tone fminusOne) 0x21 (fun t => t.elem .x 0 == 0#64) = true := by decide +kernel
/-- V11: a product that is a tie goes to the even count; 131073 samples do not fit. -/
theorem test_genSquare_V11 :
    command (withRegs { Regs.reset with fs := fone, dur := 0x4004000000000000#64 }) 0x21 (fun t => t.regs.xLen == 2#64) = true ∧
    command (withRegs { Regs.reset with fs := 0x4100000800000000#64, dur := fone }) 0x21 (reads 0x2166#64) = true := by
  decide +kernel
/-- V13: UNKNOWN_KIND wins over FS_INVALID. -/
theorem test_genUnknownKind_V13 : command (withRegs { Regs.reset with fs := fzero }) 0x31 (reads 0x3116#64) = true := by decide
/-- V27: w0 underflows to +0. -/
theorem test_design_V27 : command (designer 0x0000000000000001#64 fone) 0x02 (fun t => reads 0x0202#64 t &&
    t.regs.coeffs == Coeffs.mk 0#64 0#64 0x8000000000000000#64 0x3FF0000000000000#64 0xC000000000000000#64
      0x3FF0000000000000#64) = true := by decide +kernel
/-- V23, V24, V25: the checks and their order. -/
theorem test_design_V25 : command (designer fzero fzero) 0x02 (reads 0x0236#64) = true ∧
    command (designer 0x40D5888000000000#64 0x4024000000000000#64) 0x02 (reads 0x0236#64) = true ∧
    command (designer 0x408F400000000000#64 finf) 0x02 (reads 0x0226#64) = true := by decide +kernel
/-- V33. -/
theorem test_filter_V33 : command (biquad fone ftwo fone fminusOne 0x3FD0000000000000#64 [fone, fzero, fzero, fzero, fzero]) 0x03
    (fun t => reads 0x0302#64 t && t.regs.yLen == 5#64 && t.elems .y 5 == [0x3FF0000000000000#64, 0x4008000000000000#64,
      0x400E000000000000#64, 0x4008000000000000#64, 0x4000800000000000#64]) = true := by decide +kernel
/-- V37: given the coefficient bits of V22 the result bits are exact. -/
theorem test_filter_V37 : command (biquad 0x3F7CE01C1D0406D7#64 0x0#64 0xBF7CE01C1D0406D7#64 0xBFFF73D421D47016#64
    0x3FEF8C7F8F8BEFE4#64 [fone, fzero, fzero, fzero, fzero]) 0x03
    (fun t => t.elems .y 5 == [0x3F7CE01C1D0406D7#64, 0x3F8C61A00C653C30#64, 0x3F8B1E9C985CF408#64,
      0x3F895473B0B16FD8#64, 0x3F870E453E8FA46D#64]) = true := by decide +kernel
/-- V39, the grid. -/
theorem test_eval_V39 : command (evaluator 3#64) 0x04 (fun t => reads 0x0402#64 t && t.regs.respLen == 3#64 &&
    t.elems .freq 3 == [0x0000000000000000#64, 0x4000000000000000#64, 0x4010000000000000#64]) = true := by decide +kernel
/-- V43: 8193 points do not fit; COEFF_MALFORMED comes first. -/
theorem test_eval_V43 : command (evaluator 8193#64) 0x04 (reads 0x0466#64) = true ∧
    command (withRegs { Regs.reset with fs := fzero, npoints := 9000#64 }) 0x04 (reads 0x0446#64) = true := by decide +kernel

/-! ## STATUS and the bus -/

/-- V52: after 0x0076, a write of 2 leaves 0x0074 and then a write of 4 leaves 0. -/
theorem test_status_V52 :
    let t := (State.reset.accept 0#64).finish .illegalCmd
    t.status.toWord = 0x0076#64 ∧ (t.status.clear 2#64).toWord = 0x0074#64 ∧
      ((t.status.clear 2#64).clear 4#64).toWord = 0#64 := by decide
/-- V53 and P5 (schedule B): a dropped write leaves OVR, so GEN.SAW ends at 0x110A; a write of 8 clears OVR. -/
theorem test_ovr_V53 :
    let t := ((State.reset.accept 0x11#64).submit 0x03#64).finish .none
    t.status.toWord = 0x110A#64 ∧ (t.status.clear 8#64).toWord = 0x1102#64 := by decide
/-- V54: the edges of the regions. -/
theorem test_map_V54 : locate 0x1FFFF8 = .elem .x 131071 ∧ locate 0x200000 = .elem .y 0 ∧
    locate 0x310000 = .elem .mag 0 ∧ locate 0x330000 = .reserved ∧ locate 0x078 = .reserved := by decide
/-- V55: byte 0 and byte 7 of 1.0. -/
theorem test_bytes_V55 : byteOfWord fone 0 = 0x00#8 ∧ byteOfWord fone 7 = 0x3F#8 := by decide
/-- R76: a narrow, a misaligned and an outside access are not admitted. -/
theorem test_admitted : admitted 0x20 4 = false ∧ admitted 0x24 8 = false ∧ admitted 0x400000 8 = false ∧
    admitted 0x3FFFF8 8 = true := by decide

/-! ## Witnesses: concrete values that meet the hypotheses of each statement -/

theorem witness_IllegalWordsByGround : (∃ e, decode 0x41#64 = .error e) ∧ (∃ e, decode 0x0#64 = .error e) ∧
    (∃ e, decode 0xF#64 = .error e) ∧ (∃ e, decode 0x12#64 = .error e) ∧ (∃ e, decode 0x34#64 = .error e) :=
  ⟨⟨.rsvNonzero, by decide⟩, ⟨.opIllegal, by decide⟩, ⟨.opIllegal, by decide⟩, ⟨.kindNonzero, by decide⟩,
    ⟨.kindNonzero, by decide⟩⟩

theorem witness_IllegalCommandCompletes :
    (EngineNext (pending 0x0#64 []) [] ∧ (pending 0x0#64 []).status.busy = true ∧
      decode (pending 0x0#64 []).pend = .error .opIllegal) ∧
    (EngineNext (pending 0x41#64 [.engine, .reset]) [.reset] ∧ decode (pending 0x41#64 [.engine, .reset]).pend = .error .rsvNonzero) :=
  ⟨⟨.inr ⟨rfl, rfl⟩, rfl, by decide⟩, .inl rfl, by decide⟩

theorem witness_ResetInputAbandonsCommand :
    (pending 0x11#64 [.reset, .engine]).inputs = .reset :: [.engine] ∧ (pending 0x11#64 [.reset, .engine]).status.busy = true := by
  decide

theorem sound_reset (g : Regs) (t : Status) (p : Word) (is : List Input) :
    ({ State.reset with regs := g, status := t, pend := p, inputs := is }).mem.Sound :=
  ⟨.nil, by simp [State.reset]⟩

theorem witness_StepKeepsInvariant : (pending 0x31#64 []).Inv ∧ (after (step (pending 0x31#64 [])) fun _ => true) = true :=
  ⟨⟨sound_reset _ _ _ _, ⟨by decide, by decide⟩, by decide, by decide, by decide, by decide⟩, by decide⟩

theorem witness_ObedientHostNeverStuck : (script [.write 0x3FFFF8 8 5#64, .read 0 8, .engine, .reset]).hostObeys := by
  unfold State.hostObeys
  decide

theorem witness_StuckExactlyAtUnadmittedAccess :
    (script [.read 0x24 8]).inputs = [.read 0x24 8] ∧ ¬(8 = 8 ∧ 0x24 % 8 = 0 ∧ 0x24 < 2 ^ 22) ∧
    (script [.write 0x400000 8 0#64]).inputs = [.write 0x400000 8 0#64] ∧ ¬(8 = 8 ∧ 0x400000 % 8 = 0 ∧ 0x400000 < 2 ^ 22) ∧
    (after (step (script [.read 0x20 4])) fun _ => true) = false ∧ (after (step (script [.read 0x3FFFF8 8])) fun _ => true) = true := by
  decide

theorem witness_StepRunsPendingCommand : EngineNext (pending 0x02#64 []) [] ∧ (pending 0x02#64 []).status.busy = true ∧
    decode (pending 0x02#64 []).pend = .ok .design ∧ EngineNext (pending 0x02#64 [.engine]) [] :=
  ⟨.inr ⟨rfl, rfl⟩, rfl, by decide, .inl rfl⟩

theorem witness_IdleEngineKeepsState : EngineNext State.reset [] ∧ State.reset.status.busy = false ∧
    EngineNext (script [.engine, .reset]) [.reset] := ⟨.inr ⟨rfl, rfl⟩, rfl, .inl rfl⟩

theorem witness_AcceptedCommandCompletes :
    (pending 0x03#64 [.read 0x018 8, .engine]).status.busy = true ∧ (pending 0x03#64 [.read 0x018 8, .engine]).hostObeys ∧
    (∀ i ∈ (pending 0x03#64 [.read 0x018 8, .engine]).inputs, i ≠ .reset) := by
  unfold State.hostObeys
  decide

/-- GEN: 8 samples, none, and exactly BUF_DEPTH. -/
theorem witness_SampleCount : SampleCount eight 8 ∧
    SampleCount (withRegs { Regs.reset with dur := fzero }) 0 ∧
    SampleCount (withRegs { Regs.reset with fs := 0x4100000000000000#64, dur := fone }) 131072 := by
  unfold SampleCount
  decide +kernel

/-- GEN: FS = +inf and FS = 0; a product that is infinite, below 0, and one above BUF_DEPTH. -/
theorem witness_GenChecksInOrder :
    isFinite finf = false ∧ fgt fzero fzero = false ∧ isFinite fone = true ∧ fgt fone fzero = true ∧
    isFinite (fmul (eight.nanAt 0 0) fone finf) = false ∧
    roundHalfEven (fmul (eight.nanAt 0 0) fone 0xBFE3333333333333#64) < 0 ∧
    131072 < roundHalfEven (fmul (eight.nanAt 0 0) 0x4100000800000000#64 fone) := by decide +kernel

theorem witness_GenUnknownKindRaises : State.reset.status.ovr = false ∧
    (after (exec .genUnknownKind (State.reset.accept 0x31#64)) fun _ => true) = true := by decide

theorem witness_FirstSamples : SampleCount eight 8 ∧ 0 < 8 ∧ isFinite eight.regs.fundHz = true ∧
    isFinite (fmul (eight.nanAt 1 0) twoPi64 eight.regs.fundHz) = true ∧ isFinite eight.regs.ampl = true := by
  unfold SampleCount
  decide +kernel

/-- The last sample, where the argument is largest. -/
theorem witness_SampleBounds : SampleCount eight 8 ∧ 7 < 8 ∧
    (let d := eight.nanAt 8
     isFinite (fmul (d 2) (fmul (d 0) twoPi64 eight.regs.fundHz) (fdiv (d 1) (i2f 7) eight.regs.fs)) = true ∧
     isFinite (fmul (d 1) eight.regs.fundHz (fdiv (d 0) (i2f 7) eight.regs.fs)) = true ∧
     fle fzero (fmul (d 1) eight.regs.fundHz (fdiv (d 0) (i2f 7) eight.regs.fs)) = true) ∧
    isFinite eight.regs.ampl = true := by
  unfold SampleCount
  decide +kernel

/-- An address just below X, the first byte after the eight samples, and an error that leaves them all alone. -/
theorem witness_GenFrame :
    (after (exec .genSaw eight) fun t => decide (Buf.addr .x t.regs.xLen.toNat ≤ 0x100040) && !t.status.err) = true ∧
    0xFFFFF < Buf.addr .x 0 ∧
    (after (exec .genUnknownKind eight) fun t => t.status.err) = true := by decide +kernel

theorem witness_DesignCompletes :
    ∀ fc ∈ [0x40C5888000000000#64, 0x40D5887FFFFFFFFF#64, 0x0000000000000001#64], ∀ s, s = designer fc 0x4024000000000000#64 →
      isFinite s.regs.fs = true ∧ fgt s.regs.fs fzero = true ∧ fgt s.regs.fc fzero = true ∧
      flt s.regs.fc (fdiv (s.nanAt 0 0) s.regs.fs ftwo) = true ∧ fgt s.regs.q fzero = true ∧ isFinite s.regs.q = true := by
  intro fc hfc s hs
  simp only [List.mem_cons, List.not_mem_nil, or_false] at hfc
  rcases hfc with rfl | rfl | rfl <;> subst hs <;> decide +kernel

theorem witness_DesignChecksInOrder :
    (isFinite (0x7FF8000000000000#64 : Word) = false) ∧ fgt fzero fzero = false ∧
    (let s := designer 0x40D5888000000000#64 fzero
     isFinite s.regs.fs = true ∧ fgt s.regs.fs fzero = true ∧ fgt s.regs.fc fzero = true ∧
       flt s.regs.fc (fdiv (s.nanAt 0 0) s.regs.fs ftwo) = false) ∧
    (let s := designer 0x408F400000000000#64 finf
     fgt s.regs.fc fzero = true ∧ flt s.regs.fc (fdiv (s.nanAt 0 0) s.regs.fs ftwo) = true ∧ isFinite s.regs.q = false) := by
  decide +kernel

theorem witness_DesignB2MirrorsB0 :
    (after (exec .design (designer 0x0000000000000001#64 fone)) fun t => !t.status.err && !isNaN t.regs.b0) = true := by decide +kernel

theorem witness_DesignFrame : (after (exec .design (designer 0x0000000000000001#64 fone)) fun t => !t.status.err) = true ∧
    (after (exec .design State.reset) fun t => t.status.err) = true ∧ Reg.fc ∉ [Reg.b0, .b1, .b2, .a0, .a1, .a2] := by decide +kernel

/-- FILTER: five samples, none, and exactly BUF_DEPTH. -/
theorem witness_FilterCompletes :
    ∀ n ∈ [0#64, 5#64, 131072#64], ∀ s, s = withRegs { Regs.reset with a0 := 0x3FF0000000000000#64, xLen := n } →
      s.regs.a0 = 0x3FF0000000000000#64 ∧ s.regs.xLen.toNat ≤ 131072 := by
  intro n hn s hs
  simp only [List.mem_cons, List.not_mem_nil, or_false] at hn
  rcases hn with rfl | rfl | rfl <;> subst hs <;> decide

theorem witness_FilterChecksInOrder : State.reset.regs.a0 ≠ 0x3FF0000000000000#64 ∧
    (let s := withRegs { Regs.reset with a0 := 0x3FF0000000000000#64, xLen := 131073#64 }
     s.regs.a0 = 0x3FF0000000000000#64 ∧ 131072 < s.regs.xLen.toNat) := by decide

/-- V36: a NaN sample, and an infinite one. -/
theorem witness_FilterNonFinitePropagates :
    (let s := biquad fone 0#64 0#64 0#64 0#64 [0x7FF8000000000000#64, finf, ftwo]
     s.regs.a0 = 0x3FF0000000000000#64 ∧ s.regs.xLen.toNat ≤ 131072 ∧ 1 < s.regs.xLen.toNat ∧
       isNaN (s.elem .x 0) = true ∧ isFinite (s.elem .x 1) = false) := by decide +kernel

/-- Two states that differ in FS and in the draw counter, with the same operands of FILTER. -/
theorem witness_FilterDeterministic :
    let s := biquad fone 0#64 0#64 0#64 0#64 [fone, ftwo]
    let s' := { s with regs := { s.regs with fs := 0#64 }, draws := 7 }
    s.regs.a0 = 0x3FF0000000000000#64 ∧ s'.regs.a0 = 0x3FF0000000000000#64 ∧ s.regs.xLen = s'.regs.xLen ∧
      s.regs.xLen.toNat ≤ 131072 ∧ (∀ k < s.regs.xLen.toNat, s.elem .x k = s'.elem .x k) ∧ s ≠ s' := by decide +kernel

theorem witness_FilterFrame :
    (after (exec .filter (biquad fone 0#64 0#64 0#64 0#64 [fone, ftwo])) fun t => !t.status.err) = true ∧
    0x1FFFFF < Buf.addr .y 0 ∧ Buf.addr .y 2 ≤ 0x200010 ∧ (after (exec .filter State.reset) fun t => t.status.err) = true := by
  decide +kernel

/-- EVAL: no point, one, two, and exactly RESP_DEPTH. -/
theorem witness_EvalCompletes :
    ∀ p ∈ [0#64, 1#64, 2#64, 8192#64], ∀ s, s = evaluator p →
      s.regs.a0 = 0x3FF0000000000000#64 ∧ isFinite s.regs.fs = true ∧ fgt s.regs.fs fzero = true ∧ s.regs.npoints.toNat ≤ 8192 := by
  intro p hp s hs
  simp only [List.mem_cons, List.not_mem_nil, or_false] at hp
  rcases hp with rfl | rfl | rfl | rfl <;> subst hs <;> decide

theorem witness_EvalChecksInOrder : State.reset.regs.a0 ≠ 0x3FF0000000000000#64 ∧
    ((evaluator 8193#64).regs.a0 = 0x3FF0000000000000#64 ∧ isFinite (evaluator 8193#64).regs.fs = true ∧
      fgt (evaluator 8193#64).regs.fs fzero = true ∧ 8192 < (evaluator 8193#64).regs.npoints.toNat) ∧
    fgt fminusOne fzero = false := by decide

theorem witness_EvalFrame : (after (exec .eval (evaluator 1#64)) fun t => !t.status.err) = true ∧
    (∀ b ∈ [Buf.freq, .mag, .phase], 0x300008 < Buf.addr b 0 ∨ Buf.addr b 1 ≤ 0x300008) ∧
    (after (exec .eval State.reset) fun t => t.status.err) = true := by decide +kernel

theorem witness_ErrorWritesOnlyStatus : (after (exec .filter State.reset) fun t => t.status.err) = true ∧
    EngineNext (pending 0x0#64 []) [] ∧ (pending 0x0#64 []).status.busy = true ∧
    (after (step (pending 0x0#64 [])) fun t => t.status.err) = true := ⟨by decide, .inr ⟨rfl, rfl⟩, rfl, by decide⟩

theorem witness_UnreadOperandsHaveNoEffect : Instr.genSaw ≠ .genSine ∧ Instr.filter = .filter := by decide

theorem witness_CmdWriteAcceptedOrDropped :
    (script [.write 0x010 8 0x11#64]).inputs = .write 0x010 8 0x11#64 :: [] ∧ (script [.write 0x010 8 0x11#64]).status.busy = false ∧
    (pending 0x11#64 [.write 0x010 8 0x03#64]).status.busy = true := by decide

theorem witness_StatusWriteClearsFieldByField :
    (pending 0x11#64 [.write 0x018 8 0xE#64]).inputs = .write 0x018 8 0xE#64 :: [] ∧
    (pending 0x11#64 [.write 0x018 8 0xE#64]).status.busy = true ∧ (pending 0x11#64 [.write 0x018 8 0xE#64]).status.Sound :=
  ⟨rfl, rfl, by decide, by decide⟩

/-- A dropped write of the last X element, and an ignored write of the first Y element. -/
theorem witness_WriteWhileBusyDropped :
    (pending 0x11#64 [.write 0x1FFFF8 8 1#64]).status.busy = true ∧ 0x1FFFF8 % 8 = 0 ∧ 0x1FFFF8 < 2 ^ 22 ∧ 0x1FFFF8 ≠ 0x018 ∧
    RwLocation 0x1FFFF8 ∧ RwLocation 0x0A8 ∧ ¬(0x200000 = 0x010 ∨ RwLocation 0x200000) ∧ ¬(0x068 = 0x010 ∨ RwLocation 0x068) := by
  simp [RwLocation, RwRegister, pending]

theorem witness_RegisterWriteThenRead : RwRegister 0x020 ∧ RwRegister 0x0A8 ∧
    (script [.write 0x020 8 5#64, .read 0x020 8]).status.busy = false ∧
    (script [.write 0x020 8 5#64, .read 0x020 8]).inputs = .write 0x020 8 5#64 :: .read 0x020 8 :: [] ∧
    0x028 % 8 = 0 ∧ 0x028 < 2 ^ 22 ∧ 0x028 ≠ 0x020 := by
  simp [RwRegister, script, State.reset, Status.reset]

/-- The first and the last element. -/
theorem witness_XWriteThenRead : 131071 < 131072 ∧
    (script [.write (0x100000 + 8 * 131071) 8 5#64, .read (0x100000 + 8 * 131071) 8]).inputs =
      .write (0x100000 + 8 * 131071) 8 5#64 :: .read (0x100000 + 8 * 131071) 8 :: [] ∧
    (script [.write (0x100000 + 8 * 0) 8 5#64, .read (0x100000 + 8 * 0) 8]).status.busy = false := by decide

theorem witness_ReadOnlyWritesIgnored : (script [.write 0x200000 8 5#64]).status.busy = false ∧ 0x200000 % 8 = 0 ∧
    0x200000 < 2 ^ 22 ∧ ¬(0x200000 = 0x010 ∨ 0x200000 = 0x018 ∨ RwLocation 0x200000) ∧
    ¬(0x0B0 = 0x010 ∨ 0x0B0 = 0x018 ∨ RwLocation 0x0B0) := by
  simp [RwLocation, RwRegister, script, State.reset, Status.reset]

/-- Each clause at the edges of its range: STATUS, the first and last registers, the first and last element of each buffer,
and an offset outside them all. -/
theorem witness_ReadsHaveNoSideEffect :
    ∀ off ∈ [0x018, 0x020, 0x0A8, 0x100000, 0x1FFFF8, 0x200000, 0x2FFFF8, 0x300000, 0x30FFF8, 0x310000, 0x31FFF8, 0x320000,
        0x32FFF8, 0x3FFFF8],
      (script [.read off 8]).inputs = .read off 8 :: [] ∧ off % 8 = 0 ∧ off < 2 ^ 22 ∧ (script [.read off 8]).status.busy = false := by
  decide

/-- What an idle read answers (R74): STATUS with OVR set, Y_LEN, and an element of Y, FREQ, MAG and PHASE each. -/
theorem test_idleRead :
    let s := (((((withRegs { Regs.reset with yLen := 5#64 }).dropWrite.setElems .y 2 [fone]).setElems .freq 0 [ftwo]).setElems
      .mag 0 [pi64]).setElems .phase 8191 [finf])
    ∀ p ∈ [(0x018, 0x8#64), (0x068, 5#64), (0x200010, fone), (0x300000, ftwo), (0x310000, pi64), (0x32FFF8, finf)],
      (after (step { s with inputs := [.read p.1 8] }) fun t => t.rdata == some p.2) = true := by decide +kernel

/-- Each clause at the edges of its range. -/
theorem witness_FixedLocationsRead : ∀ off ∈ [0x000, 0x008, 0x010, 0x078, 0x0B0, 0x0FFFF8, 0x330000, 0x3FFFF8],
    (script [.read off 8]).inputs = .read off 8 :: [] ∧ off % 8 = 0 ∧ off < 2 ^ 22 := by decide

/-- V56: a FILTER over four samples is pending; Y[3] and Y_LEN are in its output set, Y[4] and X[0] are not. -/
theorem witness_ReadWhileBusy :
    let s := { (biquad fone 0#64 0#64 0#64 0#64 [fone, fone, fone, fone]).accept 0x03#64 with inputs := [.read 0x200018 8] }
    s.status.busy = true ∧ InPendingOutput s 0x200018 ∧ InPendingOutput s 0x068 ∧ ¬InPendingOutput s 0x200020 ∧
      ¬InPendingOutput s 0x100000 := by
  have hd : decode 0x03#64 = .ok .filter := by decide
  refine ⟨rfl, ⟨.filter, hd, .inr ?_⟩, ⟨.filter, hd, .inl rfl⟩, ?_, ?_⟩ <;>
    simp [InPendingOutput, InOutputSet, biquad, withRegs, State.setElems, State.accept, hd]

/-- An illegal word is pending: nothing is in its output set. -/
theorem witness_ReadWhileBusy_illegal :
    let s := pending 0x05#64 [.read 0x200018 8]
    s.status.busy = true ∧ s.inputs = .read 0x200018 8 :: [] ∧ ¬InPendingOutput s 0x200018 := by
  have hd : decode 0x05#64 = .error .opIllegal := by decide
  refine ⟨rfl, rfl, ?_⟩
  rintro ⟨i, hi, -⟩
  rw [show (pending 0x05#64 [.read 0x200018 8]).pend = 0x05#64 from rfl, hd] at hi
  cases hi

theorem witness_OperandsFixedWhileBusy :
    (pending 0x11#64 [.write 0x028 8 5#64]).status.busy = true ∧
    (after (step (pending 0x11#64 [.write 0x028 8 5#64])) fun t => t.status.ovr) = true ∧
    (after (step (pending 0x11#64 [.read 0x028 8])) fun _ => true) = true := by decide

/-- OVR is set by a dropped write, cleared by a write of 8 to STATUS, and cleared by reset. -/
theorem witness_OvrIsSticky :
    (after (step (pending 0x11#64 [.write 0x028 8 5#64])) fun t => t.status.ovr) = true ∧
    (after (step (pending 0x11#64 [.write 0x018 8 8#64]).dropWrite) fun t => !t.status.ovr) = true ∧
    (after (step (pending 0x11#64 [.reset]).dropWrite) fun t => !t.status.ovr) = true := by decide

/-- A step that writes X: a host write, and a GEN.SAW (V9: -1.0 replaces 1.0). -/
theorem witness_WhoWritesTheBuffers :
    (let s := { (tone fzero).setElems .x 0 [fone] with inputs := [.write 0x100000 8 ftwo] }
     (after (step s) fun t => t.elem .x 0 != s.elem .x 0) = true ∧ ∀ rest, s.inputs ≠ .reset :: rest) ∧
    (let s := ((tone fzero).setElems .x 0 [fone]).withFetchWord 64 0x11
     (after (step s) fun t => t.elem .x 0 != s.elem .x 0) = true ∧ ∀ rest, s.inputs ≠ .reset :: rest) := by
  refine ⟨⟨by decide +kernel, by simp⟩, by decide +kernel, by simp [State.withFetchWord, State.withCommand]⟩

/-- A FILTER that changes Y[0], and an EVAL that changes FREQ[0]. -/
theorem witness_WhoWritesTheBuffers_results :
    command ((biquad ftwo 0#64 0#64 0#64 0#64 [fone]).setElems .y 0 [fone]) 0x03 (fun t => t.elem .y 0 == ftwo) = true ∧
    command ((evaluator 1#64).setElems .freq 0 [fone]) 0x04 (fun t => t.elem .freq 0 == fzero) = true := by decide +kernel

theorem witness_EngineKeepsParameters : EngineNext (pending 0x11#64 []) [] ∧
    (after (step (pending 0x31#64 [])) fun _ => true) = true := ⟨.inr ⟨rfl, rfl⟩, by decide⟩

/-- A nonzero and a zero sum and difference; infinities of one sign and of both. -/
theorem witness_FaddCorrectlyRounded : isFinite fone = true ∧ isFinite fminusOne = true ∧ units fone + units fone ≠ 0 ∧
    units fone + units fminusOne = 0 ∧ units fone - units fminusOne ≠ 0 ∧ units fone - units fone = 0 ∧
    isInf finf = true ∧ isInf 0xFFF0000000000000#64 = true ∧ fsign finf ≠ fsign 0xFFF0000000000000#64 ∧ isNaN finf = false := by
  decide +kernel

theorem witness_FmulCorrectlyRounded : isFinite 0x7FEFFFFFFFFFFFFF#64 = true ∧ isFinite 0x0000000000000001#64 = true ∧
    isInf finf = true ∧ isNaN finf = false ∧ isNaN fzero = false ∧ fmag fzero = 0 ∧ fmag finf ≠ 0 ∧ fmag fone ≠ 0 := by decide

theorem witness_FdivCorrectlyRounded : isFinite fone = true ∧ fmag fone ≠ 0 ∧ isFinite fzero = true ∧ fmag fzero = 0 ∧
    isInf finf = true := by decide

/-- A NaN, an invalid operation, and the finite words at the edges of the order. -/
theorem witness_NaNResultsAreQuiet : isNaN 0x7FF0000000000001#64 = true ∧ isNaN (fdiv 0 fzero fzero) = true ∧
    isFinite 0x7FEFFFFFFFFFFFFF#64 = true ∧ isFinite 0xFFEFFFFFFFFFFFFF#64 = true ∧ isFinite 0x8000000000000000#64 = true ∧
    isInf 0xFFF0000000000000#64 = true := by decide +kernel

theorem witness_FmodExact : isFinite fone = true ∧ fmag fone ≠ 0 ∧ isFinite finf = false ∧ fmag (0x8000000000000000#64) = 0 ∧
    isNaN finf = false := by decide

theorem witness_IntegerConversionExact : 2 ^ 53 - 1 < 2 ^ 53 := by decide

/-- A tie. -/
theorem witness_RoundHalfEvenNearest : isFinite 0x4004000000000000#64 = true ∧
    |roundHalfEven 0x4004000000000000#64 * 2 ^ 1074 - units 0x4004000000000000#64| =
      |3 * 2 ^ 1074 - units 0x4004000000000000#64| := by decide +kernel

theorem witness_NumLaws : fmag fzero = 0 ∧ fmag 0x8000000000000000#64 = 0 ∧ isFinite pi64 = true ∧ isFinite finf = false ∧
    isNaN 0x7FF8000000000000#64 = true ∧ isInf finf = true ∧ fgt fone fzero = true ∧ fle fzero pi64 = true ∧
    fle pi64 pi64 = true ∧ isNaN fone = false := by decide

theorem witness_SgnAndFmaxn : fgt fone fzero = true ∧ flt fminusOne fzero = true ∧ fmag 0x8000000000000000#64 = 0 ∧
    isNaN 0x7FF8000000000000#64 = true ∧ fgt fone fminusOne = true ∧ feq fzero 0x8000000000000000#64 = true := by decide

/-- A negative and a positive remainder, a negative remainder so small that the sum rounds to m, and m = +inf. -/
theorem witness_FloormodRange : isFinite twoPi64 = true ∧ fgt twoPi64 fzero = true ∧ isFinite fminusOne = true ∧
    isFinite finf = false ∧ 0 ≤ Int.tmod (units fone) (units twoPi64) ∧
    feq (floormod 0 0 0x8000000000000001#64 fone) fone = true ∧ fgt fone fzero = true ∧ isFinite fone = true ∧
    isInf finf = true ∧ fgt finf fzero = true ∧ flt fminusOne fzero = true ∧ fmag fzero = 0 := by decide +kernel

/-- Log 23, by hand from R191: FS = 18 units of 2^-1074, P = 7: half 9, step 1.5 rounded to 2, so the grid ends 8, 10, 9. -/
theorem test_grid_subnormal : (grid (fun _ _ => 0) 18#64 7).drop 4 = [8#64, 10#64, 9#64] := by decide +kernel

/-- R20: -1 mod 2.0 is 1.0, and a zero remainder is +0.0. -/
theorem test_floormod : floormod 0 0 fminusOne ftwo = fone ∧ floormod 0 0 fminusTwo ftwo = fzero ∧
    floormod 0 0 pi64 fone = 0x3FC21FB54442D180#64 := by decide +kernel

/-! ## R194: the source's scenario, FC = 1000, Q = 10, FS = 44100, NPOINTS = 512 (V22, V44)

The vectors are NUM-dependent, so the theorems take as premises what a host C library's functions answer at the arguments
that occur (95_test_vectors.md, computed outside the model); everything else is computed by the model. -/

/-- NUM has the host library's sine at the arguments of V22 and of V44, k = 22, 23, 24. -/
def HostSin : Prop :=
  Config.rawSin 0x3FC23CA61DCC76A2#64 = 0x3FC22CDEABEC443D#64 ∧
  Config.rawSin 0x3FC15004CC550986#64 = 0x3FC142849E3E41C9#64 ∧
  Config.rawSin 0x3FD15004CC550986#64 = 0x3FD11A29F7519445#64 ∧
  Config.rawSin 0x3FC219796141A13A#64 = 0x3FC20A0C7DC369D8#64 ∧
  Config.rawSin 0x3FD219796141A13A#64 = 0x3FD1DBF52249A345#64 ∧
  Config.rawSin 0x3FC2E2EDF62E38EF#64 = 0x3FC2D167AE199AC1#64 ∧
  Config.rawSin 0x3FD2E2EDF62E38EF#64 = 0x3FD29D0F59A24663#64

/-- NUM has the host library's cosine at the arguments of V22 and of V44, k = 22, 23, 24. -/
def HostCos : Prop :=
  Config.rawCos 0x3FC23CA61DCC76A2#64 = 0x3FEFACFE8CDED93F#64 ∧
  Config.rawCos 0x3FC15004CC550986#64 = 0x3FEFB52ED02B02D2#64 ∧
  Config.rawCos 0x3FD15004CC550986#64 = 0x3FEED6191A556F97#64 ∧
  Config.rawCos 0x3FC219796141A13A#64 = 0x3FEFAE3D02719FF6#64 ∧
  Config.rawCos 0x3FD219796141A13A#64 = 0x3FEEBA95D95615D1#64 ∧
  Config.rawCos 0x3FC2E2EDF62E38EF#64 = 0x3FEFA6FCBB2C7196#64 ∧
  Config.rawCos 0x3FD2E2EDF62E38EF#64 = 0x3FEE9DE2211022DF#64

/-- NUM has the host library's hypot at the arguments of V22 and of V44, k = 22, 23, 24. -/
def HostHypot : Prop :=
  Config.rawHypot 0x3FDE9E93B72BBCCE#64 0x3FDFF85F68112FC8#64 = 0x3FE622498AA76E90#64 ∧
  Config.rawHypot 0x3FEF4790008CD38E#64 0x3FC2FD1A3276122F#64 = 0x3FEFA3419AACAFA9#64 ∧
  Config.rawHypot 0x3FE56CDF36D85D76#64 0xBFDE1AAF83EC966F#64 = 0x3FEA2F238DB19FC4#64

/-- NUM has the host library's log10 at the arguments of V22 and of V44, k = 22, 23, 24. -/
def HostLog10 : Prop :=
  Config.rawLog10 0x3FE622498AA76E90#64 = 0xBFC47DDF9EB1CFE2#64 ∧
  Config.rawLog10 0x3FEFA3419AACAFA9#64 = 0xBF744100765E8D5E#64 ∧
  Config.rawLog10 0x3FEA2F238DB19FC4#64 = 0xBFB64CF43EAD402B#64

/-- NUM agrees with the host library at the arguments of V22 and V44. -/
structure HostNum : Prop where
  sin : HostSin
  cos : HostCos
  hypot : HostHypot
  log10 : HostLog10

/-- The operands of the scenario: FC = 1000, Q = 10; FS = 44100 and NPOINTS = 512 are the reset values. -/
def scenario : State := designer 0x408F400000000000#64 0x4024000000000000#64

/-- After the DESIGN of the scenario: the coefficients of V22, STATUS reading as after a success. -/
def designed : State :=
  { scenario with
    regs := { scenario.regs with
      b0 := 0x3F7CE01C1D0406D7#64, b1 := 0x0000000000000000#64, b2 := 0xBF7CE01C1D0406D7#64
      a0 := 0x3FF0000000000000#64, a1 := 0xBFFF73D421D47016#64, a2 := 0x3FEF8C7F8F8BEFE4#64 }
    status := { Status.reset with done := true }
    draws := 1 }

/-- V22: the six coefficients, bit for bit. -/
theorem test_design_V22 (h : HostNum) : exec .design scenario = .next designed := by
  obtain ⟨hs, -⟩ := h.sin
  obtain ⟨hc, -⟩ := h.cos
  have hw : designW0 (scenario.nanAt 0) scenario.regs.fs scenario.regs.fc = 0x3FC23CA61DCC76A2#64 := by decide +kernel
  have es := numSin_of_lawful (scenario.nanAt 0 3) (x := 0x3FC23CA61DCC76A2#64) (by decide) (by decide) (by rw [hs]; decide)
  have ec := numCos_of_lawful (scenario.nanAt 0 7) (x := 0x3FC23CA61DCC76A2#64) (by decide) (by decide) (by rw [hc]; decide)
  rw [hs] at es
  rw [hc] at ec
  have hr : designCoeffs (scenario.nanAt 0) scenario.regs.fs scenario.regs.fc scenario.regs.q = designed.regs.coeffs := by
    simp only [designCoeffs, hw, designResults, designAlpha, es, ec]
    decide +kernel
  rw [exec_design, designRun, if_neg (by decide +kernel), if_neg (by decide +kernel), if_neg (by decide +kernel), hr]
  rfl

/-- MAG[k] of V44 from its grid point, given the values of NUM on the way. -/
theorem mag_of_values {k : Nat} {f w w2 c1 s1 c2 s2 hr hi m l mag : Word}
    (hw : fdiv (designed.nanAt k 4) (fmul (designed.nanAt k 3) twoPi64 f) designed.regs.fs = w)
    (h7 : fmul (designed.nanAt k 7) ftwo w = w2) (h9 : fmul (designed.nanAt k 9) ftwo w = w2)
    (hs1 : numSin (designed.nanAt k 6) w = s1) (hs2 : numSin (designed.nanAt k 10) w2 = s2)
    (hc1 : numCos (designed.nanAt k 5) w = c1) (hc2 : numCos (designed.nanAt k 8) w2 = c2)
    (hq : quotient (fun j => designed.nanAt k (27 + j))
      (polyRe (fun j => designed.nanAt k (11 + j)) designed.regs.b0 designed.regs.b1 designed.regs.b2 c1 c2)
      (polyIm (fun j => designed.nanAt k (15 + j)) designed.regs.b1 designed.regs.b2 s1 s2)
      (polyRe (fun j => designed.nanAt k (19 + j)) designed.regs.a0 designed.regs.a1 designed.regs.a2 c1 c2)
      (polyIm (fun j => designed.nanAt k (23 + j)) designed.regs.a1 designed.regs.a2 s1 s2) = (hr, hi))
    (hm : numHypot (designed.nanAt k 38) hr hi = m) (hx : fmaxn (designed.nanAt k 39) m eps64 = m)
    (hl : numLog10 (designed.nanAt k 40) m = l) (hg : fmul (designed.nanAt k 41) ftwenty l = mag) :
    magnitudeDb (designed.nanAt k) (transfer (designed.nanAt k) designed.regs.coeffs f designed.regs.fs) = mag := by
  have ht := transfer_eq (c := designed.regs.coeffs) hw hc1 hs1 h7 hc2 h9 hs2
  rw [ht.trans hq, magnitudeDb, hm, hx, hl, hg]

/-- V44, k = 22. -/
theorem mag_22 (h : HostNum) :
    magnitudeDb (designed.nanAt 22) (transfer (designed.nanAt 22) designed.regs.coeffs 0x408DAA8542A150A9#64 designed.regs.fs) =
      0xC0099D57865E43DA#64 := by
  obtain ⟨-, a1, a2, -⟩ := h.sin
  obtain ⟨-, b1, b2, -⟩ := h.cos
  obtain ⟨c, -⟩ := h.hypot
  obtain ⟨e, -⟩ := h.log10
  refine mag_of_values (w := 0x3FC15004CC550986#64) (w2 := 0x3FD15004CC550986#64) (by decide +kernel) (by decide +kernel) (by decide +kernel)
    (numSin_of_lawful _ (by decide) (by decide) (by rw [a1]; decide) |>.trans a1)
    (numSin_of_lawful _ (by decide) (by decide) (by rw [a2]; decide) |>.trans a2)
    (numCos_of_lawful _ (by decide) (by decide) (by rw [b1]; decide) |>.trans b1)
    (numCos_of_lawful _ (by decide) (by decide) (by rw [b2]; decide) |>.trans b2)
    (hr := 0x3FDE9E93B72BBCCE#64) (hi := 0x3FDFF85F68112FC8#64) (by decide +kernel)
    (numHypot_of_lawful _ (by decide) (by decide) (by decide) (by rw [c]; decide) |>.trans c) (by decide +kernel)
    (numLog10_of_lawful _ (by decide) (by decide) (by rw [e]; decide) |>.trans e) (by decide +kernel)

/-- V44, k = 23. -/
theorem mag_23 (h : HostNum) :
    magnitudeDb (designed.nanAt 23) (transfer (designed.nanAt 23) designed.regs.coeffs 0x408F03B9DCEE773C#64 designed.regs.fs) =
      0xBFB9514093F630B6#64 := by
  obtain ⟨-, -, -, a1, a2, -⟩ := h.sin
  obtain ⟨-, -, -, b1, b2, -⟩ := h.cos
  obtain ⟨-, c, -⟩ := h.hypot
  obtain ⟨-, e, -⟩ := h.log10
  refine mag_of_values (w := 0x3FC219796141A13A#64) (w2 := 0x3FD219796141A13A#64) (by decide +kernel) (by decide +kernel) (by decide +kernel)
    (numSin_of_lawful _ (by decide) (by decide) (by rw [a1]; decide) |>.trans a1)
    (numSin_of_lawful _ (by decide) (by decide) (by rw [a2]; decide) |>.trans a2)
    (numCos_of_lawful _ (by decide) (by decide) (by rw [b1]; decide) |>.trans b1)
    (numCos_of_lawful _ (by decide) (by decide) (by rw [b2]; decide) |>.trans b2)
    (hr := 0x3FEF4790008CD38E#64) (hi := 0x3FC2FD1A3276122F#64) (by decide +kernel)
    (numHypot_of_lawful _ (by decide) (by decide) (by decide) (by rw [c]; decide) |>.trans c) (by decide +kernel)
    (numLog10_of_lawful _ (by decide) (by decide) (by rw [e]; decide) |>.trans e) (by decide +kernel)

/-- V44, k = 24. -/
theorem mag_24 (h : HostNum) :
    magnitudeDb (designed.nanAt 24) (transfer (designed.nanAt 24) designed.regs.coeffs 0x40902E773B9DCEE8#64 designed.regs.fs) =
      0xBFFBE0314E589036#64 := by
  obtain ⟨-, -, -, -, -, a1, a2⟩ := h.sin
  obtain ⟨-, -, -, -, -, b1, b2⟩ := h.cos
  obtain ⟨-, -, c⟩ := h.hypot
  obtain ⟨-, -, e⟩ := h.log10
  refine mag_of_values (w := 0x3FC2E2EDF62E38EF#64) (w2 := 0x3FD2E2EDF62E38EF#64) (by decide +kernel) (by decide +kernel) (by decide +kernel)
    (numSin_of_lawful _ (by decide) (by decide) (by rw [a1]; decide) |>.trans a1)
    (numSin_of_lawful _ (by decide) (by decide) (by rw [a2]; decide) |>.trans a2)
    (numCos_of_lawful _ (by decide) (by decide) (by rw [b1]; decide) |>.trans b1)
    (numCos_of_lawful _ (by decide) (by decide) (by rw [b2]; decide) |>.trans b2)
    (hr := 0x3FE56CDF36D85D76#64) (hi := 0xBFDE1AAF83EC966F#64) (by decide +kernel)
    (numHypot_of_lawful _ (by decide) (by decide) (by decide) (by rw [c]; decide) |>.trans c) (by decide +kernel)
    (numLog10_of_lawful _ (by decide) (by decide) (by rw [e]; decide) |>.trans e) (by decide +kernel)

/-- The grid points of V44 and the last one. -/
theorem grid_V44 :
    (grid designed.nanAt designed.regs.fs 512)[22]? = some 0x408DAA8542A150A9#64 ∧
    (grid designed.nanAt designed.regs.fs 512)[23]? = some 0x408F03B9DCEE773C#64 ∧
    (grid designed.nanAt designed.regs.fs 512)[24]? = some 0x40902E773B9DCEE8#64 ∧
    (grid designed.nanAt designed.regs.fs 512)[511]? = some 0x40D5888000000000#64 := by
  rw [grid_getElem? _ _ (by decide), grid_getElem? _ _ (by decide), grid_getElem? _ _ (by decide),
    grid_getElem? _ _ (by decide)]
  decide +kernel

/-- The step of V44 is positive and finite. -/
theorem step_V44 : isFinite (gridStep (designed.nanAt 0) designed.regs.fs 512) = true ∧
    fsign (gridStep (designed.nanAt 0) designed.regs.fs 512) = false := by decide +kernel

/-- FC lies between points 23 and 24, nearer to 23; points 22 and 511 lie outside. -/
theorem nearest_V44 :
    units 0x408DAA8542A150A9#64 < units 0x408F03B9DCEE773C#64 ∧ units 0x408F03B9DCEE773C#64 < units designed.regs.fc ∧
    units designed.regs.fc < units 0x40902E773B9DCEE8#64 ∧ units 0x40902E773B9DCEE8#64 < units 0x40D5888000000000#64 ∧
    units designed.regs.fc - units 0x408F03B9DCEE773C#64 ≤ units 0x40902E773B9DCEE8#64 - units designed.regs.fc := by
  decide +kernel

/-- R194, V44: in the source's scenario DESIGN, then EVAL, leave a local maximum of MAG at k = 23, the grid point nearest FC,
with MAG[22], MAG[23] and MAG[24] bit for bit as in V44. -/
theorem test_peak_R194 (h : HostNum) : ∃ t u, exec .design scenario = .next t ∧ exec .eval t = .next u ∧
    u.elem .mag 22 = 0xC0099D57865E43DA#64 ∧ u.elem .mag 23 = 0xBFB9514093F630B6#64 ∧
    u.elem .mag 24 = 0xBFFBE0314E589036#64 ∧ u.PeaksAtCentre 23 := by
  obtain ⟨u, hu, hr, hk⟩ := exec_eval_of_valid (s := designed) (by decide) (by decide) (by decide)
  obtain ⟨g22, g23, g24, g511⟩ := grid_V44
  have hp : designed.regs.npoints.toNat = 512 := by decide
  rw [hp] at hk
  have mag : ∀ k f m, k < 512 → (grid designed.nanAt designed.regs.fs 512)[k]? = some f →
      magnitudeDb (designed.nanAt k) (transfer (designed.nanAt k) designed.regs.coeffs f designed.regs.fs) = m →
      u.elem .mag k = m := fun k f m h hg hm => by
    have := (hk k h).2
    rw [magnitudes_getElem?, hg, Option.map_some, hm, Option.some.injEq] at this
    exact this.symm
  have m22 := mag 22 _ _ (by decide) g22 (mag_22 h)
  have m23 := mag 23 _ _ (by decide) g23 (mag_23 h)
  have m24 := mag 24 _ _ (by decide) g24 (mag_24 h)
  have hl : u.regs.respLen.toNat = 512 := by rw [hr]; exact hp
  have hf : u.regs.fc = designed.regs.fc := by rw [hr]
  refine ⟨designed, u, test_design_V22 h, hu, m22, m23, m24, ?_, by omega, fun _ => ?_, fun _ => ?_⟩
  · intro j hj
    rw [hl] at hj
    have near := nearest_V44
    have val : ∀ k < 512, (grid designed.nanAt designed.regs.fs 512)[k]? = some (u.elem .freq k) := fun k h => (hk k h).1
    have rise : ∀ i k, i ≤ k → k < 511 → units (u.elem .freq i) ≤ units (u.elem .freq k) := fun i k hik h =>
      grid_mono _ step_V44.1 step_V44.2 hik (by omega) (by decide) (val i (by omega)) (val k (by omega))
    have e22 := Option.some.inj ((val 22 (by decide)).symm.trans g22)
    have e23 := Option.some.inj ((val 23 (by decide)).symm.trans g23)
    have e24 := Option.some.inj ((val 24 (by decide)).symm.trans g24)
    have e511 := Option.some.inj ((val 511 (by decide)).symm.trans g511)
    rw [hf]
    rw [← e22, ← e23, ← e24, ← e511] at near
    rcases Nat.lt_trichotomy j 23 with hlt | rfl | hgt
    · have := rise j 22 (by omega) (by decide)
      omega
    · exact le_rfl
    · by_cases h5 : j = 511
      · subst h5
        omega
      · have := rise 24 j hgt (by omega)
        omega
  · rw [m23, show 23 - 1 = 22 from rfl, m22]
    decide
  · rw [m23, m24]
    decide

end Sys2Proof.Tests
end

section
/-! SUPPORT. 00_scope.md R10 to R13: the arithmetic operations of finite and infinite operands, one equation per class of
operands, and that each rounds correctly (O51 to O53). -/

namespace Sys2Proof.Machine

open Sys2Proof.Claims

/-! ## Classes -/

theorem isNaN_of_isInf {a : Word} (h : isInf a = true) : isNaN a = false := by
  rw [isInf_iff] at h
  simp [isNaN, h]

theorem isZero_of_isInf {a : Word} (h : isInf a = true) : isZero a = false := by
  rw [isInf_iff] at h
  simp [isZero, h, infMag]

/-- A word that is no NaN is finite or infinite. -/
theorem isFinite_or_isInf {a : Word} (h : isNaN a = false) : isFinite a = true ∨ isInf a = true := by
  rw [isFinite_eq, h]
  cases isInf a <;> simp

/-! ## Sign operations (R11) -/

theorem flipSign_eq (a : Word) : flipSign a = ofSignMag (!fsign a) (fmag a) :=
  word_ext (by simp) (by rw [fmag_flipSign, fmag_ofSignMag _ (fmag_lt a)])

theorem clearSign_eq (a : Word) : clearSign a = ofSignMag false (fmag a) :=
  word_ext (by simp) (by rw [fmag_clearSign, fmag_ofSignMag _ (fmag_lt a)])

theorem drawnNaN_of_not_isNaN (d : NaNBits) {a : Word} (h : isNaN a = false) : drawnNaN d a = a := by
  rw [drawnNaN, h, if_neg (by decide)]

theorem fneg_of_not_isNaN (d : NaNBits) {a : Word} (h : isNaN a = false) : fneg d a = ofSignMag (!fsign a) (fmag a) := by
  rw [fneg, drawnNaN_of_not_isNaN d (by rwa [isNaN_flipSign]), flipSign_eq]

theorem fabs_of_not_isNaN (d : NaNBits) {a : Word} (h : isNaN a = false) : fabs d a = ofSignMag false (fmag a) := by
  rw [fabs, drawnNaN_of_not_isNaN d (by rwa [isNaN_clearSign]), clearSign_eq]

@[simp] theorem units_flipSign (a : Word) : units (flipSign a) = -units a := by
  cases h : fsign a <;> simp [units, h]

theorem units_ofSignMag (s : Bool) {m : Nat} (h : m < 2 ^ 63) :
    units (ofSignMag s m) = if s then -(magUnits m : Int) else (magUnits m : Int) := by
  rw [units, fsign_ofSignMag, fmag_ofSignMag s h]

/-! ## Correct rounding (R11) -/

theorem unitScale_pos : 0 < unitScale := by
  unfold unitScale
  positivity

theorem roundMag_lt (n d : Nat) : roundMag n d < 2 ^ 63 := (roundMag_le_infMag n d).trans_lt infMag_lt

@[simp] theorem fmag_ofSignMag_roundMag (s : Bool) (n d : Nat) : fmag (ofSignMag s (roundMag n d)) = roundMag n d :=
  fmag_ofSignMag s (roundMag_lt n d)

/-- `roundMag` meets the statements' own account of rounding to nearest even. -/
theorem rounded_roundMag (s : Bool) (n : Nat) {d : Nat} (hd : 0 < d) : Rounded s n d (ofSignMag s (roundMag n d)) := by
  refine ⟨fsign_ofSignMag _ _, ?_⟩
  have hlt := roundMagWide_lt_infMag n hd
  rw [fmag_ofSignMag_roundMag, roundMag_eq]
  generalize (magUnits (infMag - 1) + magUnits infMag) * d = overflow at hlt ⊢
  split_ifs with h
  · have hfin := hlt.2 h
    rw [min_eq_left hfin.le]
    exact ⟨hfin, fun c _ => roundMagWide_nearest n hd c⟩
  · exact min_eq_right (not_lt.1 (mt hlt.1 h))

theorem roundUnits_zero (z : Bool) : roundUnits 0 z = ofSignMag z 0 := if_pos rfl

theorem roundUnits_of_ne_zero {x : Int} (z : Bool) (h : x ≠ 0) :
    roundUnits x z = ofSignMag (decide (x < 0)) (roundMag x.natAbs 1) := if_neg h

theorem rounded_roundUnits {x : Int} (z : Bool) (h : x ≠ 0) : Rounded (decide (x < 0)) x.natAbs 1 (roundUnits x z) := by
  rw [roundUnits_of_ne_zero z h]
  exact rounded_roundMag _ _ Nat.one_pos

/-! ## fadd and fsub -/

section
variable (d : NaNBits) {a b : Word}

theorem fadd_of_finite (ha : isFinite a = true) (hb : isFinite b = true) :
    fadd d a b = roundUnits (units a + units b) (fsign a && fsign b) := by
  simp [fadd, isNaN_of_isFinite ha, isNaN_of_isFinite hb, isInf_of_isFinite ha, isInf_of_isFinite hb]

theorem fadd_of_inf_finite (ha : isInf a = true) (hb : isFinite b = true) : fadd d a b = a := by
  simp [fadd, isNaN_of_isInf ha, isNaN_of_isFinite hb, ha, isInf_of_isFinite hb]

theorem fadd_of_finite_inf (ha : isFinite a = true) (hb : isInf b = true) : fadd d a b = b := by
  simp [fadd, isNaN_of_isFinite ha, isNaN_of_isInf hb, isInf_of_isFinite ha, hb]

theorem fadd_of_inf_inf (ha : isInf a = true) (hb : isInf b = true) :
    fadd d a b = if fsign a = fsign b then a else quietNaN d := by
  by_cases h : fsign a = fsign b <;> simp [fadd, isNaN_of_isInf ha, isNaN_of_isInf hb, ha, hb, h]

theorem fsub_of_finite (ha : isFinite a = true) (hb : isFinite b = true) :
    fsub d a b = roundUnits (units a - units b) (fsign a && !fsign b) := by
  rw [fsub, fadd_of_finite d ha (by rwa [isFinite_flipSign]), units_flipSign, fsign_flipSign, sub_eq_add_neg]

theorem fsub_of_inf_finite (ha : isInf a = true) (hb : isFinite b = true) : fsub d a b = a :=
  fadd_of_inf_finite d ha (by rwa [isFinite_flipSign])

theorem fsub_of_finite_inf (ha : isFinite a = true) (hb : isInf b = true) :
    fsub d a b = ofSignMag (!fsign b) infMag := by
  rw [fsub, fadd_of_finite_inf d ha (by rwa [isInf_flipSign]), flipSign_eq, isInf_iff.1 hb]

theorem fsub_of_inf_inf (ha : isInf a = true) (hb : isInf b = true) :
    fsub d a b = if fsign a = fsign b then quietNaN d else a := by
  rw [fsub, fadd_of_inf_inf d ha (by rwa [isInf_flipSign]), fsign_flipSign]
  cases fsign a <;> cases fsign b <;> rfl

/-! ## fmul and fdiv -/

/-- fmul with an infinite operand and no NaN. -/
theorem fmul_of_inf (ha : isNaN a = false) (hb : isNaN b = false) (h : isInf a = true ∨ isInf b = true) :
    fmul d a b = if fmag a = 0 ∨ fmag b = 0 then quietNaN d else ofSignMag (fsign a != fsign b) infMag := by
  simp [fmul, ha, hb, h, isZero]

theorem fdiv_of_finite (ha : isFinite a = true) (hb : isFinite b = true) (hz : fmag b ≠ 0) :
    fdiv d a b = ofSignMag (fsign a != fsign b) (roundMag (magUnits (fmag a) * unitScale) (magUnits (fmag b))) := by
  simp [fdiv, isNaN_of_isFinite ha, isNaN_of_isFinite hb, isInf_of_isFinite ha, isInf_of_isFinite hb, isZero, hz]

theorem fdiv_by_zero (ha : isFinite a = true) (hb : isFinite b = true) (hz : fmag b = 0) :
    fdiv d a b = if fmag a = 0 then quietNaN d else ofSignMag (fsign a != fsign b) infMag := by
  simp [fdiv, isNaN_of_isFinite ha, isNaN_of_isFinite hb, isInf_of_isFinite ha, isInf_of_isFinite hb, isZero, hz]

theorem fdiv_of_finite_inf (ha : isFinite a = true) (hb : isInf b = true) :
    fdiv d a b = ofSignMag (fsign a != fsign b) 0 := by
  simp [fdiv, isNaN_of_isFinite ha, isNaN_of_isInf hb, isInf_of_isFinite ha, hb]

theorem fdiv_of_inf_finite (ha : isInf a = true) (hb : isFinite b = true) :
    fdiv d a b = ofSignMag (fsign a != fsign b) infMag := by
  simp [fdiv, isNaN_of_isInf ha, isNaN_of_isFinite hb, ha, isInf_of_isFinite hb]

end

/-! ## The statements -/

/-- Settles O51, by the equations of fadd and fsub for each class of operands. -/
theorem faddCorrectlyRounded : Obligations.FaddCorrectlyRounded := by
  intro d a b
  refine ⟨fun ha hb => ?_, fun ha hb => ?_, fun ha hb => ?_, fun ha hb => ?_, fun h => ?_⟩
  · rw [fadd_of_finite d ha hb, fsub_of_finite d ha hb]
    exact ⟨rounded_roundUnits _, fun h => by rw [h, roundUnits_zero], rounded_roundUnits _,
      fun h => by rw [h, roundUnits_zero]⟩
  · exact ⟨fadd_of_inf_finite d ha hb, fsub_of_inf_finite d ha hb⟩
  · exact ⟨fadd_of_finite_inf d ha hb, fsub_of_finite_inf d ha hb⟩
  · rw [fadd_of_inf_inf d ha hb, fsub_of_inf_inf d ha hb]
    constructor <;> intro h <;> simp [h]
  · exact ⟨fneg_of_not_isNaN d h, fabs_of_not_isNaN d h⟩

/-- Settles O52: the product is counted in units of 2^-2148, so rounding divides by the unit scale. -/
theorem fmulCorrectlyRounded : Obligations.FmulCorrectlyRounded := by
  intro d a b
  refine ⟨fun ha hb => ?_, fun ha hb h => ?_⟩
  · rw [fmul_of_finite d ha hb]
    exact rounded_roundMag _ _ unitScale_pos
  · rw [fmul_of_inf d ha hb h]
    exact ⟨fun hz => by rw [if_pos hz, isNaN_quietNaN], fun h1 h2 => if_neg (by simp [h1, h2])⟩

/-- Settles O53: the quotient of nonzero units is scaled once and rounded. -/
theorem fdivCorrectlyRounded : Obligations.FdivCorrectlyRounded := by
  intro d a b
  refine ⟨fun ha hb => ⟨fun hz => ?_, fun hz h => ?_, fun hz h => ?_⟩, fdiv_of_finite_inf d, fdiv_of_inf_finite d,
    fun ha hb => ?_⟩
  · rw [fdiv_of_finite d ha hb hz]
    exact rounded_roundMag _ _ (Nat.pos_of_ne_zero (mt magUnits_eq_zero.1 hz))
  · rw [fdiv_by_zero d ha hb hz, if_neg h]
  · rw [fdiv_by_zero d ha hb hz, if_pos h, isNaN_quietNaN]
  · simp [isNaN_fdiv, ha, hb]

end Sys2Proof.Machine
end

section
/-! SUPPORT. 00_scope.md R10, R12, R13, R18, R19: the order of words, the classes by their fields, and that every NaN result is
quiet (O54, O59). -/

namespace Sys2Proof.Machine

open Sys2Proof.Claims

/-! ## The order (R13) -/

section
variable {a b : Word}

theorem flt_iff : flt a b = true ↔ isNaN a = false ∧ isNaN b = false ∧ fkey a < fkey b := by simp [flt, and_assoc]
theorem fgt_iff : fgt a b = true ↔ isNaN b = false ∧ isNaN a = false ∧ fkey b < fkey a := flt_iff
theorem feq_iff : feq a b = true ↔ isNaN a = false ∧ isNaN b = false ∧ fkey a = fkey b := by simp [feq, and_assoc]
theorem fle_iff : fle a b = true ↔ isNaN a = false ∧ isNaN b = false ∧ fkey a ≤ fkey b := by simp [fle, and_assoc]

theorem not_flt_of_fkey_le (h : fkey b ≤ fkey a) : ¬ flt a b = true := fun hl => (flt_iff.1 hl).2.2.not_ge h
theorem not_fgt_of_fkey_le (h : fkey a ≤ fkey b) : ¬ fgt a b = true := not_flt_of_fkey_le h

/-- Words that are no NaN compare by `fkey`. -/
theorem compares_of_not_isNaN (ha : isNaN a = false) (hb : isNaN b = false) :
    Compares a b (decide (fkey a < fkey b)) (decide (fkey a = fkey b)) := by
  rcases lt_trichotomy (fkey a) (fkey b) with h | h | h
  · simp [Compares, flt, fgt, feq, fle, ha, hb, h, h.ne, h.ne', h.le, h.le.not_gt]
  · simp [Compares, flt, fgt, feq, fle, ha, hb, h]
  · simp [Compares, flt, fgt, feq, fle, ha, hb, h, h.ne, h.ne', h.le, h.le.not_gt]

theorem not_compares_of_isNaN (h : isNaN a = true ∨ isNaN b = true) :
    flt a b = false ∧ fgt a b = false ∧ feq a b = false ∧ fle a b = false := by
  rcases h with h | h <;> simp [flt, fgt, feq, fle, h]

theorem isFinite_iff_fkey : isFinite a = true ↔ -(infMag : Int) < fkey a ∧ fkey a < infMag := by
  rw [isFinite_iff, fkey]
  split <;> omega

end

/-! ## The order against zero -/

section
variable {a : Word}

@[simp] theorem fkey_fzero : fkey fzero = 0 := by decide
@[simp] theorem isNaN_fzero : isNaN fzero = false := by decide

theorem fkey_eq_zero : fkey a = 0 ↔ fmag a = 0 := by
  rw [fkey]
  split <;> omega

theorem fkey_nonneg : 0 ≤ fkey a ↔ fsign a = false ∨ fmag a = 0 := by
  cases h : fsign a <;> simp [fkey, h]

theorem fsign_of_fkey_pos (h : 0 < fkey a) : fsign a = false :=
  (fkey_nonneg.1 h.le).resolve_right fun h0 => h.ne' (fkey_eq_zero.2 h0)

theorem fgt_fzero_iff : fgt a fzero = true ↔ isNaN a = false ∧ 0 < fkey a := by simp [fgt_iff]
theorem flt_fzero_iff : flt a fzero = true ↔ isNaN a = false ∧ fkey a < 0 := by simp [flt_iff]
theorem fzero_fle_iff : fle fzero a = true ↔ isNaN a = false ∧ 0 ≤ fkey a := by simp [fle_iff]

theorem isNaN_of_fmag_eq_zero (h : fmag a = 0) : isNaN a = false := by simp [isNaN, h]

theorem feq_fzero_iff : feq a fzero = true ↔ fmag a = 0 := by
  rw [feq_iff, fkey_fzero, fkey_eq_zero]
  exact ⟨fun h => h.2.2, fun h => ⟨isNaN_of_fmag_eq_zero h, isNaN_fzero, h⟩⟩

end

/-! ## Fields (R10) -/

theorem toNat_exponent (a : Word) : (a.extractLsb' 52 11).toNat = fmag a / 2 ^ 52 := by
  rw [BitVec.extractLsb'_toNat, Nat.shiftRight_eq_div_pow, fmag]
  omega

theorem toNat_fraction (a : Word) : (a.extractLsb' 0 52).toNat = fmag a % 2 ^ 52 := by
  rw [BitVec.extractLsb'_toNat, Nat.shiftRight_zero, fmag]
  omega

theorem exponent_eq_iff (a : Word) : a.extractLsb' 52 11 = 0x7FF#11 ↔ infMag ≤ fmag a := by
  have := fmag_lt a
  rw [← BitVec.toNat_inj, toNat_exponent, show (0x7FF#11).toNat = 2047 from rfl, infMag]
  omega

theorem fraction_eq_iff (a : Word) : a.extractLsb' 0 52 = 0#52 ↔ fmag a % 2 ^ 52 = 0 := by
  rw [← BitVec.toNat_inj, toNat_fraction, BitVec.toNat_zero]

/-- A quiet NaN by its magnitude. -/
theorem quietNaN_iff {a : Word} : QuietNaN a ↔ infMag + 2 ^ 51 ≤ fmag a := by
  have hbit : a.getLsbD 51 = true ↔ fmag a / 2 ^ 51 % 2 = 1 := by
    rw [BitVec.getLsbD, Nat.testBit_eq_decide_div_mod_eq, decide_eq_true_iff, fmag]
    omega
  have := fmag_lt a
  rw [QuietNaN, exponent_eq_iff, hbit, infMag]
  omega

/-! ## NaN results are quiet (R12) -/

/-- The word is no NaN but a quiet one. -/
def QuietIfNaN (r : Word) : Prop := isNaN r = true → QuietNaN r

theorem quietIfNaN_of_not_isNaN {r : Word} (h : isNaN r = false) : QuietIfNaN r := fun hr => by simp [h] at hr

theorem quietIfNaN_quietNaN (d : NaNBits) : QuietIfNaN (quietNaN d) := fun _ => quietNaN_iff.2 (fmag_quietNaN d)

theorem quietIfNaN_ofSignMag (s : Bool) {m : Nat} (h : m ≤ infMag) : QuietIfNaN (ofSignMag s m) :=
  quietIfNaN_of_not_isNaN (isNaN_ofSignMag h)

theorem quietIfNaN_ite {p : Prop} [Decidable p] {r r' : Word} (h : p → QuietIfNaN r) (h' : ¬ p → QuietIfNaN r') :
    QuietIfNaN (if p then r else r') := by
  split
  · exact h ‹_›
  · exact h' ‹_›

theorem quietIfNaN_drawnNaN (d : NaNBits) (a : Word) : QuietIfNaN (drawnNaN d a) :=
  quietIfNaN_ite (fun _ => quietIfNaN_quietNaN d) fun h => quietIfNaN_of_not_isNaN (by simpa using h)

section
variable (d : NaNBits) (a b : Word)

/-- What the two-operand primitives do first: a NaN operand draws a NaN. -/
theorem quietIfNaN_of_operands {r : Word} (h : isNaN a = false → isNaN b = false → QuietIfNaN r) :
    QuietIfNaN (if isNaN a || isNaN b then quietNaN d else r) :=
  quietIfNaN_ite (fun _ => quietIfNaN_quietNaN d) fun hn => by
    simp only [Bool.or_eq_true, not_or, Bool.not_eq_true] at hn
    exact h hn.1 hn.2

theorem quietIfNaN_fadd : QuietIfNaN (fadd d a b) :=
  quietIfNaN_of_operands d a b fun ha hb =>
    quietIfNaN_ite
      (fun _ => quietIfNaN_ite (fun _ => quietIfNaN_quietNaN d) fun _ => quietIfNaN_of_not_isNaN ha)
      fun _ => quietIfNaN_ite (fun _ => quietIfNaN_of_not_isNaN hb) fun _ =>
        quietIfNaN_of_not_isNaN (isNaN_roundUnits _ _)

theorem quietIfNaN_fmul : QuietIfNaN (fmul d a b) :=
  quietIfNaN_of_operands d a b fun _ _ =>
    quietIfNaN_ite
      (fun _ => quietIfNaN_ite (fun _ => quietIfNaN_quietNaN d) fun _ => quietIfNaN_ofSignMag _ le_rfl)
      fun _ => quietIfNaN_ofSignMag _ (roundMag_le_infMag _ _)

theorem quietIfNaN_fdiv : QuietIfNaN (fdiv d a b) :=
  have drawn := quietIfNaN_quietNaN d
  have inf := quietIfNaN_ofSignMag (fsign a != fsign b) le_rfl
  quietIfNaN_of_operands d a b fun _ _ =>
    quietIfNaN_ite (fun _ => quietIfNaN_ite (fun _ => drawn) fun _ => inf) fun _ =>
      quietIfNaN_ite (fun _ => quietIfNaN_ofSignMag _ (Nat.zero_le _)) fun _ =>
        quietIfNaN_ite (fun _ => quietIfNaN_ite (fun _ => drawn) fun _ => inf) fun _ =>
          quietIfNaN_ofSignMag _ (roundMag_le_infMag _ _)

theorem quietIfNaN_fmod : QuietIfNaN (fmod d a b) :=
  quietIfNaN_of_operands d a b fun ha _ =>
    quietIfNaN_ite (fun _ => quietIfNaN_quietNaN d) fun _ =>
      quietIfNaN_ite (fun _ => quietIfNaN_of_not_isNaN ha) fun _ => quietIfNaN_ofSignMag _ (roundMag_le_infMag _ _)

theorem quietIfNaN_fmaxn : QuietIfNaN (fmaxn d a b) :=
  quietIfNaN_of_operands d a b fun ha hb =>
    quietIfNaN_ite (fun _ => quietIfNaN_of_not_isNaN ha) fun _ => quietIfNaN_of_not_isNaN hb

theorem quietIfNaN_sgn : QuietIfNaN (sgn d a) :=
  quietIfNaN_ite (fun _ => quietIfNaN_of_not_isNaN (by decide)) fun _ =>
    quietIfNaN_ite (fun _ => quietIfNaN_of_not_isNaN (by decide)) fun _ =>
      quietIfNaN_ite (fun _ => quietIfNaN_quietNaN d) fun _ => quietIfNaN_of_not_isNaN (by decide)

theorem quietIfNaN_floormod (d' : NaNBits) : QuietIfNaN (floormod d d' a b) :=
  quietIfNaN_ite (fun _ => quietIfNaN_of_not_isNaN (by decide)) fun _ =>
    quietIfNaN_ite (fun _ => quietIfNaN_fadd d' _ b) fun _ => quietIfNaN_fmod d a b

end

/-! ## The results of NUM (R17) -/

theorem isNaN_of_within {lo hi a : Word} (h : within lo hi a = true) : isNaN a = false :=
  (fle_iff.1 (within_iff.1 h).1).2.1

section
variable (d : NaNBits) (x y : Word)

theorem quietIfNaN_numSin : QuietIfNaN (numSin d x) :=
  quietIfNaN_ite (fun hz => quietIfNaN_of_not_isNaN (isNaN_of_fmag_eq_zero (isZero_iff.1 hz))) fun _ =>
    quietIfNaN_ite (fun _ => quietIfNaN_quietNaN d) fun _ =>
      quietIfNaN_of_not_isNaN (isNaN_of_within (confined_ok (sinFloor_lawful x) _))

theorem quietIfNaN_numCos : QuietIfNaN (numCos d x) :=
  quietIfNaN_ite (fun _ => quietIfNaN_of_not_isNaN (by decide)) fun _ =>
    quietIfNaN_ite (fun _ => quietIfNaN_quietNaN d) fun _ =>
      quietIfNaN_of_not_isNaN (isNaN_of_within (confined_ok (by decide) _))

theorem quietIfNaN_numLog10 : QuietIfNaN (numLog10 d x) :=
  quietIfNaN_ite (fun _ => quietIfNaN_quietNaN d) fun _ =>
    quietIfNaN_ite (fun _ => quietIfNaN_of_not_isNaN (by decide)) fun _ =>
      quietIfNaN_ite (fun _ => quietIfNaN_of_not_isNaN (isNaN_of_isFinite (confined_ok (by decide) _))) fun _ =>
        quietIfNaN_drawnNaN d _

theorem quietIfNaN_numAtan2 : QuietIfNaN (numAtan2 d y x) :=
  quietIfNaN_ite (fun _ => quietIfNaN_drawnNaN d _) fun hn =>
    quietIfNaN_ite
      (fun _ => quietIfNaN_ite (fun _ => quietIfNaN_ofSignMag _ (by decide)) fun _ =>
        quietIfNaN_of_not_isNaN (by simp_all))
      fun _ => quietIfNaN_of_not_isNaN (isNaN_of_within (confined_ok (by decide) _))

theorem quietIfNaN_numHypot : QuietIfNaN (numHypot d x y) :=
  quietIfNaN_ite (fun _ => quietIfNaN_of_not_isNaN (by decide)) fun _ =>
    quietIfNaN_ite (fun _ => quietIfNaN_drawnNaN d _) fun _ =>
      quietIfNaN_ite (fun _ => quietIfNaN_quietNaN d) fun _ =>
        quietIfNaN_ite (fun _ => quietIfNaN_of_not_isNaN (by decide)) fun _ =>
          quietIfNaN_of_not_isNaN (fle_iff.1 (confined_ok (by decide) _)).2.1

end

/-! ## When the derived functions give a NaN -/

section
variable (d : NaNBits) (a b : Word)

/-- When fmod gives a NaN (R14). -/
theorem isNaN_fmod : isNaN (fmod d a b) = (isNaN a || isNaN b || isInf a || isZero b) := by
  unfold fmod
  split_ifs with h1 h2 h3 <;> simp_all [isNaN_ofSignMag, roundMag_le_infMag]

theorem isNaN_fmaxn : isNaN (fmaxn d a b) = (isNaN a || isNaN b) := by
  unfold fmaxn
  split_ifs with h1 h2 <;> simp_all

theorem sgn_of_isNaN {a : Word} (h : isNaN a = true) : sgn d a = quietNaN d := by
  simp [sgn, fgt, flt, h]

/-- A NaN remainder passes through floormod (R20). -/
theorem floormod_of_isNaN (d' : NaNBits) {a m : Word} (h : isNaN (fmod d a m) = true) :
    floormod d d' a m = fmod d a m := by
  simp [floormod, flt, feq, h]

end

/-! ## The statements -/

/-- Settles O54: every primitive draws its NaN results with `quietNaN`, and `fkey` orders words by value. -/
theorem naNResultsAreQuiet : Obligations.NaNResultsAreQuiet := by
  intro d d' a b
  refine ⟨?_, ?_, ?_, not_compares_of_isNaN, fun ha hb => ?_, fun ha => ?_, by unfold Compares; decide,
    by unfold Compares; decide, by unfold Compares; decide, by unfold Compares; decide, ?_, ?_, ?_⟩
  · intro r hr h
    have hf : isNaN (fmod d a b) = true := by simp [isNaN_fmod, h]
    simp only [List.mem_cons, List.not_mem_nil, or_false] at hr
    rcases hr with rfl | rfl | rfl | rfl | rfl | rfl | rfl
    · simp [isNaN_fadd, h]
    · simp [isNaN_fsub, h]
    · simp [isNaN_fmul, h]
    · simp [isNaN_fdiv, h]
    · exact hf
    · simpa [isNaN_fmaxn] using h
    · rwa [floormod_of_isNaN d d' hf]
  · intro r hr h
    simp only [List.mem_cons, List.not_mem_nil, or_false] at hr
    rcases hr with rfl | rfl | rfl
    · rwa [isNaN_fneg]
    · rwa [isNaN_fabs]
    · rw [sgn_of_isNaN d h, isNaN_quietNaN]
  · simp only [List.forall_mem_cons, List.not_mem_nil, false_implies, implies_true, and_true]
    exact ⟨quietIfNaN_fadd d a b, quietIfNaN_fadd d a _, quietIfNaN_fmul d a b, quietIfNaN_fdiv d a b,
      quietIfNaN_drawnNaN d _, quietIfNaN_drawnNaN d _, quietIfNaN_fmod d a b, quietIfNaN_sgn d a, quietIfNaN_fmaxn d a b,
      quietIfNaN_floormod d a b d', quietIfNaN_numSin d a, quietIfNaN_numCos d a, quietIfNaN_numLog10 d a,
      quietIfNaN_numAtan2 d b a, quietIfNaN_numHypot d a b⟩
  · simp only [units_lt_iff, units_eq_iff]
    exact compares_of_not_isNaN (isNaN_of_isFinite ha) (isNaN_of_isFinite hb)
  · have hk := isFinite_iff_fkey.1 ha
    have hn := isNaN_of_isFinite ha
    have top := compares_of_not_isNaN hn (b := 0x7FF0000000000000#64) (by decide)
    have bottom := compares_of_not_isNaN (a := 0xFFF0000000000000#64) (by decide) hn
    rw [show fkey 0x7FF0000000000000#64 = infMag by decide, decide_eq_true hk.2, decide_eq_false hk.2.ne] at top
    rw [show fkey 0xFFF0000000000000#64 = -infMag by decide, decide_eq_true hk.1, decide_eq_false hk.1.ne] at bottom
    exact ⟨top, bottom⟩
  · rw [isFinite_iff, Ne, exponent_eq_iff, not_le]
  · have := fmag_lt a
    rw [isInf_iff, exponent_eq_iff, fraction_eq_iff, infMag]
    omega
  · have := fmag_lt a
    rw [isNaN_iff, Ne, exponent_eq_iff, fraction_eq_iff, infMag]
    omega

/-- Settles O59, branch by branch of the two definitions. -/
theorem sgnAndFmaxn : Obligations.SgnAndFmaxn := by
  intro d a b
  refine ⟨fun h => if_pos h, fun h => ?_, fun h => ?_, fun h => ?_, fun h => ?_, fun h => ?_, fun h => ?_, fun h => ?_⟩
  · rw [sgn, if_neg (not_fgt_of_fkey_le (flt_iff.1 h).2.2.le), if_pos h, fminusOne]
  · have hk : fkey a = fkey fzero := by rw [fkey_eq_zero.2 h, fkey_fzero]
    rw [sgn, if_neg (not_fgt_of_fkey_le hk.le), if_neg (not_flt_of_fkey_le hk.ge), isNaN_of_fmag_eq_zero h,
      if_neg (by decide), fzero]
  · rw [sgn_of_isNaN d h, isNaN_quietNaN]
  · simpa [isNaN_fmaxn] using h
  · obtain ⟨hb, ha, -⟩ := fgt_iff.1 h
    simp [fmaxn, ha, hb, h]
  · obtain ⟨ha, hb, hk⟩ := fgt_iff.1 h
    simp [fmaxn, ha, hb, not_fgt_of_fkey_le hk.le]
  · obtain ⟨ha, hb, hk⟩ := feq_iff.1 h
    simp [fmaxn, ha, hb, not_fgt_of_fkey_le hk.le]

end Sys2Proof.Machine
end

section
/-! SUPPORT. 00_scope.md R15 to R17: the conversions (O56, O57) and the laws of NUM (O58). -/

namespace Sys2Proof.Machine

/-! ## i2f (R15) -/

theorem scaled_integer_lt_magUnits_infMag {i : Nat} (hi : i < 2 ^ 53) : i * 2 ^ 1074 < magUnits infMag :=
  calc i * 2 ^ 1074 < 2 ^ 53 * 2 ^ 1074 := Nat.mul_lt_mul_of_pos_right hi (by positivity)
    _ = 2 ^ (53 + 1074) := by rw [pow_add]
    _ ≤ 2 ^ (52 + 2046) := pow_le_pow_right₀ (by decide) (by decide)
    _ = 2 ^ 52 * 2 ^ 2046 := by rw [pow_add]
    _ = magUnits infMag := (magUnits_succ 2046).symm

/-- Settles O56: below 2^53 an integer is a significand scaled by the units of 1.0, so rounding keeps it. -/
theorem integerConversionExact : Obligations.IntegerConversionExact := by
  intro i hi
  have h := magUnits_roundMag_scaled hi (scaled_integer_lt_magUnits_infMag hi)
  refine ⟨isFinite_i2f hi.le, ?_⟩
  rw [units, fsign_i2f, if_neg (by decide), fmag_i2f, unitScale, h, Nat.cast_mul, Nat.cast_pow, Nat.cast_ofNat]

/-! ## roundHalfEven (R16) -/

/-- `nearestDiv` is nearest among the negative integers too: they lie further off than 0. -/
theorem nearestDiv_nearest_int (n : Nat) {d : Nat} (hd : 0 < d) (z : Int) :
    |(nearestDiv n d * d : Int) - n| ≤ |z * d - n| ∧
    (|(nearestDiv n d * d : Int) - n| = |z * d - n| → z = nearestDiv n d ∨ (nearestDiv n d : Int) % 2 = 0) := by
  rcases le_or_gt 0 z with hz | hz
  · lift z to Nat using hz
    have h := nearestDiv_nearest n hd z
    exact ⟨h.1, fun e => (h.2 e).imp (by omega) (by omega)⟩
  · have h0 := (nearestDiv_nearest n hd 0).1
    rw [Nat.cast_zero, zero_mul, zero_sub, abs_neg, Nat.abs_cast] at h0
    have hzd : z * d < 0 := mul_neg_of_neg_of_pos hz (by exact_mod_cast hd)
    rw [abs_of_nonpos (a := z * d - n) (by omega)]
    constructor <;> omega

/-- Settles O57: a negative value is rounded as its negation. -/
theorem roundHalfEvenNearest : Obligations.RoundHalfEvenNearest := by
  refine ⟨fun p _ z => ?_, by decide +kernel, by decide +kernel, by decide +kernel⟩
  have near := nearestDiv_nearest_int (magUnits (fmag p)) unitScale_pos
  rw [show (2 : Int) ^ 1074 = (unitScale : Nat) by rw [unitScale, Nat.cast_pow, Nat.cast_ofNat], roundHalfEven, units]
  generalize magUnits (fmag p) = n at *
  generalize nearestDiv n unitScale = r at *
  have flip : ∀ t : Int, |-t * unitScale - -(n : Int)| = |t * unitScale - n| := fun t => by
    rw [← abs_neg]
    congr 1
    ring
  split
  · obtain ⟨y, rfl⟩ : ∃ y, z = -y := ⟨-z, (neg_neg z).symm⟩
    rw [flip, flip]
    exact ⟨(near y).1, fun e => ((near y).2 e).imp (by omega) (by omega)⟩
  · exact near z

/-! ## The laws of NUM (R17) -/

theorem fle_trans {a b c : Word} (h : fle a b = true) (h' : fle b c = true) : fle a c = true := by
  rw [fle_iff] at *
  exact ⟨h.1, h'.2.1, h.2.2.trans h'.2.2⟩

theorem isFinite_of_fmag_eq_zero {x : Word} (h : fmag x = 0) : isFinite x = true := by simp [isFinite, h, infMag]

theorem isInf_of_isNaN {x : Word} (h : isNaN x = true) : isInf x = false := by
  rw [isNaN_iff] at h
  simp [isInf, h.ne']

/-- A zero lies between bounds that +0 lies between. -/
theorem within_of_fmag_eq_zero {lo hi x : Word} (h : fmag x = 0) (hlo : fle lo fzero = true) (hhi : fle fzero hi = true) :
    within lo hi x = true := by
  rw [fle_iff, fkey_fzero] at hlo hhi
  have hn := isNaN_of_fmag_eq_zero h
  have hk := fkey_eq_zero.2 h
  exact within_iff.2 ⟨fle_iff.2 ⟨hlo.1, hn, by omega⟩, fle_iff.2 ⟨hn, hhi.2.1, by omega⟩⟩

section
variable (d : NaNBits) {x y : Word}

/-- L1, L2, L7: the sine lies between its floor and +1.0. -/
theorem numSin_within (hx : isFinite x = true) : within (sinFloor x) fone (numSin d x) = true := by
  unfold numSin
  split_ifs with hz hf
  · refine within_of_fmag_eq_zero (isZero_iff.1 hz) ?_ (by decide)
    unfold sinFloor
    split <;> decide
  · simp [hx] at hf
  · exact confined_ok (sinFloor_lawful x) _

theorem fminusOne_fle_sinFloor (x : Word) : fle fminusOne (sinFloor x) = true := by
  unfold sinFloor
  split <;> decide

/-- L1, L2: the cosine lies between -1.0 and +1.0. -/
theorem numCos_within (hx : isFinite x = true) : within fminusOne fone (numCos d x) = true := by
  unfold numCos
  split_ifs with hz hf
  · decide
  · simp [hx] at hf
  · exact confined_ok (by decide) _

/-- L3: outside the finite words sine and cosine are NaNs. -/
theorem numSin_numCos_of_not_isFinite (hx : isFinite x = false) : numSin d x = quietNaN d ∧ numCos d x = quietNaN d := by
  have hz : ¬ isZero x = true := fun h => by simp [isFinite_of_fmag_eq_zero (isZero_iff.1 h)] at hx
  simp [numSin, numCos, hz, hx]

/-- L4: the logarithm of a finite positive value is finite. -/
theorem isFinite_numLog10 (hx : isFinite x = true) (hp : fgt x fzero = true) : isFinite (numLog10 d x) = true := by
  have hinf : x ≠ finf := by
    rintro rfl
    exact absurd hx (by decide)
  rw [numLog10, isNaN_of_isFinite hx, if_neg (by decide), if_neg hinf, if_pos hp]
  exact confined_ok (by decide) _

/-- L5: the modulus is not negative. -/
theorem fzero_fle_numHypot (hx : isNaN x = false) (hy : isNaN y = false) : fle fzero (numHypot d x y) = true := by
  simp only [numHypot, hx, hy, Bool.and_self, Bool.or_self, Bool.false_eq_true, if_false]
  split_ifs with hi hz
  · decide
  · decide
  · exact confined_ok (by decide) _

theorem numHypot_of_zeros (hx : fmag x = 0) (hy : fmag y = 0) : numHypot d x y = fzero := by
  simp [numHypot, isInf_of_isFinite (isFinite_of_fmag_eq_zero hx), isInf_of_isFinite (isFinite_of_fmag_eq_zero hy),
    isNaN_of_fmag_eq_zero, isZero_iff, hx, hy]

theorem numHypot_of_isNaN (hx : isNaN x = true) (hy : isFinite y = true) :
    numHypot d x y = quietNaN d ∧ numHypot d y x = quietNaN d := by
  simp [numHypot, isInf_of_isNaN hx, isInf_of_isFinite hy, isNaN_of_isFinite hy, hx]

theorem numHypot_of_isInf (hx : isInf x = true) : numHypot d x y = finf ∧ numHypot d y x = finf := by
  simp [numHypot, hx]

/-- L6: the angle lies between -PI64 and +PI64. -/
theorem numAtan2_within (hx : isNaN x = false) (hy : isNaN y = false) :
    within (flipSign pi64) pi64 (numAtan2 d y x) = true := by
  simp only [numAtan2, hx, hy, Bool.or_self, Bool.false_eq_true, if_false]
  split_ifs with hz hs
  · cases fsign y <;> decide
  · rw [Bool.and_eq_true, isZero_iff] at hz
    exact within_of_fmag_eq_zero hz.1 (by decide) (by decide)
  · exact confined_ok (by decide) _

/-- L6: the signed zeros of R17. -/
theorem numAtan2_of_zeros (hx : fmag x = 0) (hy : fmag y = 0) :
    numAtan2 d y x = if fsign x then ofSignMag (fsign y) (fmag pi64) else y := by
  simp [numAtan2, isNaN_of_fmag_eq_zero, isZero_iff, hx, hy]

/-- The arguments of L7 are finite. -/
theorem isFinite_of_within_pi64 (h : within fzero pi64 x = true) : isFinite x = true := by
  obtain ⟨h0, h1⟩ := within_iff.1 h
  have hlo := (fzero_fle_iff.1 h0).2
  have hhi := (fle_iff.1 h1).2.2
  have hpi : fkey pi64 < infMag := by decide
  exact isFinite_iff_fkey.2 ⟨by omega, by omega⟩

end

/-- Settles O58, law by law. -/
theorem numLaws : Obligations.NumLaws := by
  intro d x y
  refine ⟨fun h => ⟨if_pos (isZero_iff.2 h), if_pos (isZero_iff.2 h)⟩, fun hx => ?_, fun hx => ?_,
    ⟨rfl, fun hx => ?_, isFinite_numLog10 d⟩,
    ⟨fzero_fle_numHypot d, numHypot_of_zeros d, fun hx hy => ?_, numHypot_of_isInf d⟩,
    ⟨fun hx hy => within_iff.1 (numAtan2_within d hx hy), fun hy => ⟨?_, ?_⟩⟩, fun h0 h1 => ?_⟩
  · obtain ⟨hlo, hhi⟩ := within_iff.1 (numSin_within d hx)
    exact ⟨fle_trans (fminusOne_fle_sinFloor x) hlo, hhi, within_iff.1 (numCos_within d hx)⟩
  · obtain ⟨hs, hc⟩ := numSin_numCos_of_not_isFinite d hx
    simp [hs, hc]
  · rw [numLog10, if_pos hx, isNaN_quietNaN]
  · obtain ⟨h, h'⟩ := numHypot_of_isNaN d hx hy
    simp [h, h']
  · exact numAtan2_of_zeros d (by decide) hy
  · rw [numAtan2_of_zeros d (by decide) hy, if_pos (by decide)]
    cases fsign y <;> decide
  · have hw : within fzero pi64 x = true := within_iff.2 ⟨h0, h1⟩
    have h := (within_iff.1 (numSin_within d (isFinite_of_within_pi64 hw))).1
    rwa [sinFloor, if_pos hw] at h

end Sys2Proof.Machine
end

section
/-! SUPPORT. 00_scope.md R14, R20: the truncated remainder is exact (O55), and floormod is the floor remainder rounded once
(O60). -/

namespace Sys2Proof.Machine

open Sys2Proof.Claims

/-! ## The remainder of two magnitudes is a magnitude (R14) -/

/-- The remainder has a significand of at most 53 bits at the smaller of the two scales. -/
theorem magUnits_mod_scaled (a : Nat) {b : Nat} (hb : b ≠ 0) :
    ∃ q k, q < 2 ^ 53 ∧ magUnits a % magUnits b = q * 2 ^ k := by
  obtain ⟨k, m, -, hm, -, ha⟩ := magUnits_decompose a
  obtain ⟨j, p, -, hp, -, hbu⟩ := magUnits_decompose b
  have hpos : 0 < p := Nat.pos_of_ne_zero fun h => hb (magUnits_eq_zero.1 (by rw [hbu, h, Nat.zero_mul]))
  rw [ha, hbu]
  rcases Nat.le_total k j with h | h
  · refine ⟨m % (p * 2 ^ (j - k)), k, (Nat.mod_le _ _).trans_lt hm, ?_⟩
    rw [← Nat.mul_mod_mul_right, Nat.mul_assoc, ← Nat.pow_add, Nat.sub_add_cancel h]
  · refine ⟨m * 2 ^ (k - j) % p, j, (Nat.mod_lt _ hpos).trans hp, ?_⟩
    rw [← Nat.mul_mod_mul_right, Nat.mul_assoc, ← Nat.pow_add, Nat.sub_add_cancel h]

/-- Rounding keeps the remainder of two magnitudes, for it is a magnitude itself. -/
theorem magUnits_roundMag_mod {a b : Nat} (ha : a < infMag) (hb : b ≠ 0) :
    magUnits (roundMag (magUnits a % magUnits b) 1) = magUnits a % magUnits b := by
  have hlt : magUnits a % magUnits b < magUnits infMag := (Nat.mod_le _ _).trans_lt (magUnits_strictMono ha)
  obtain ⟨q, k, hq, h⟩ := magUnits_mod_scaled a hb
  rw [h] at hlt ⊢
  exact magUnits_roundMag_scaled hq hlt

/-! ## fmod -/

theorem fmod_of_finite (d : NaNBits) {a b : Word} (ha : isFinite a = true) (hb : isFinite b = true) (hz : fmag b ≠ 0) :
    fmod d a b = ofSignMag (fsign a) (roundMag (magUnits (fmag a) % magUnits (fmag b)) 1) := by
  simp [fmod, isNaN_of_isFinite ha, isNaN_of_isFinite hb, isInf_of_isFinite ha, isInf_of_isFinite hb, isZero, hz]

/-- fmod of a finite value and an infinity is the value (log 8). -/
theorem fmod_of_finite_inf (d : NaNBits) {a b : Word} (ha : isFinite a = true) (hb : isInf b = true) : fmod d a b = a := by
  simp [fmod, isNaN_of_isFinite ha, isNaN_of_isInf hb, isInf_of_isFinite ha, isZero_of_isInf hb, hb]

/-- The truncated remainder of values in sign and magnitude. -/
theorem tmod_units (a b : Word) : Int.tmod (units a) (units b) =
    if fsign a then -((magUnits (fmag a) % magUnits (fmag b) : Nat) : Int)
    else (magUnits (fmag a) % magUnits (fmag b) : Nat) := by
  unfold units
  split_ifs <;> simp only [Int.neg_tmod, Int.tmod_neg, Int.ofNat_tmod]

section
variable (d : NaNBits) {a b : Word} (ha : isFinite a = true) (hb : isFinite b = true) (hz : fmag b ≠ 0)
include ha hb hz

theorem fsign_fmod : fsign (fmod d a b) = fsign a := by rw [fmod_of_finite d ha hb hz, fsign_ofSignMag]

theorem magUnits_fmod : magUnits (fmag (fmod d a b)) = magUnits (fmag a) % magUnits (fmag b) := by
  rw [fmod_of_finite d ha hb hz, fmag_ofSignMag_roundMag, magUnits_roundMag_mod (isFinite_iff.1 ha) hz]

theorem units_fmod : units (fmod d a b) = Int.tmod (units a) (units b) := by
  rw [units, fsign_fmod d ha hb hz, magUnits_fmod d ha hb hz, tmod_units]

theorem isFinite_fmod : isFinite (fmod d a b) = true := by
  rw [isFinite_iff, ← magUnits_strictMono.lt_iff_lt, magUnits_fmod d ha hb hz]
  exact (Nat.mod_le _ _).trans_lt (magUnits_strictMono (isFinite_iff.1 ha))

end

theorem fmod_of_zero (d : NaNBits) {a b : Word} (ha : fmag a = 0) (hb : fmag b ≠ 0) (hn : isNaN b = false) :
    fmod d a b = a := by
  have hf := isFinite_of_fmag_eq_zero ha
  rcases isFinite_or_isInf hn with h | h
  · rw [fmod_of_finite d hf h hb, ha, magUnits_zero, Nat.zero_mod, roundMag_zero, ← ha, ofSignMag_self]
  · exact fmod_of_finite_inf d hf h

theorem isNaN_fmod_of_not_isFinite (d : NaNBits) {a : Word} (b : Word) (h : isFinite a = false) :
    isNaN (fmod d a b) = true := by
  rw [isNaN_fmod]
  rw [isFinite_eq] at h
  cases hn : isNaN a <;> simp_all

/-- Settles O55: the remainder of two scaled significands is one itself, so that nothing is rounded. -/
theorem fmodExact : Obligations.FmodExact := by
  intro d a b
  refine ⟨fun ha hb hz => ⟨isFinite_fmod d ha hb hz, units_fmod d ha hb hz, fsign_fmod d ha hb hz⟩, fun h => ?_,
    fmod_of_zero d⟩
  rcases h with h | h
  · exact isNaN_fmod_of_not_isFinite d b h
  · simp [isNaN_fmod, isZero_iff.2 h]

/-! ## floormod (R20) -/

/-- The floor remainder from the truncated one. -/
theorem emod_eq_ite_tmod (x : Int) {m : Int} (hm : 0 < m) :
    x % m = if Int.tmod x m < 0 then Int.tmod x m + m else Int.tmod x m := by
  have hlt := Int.tmod_lt_of_pos x hm
  have hgt := Int.lt_tmod_of_pos x hm
  have hx : x % m = Int.tmod x m % m := by
    conv_lhs => rw [← Int.mul_tdiv_add_tmod x m, Int.mul_add_emod_self_left]
  rw [hx]
  split
  · rw [← Int.add_emod_right, Int.emod_eq_of_lt (by omega) (by omega)]
  · exact Int.emod_eq_of_lt (by omega) hlt

theorem units_nonneg {a : Word} : 0 ≤ units a ↔ 0 ≤ fkey a := by
  have h := units_lt_iff (a := a) (b := fzero)
  rw [show units fzero = 0 by decide, fkey_fzero] at h
  omega

theorem units_pos {a : Word} : 0 < units a ↔ 0 < fkey a := by
  have h := units_lt_iff (a := fzero) (b := a)
  rwa [show units fzero = 0 by decide, fkey_fzero] at h

theorem units_of_nonneg {a : Word} (h : 0 ≤ units a) : units a = magUnits (fmag a) := by
  cases hs : fsign a
  · simp [units, hs]
  · simp only [units, hs, if_true] at h ⊢
    omega

/-- The last step of floormod keeps a result that is not negative, with the sign + if it is a zero. -/
theorem ite_feq_fzero_eq {r : Word} (h : 0 ≤ fkey r) : (if feq r fzero then fzero else r) = ofSignMag false (fmag r) := by
  by_cases hz : fmag r = 0
  · rw [if_pos (feq_fzero_iff.2 hz), hz]
    decide
  · rw [if_neg (mt feq_fzero_iff.1 hz), ← (fkey_nonneg.1 h).resolve_right hz, ofSignMag_self]

section
variable (d d' : NaNBits) {a m : Word}

/-- A remainder that is not negative is the result. -/
theorem floormod_of_fmod_nonneg (h : 0 ≤ fkey (fmod d a m)) : floormod d d' a m = ofSignMag false (fmag (fmod d a m)) := by
  have hlt := not_flt_of_fkey_le (b := fzero) (fkey_fzero.trans_le h)
  simp only [floormod, if_neg hlt]
  exact ite_feq_fzero_eq h

/-- To a negative remainder the divisor is added. -/
theorem floormod_of_fmod_neg (hlt : flt (fmod d a m) fzero = true) (h : 0 ≤ fkey (fadd d' (fmod d a m) m)) :
    floormod d d' a m = ofSignMag false (fmag (fadd d' (fmod d a m) m)) := by
  simp only [floormod, if_pos hlt]
  exact ite_feq_fzero_eq h

/-- floormod of finite operands is the floor remainder rounded once. -/
theorem floormod_of_finite (ha : isFinite a = true) (hm : isFinite m = true) (hpos : 0 < units m) :
    floormod d d' a m = ofSignMag false (roundMag (units a % units m).toNat 1) := by
  have hz : fmag m ≠ 0 := fun h => by simp [units, h] at hpos
  have hr := units_fmod d ha hm hz
  have hmod := emod_eq_ite_tmod (units a) hpos
  rw [← hr] at hmod
  have hnonneg := Int.emod_nonneg (units a) hpos.ne'
  rcases le_or_gt 0 (units (fmod d a m)) with h | h
  · rw [floormod_of_fmod_nonneg d d' (units_nonneg.1 h), hmod, if_neg (not_lt.2 h), units_of_nonneg h,
      roundMag_exact Nat.one_pos (isFinite_iff.1 (isFinite_fmod d ha hm hz)).le (by simp)]
  · have hgt := Int.lt_tmod_of_pos (units a) hpos
    rw [if_pos h] at hmod
    have hadd : fadd d' (fmod d a m) m = ofSignMag false (roundMag (units a % units m).toNat 1) := by
      rw [fadd_of_finite d' (isFinite_fmod d ha hm hz) hm, ← hmod, roundUnits_of_ne_zero _ (by omega),
        decide_eq_false (not_lt.2 hnonneg), show (units a % units m).natAbs = (units a % units m).toNat by omega]
    have hlt : flt (fmod d a m) fzero = true :=
      flt_fzero_iff.2 ⟨isNaN_of_isFinite (isFinite_fmod d ha hm hz), not_le.1 (mt units_nonneg.2 (not_le.2 h))⟩
    rw [floormod_of_fmod_neg d d' hlt (by simp [hadd, fkey_nonneg]), hadd, fmag_ofSignMag_roundMag]

/-- floormod by +inf (log 8). -/
theorem floormod_of_inf (ha : isFinite a = true) (hm : isInf m = true) (hs : fsign m = false) :
    floormod d d' a m = if flt a fzero then m else ofSignMag false (fmag a) := by
  have hr := fmod_of_finite_inf d ha hm
  split_ifs with h
  · have hadd := fadd_of_finite_inf d' ha hm
    rw [floormod_of_fmod_neg d d' (by rwa [hr]) (by simp [hr, hadd, fkey_nonneg, hs]), hr, hadd, ← hs, ofSignMag_self]
  · have hk : 0 ≤ fkey a := not_lt.1 fun hk => h (flt_fzero_iff.2 ⟨isNaN_of_isFinite ha, hk⟩)
    rw [floormod_of_fmod_nonneg d d' (by rwa [hr]), hr]

/-- The truncated remainder is the result where it is not negative (R20). -/
theorem units_floormod_of_nonneg (ha : isFinite a = true) (hm : isFinite m = true) (hz : fmag m ≠ 0)
    (h : 0 ≤ Int.tmod (units a) (units m)) : units (floormod d d' a m) = Int.tmod (units a) (units m) := by
  rw [← units_fmod d ha hm hz] at h ⊢
  rw [floormod_of_fmod_nonneg d d' (units_nonneg.1 h), units_ofSignMag _ (fmag_lt _), units_of_nonneg h,
    if_neg (by decide)]

end

/-- A positive word of at most the magnitude of m lies in [+0, m]. -/
theorem ofSignMag_within {k : Nat} {m : Word} (hn : isNaN m = false) (hs : fsign m = false) (hk : k ≤ fmag m) :
    fle fzero (ofSignMag false k) = true ∧ fsign (ofSignMag false k) = false ∧ fle (ofSignMag false k) m = true := by
  have hm : fmag m ≤ infMag := by simpa [isNaN] using hn
  have hkn := isNaN_ofSignMag (s := false) (hk.trans hm)
  have hkey : fkey (ofSignMag false k) = k := by simp [fkey, fmag_ofSignMag false (hk.trans_lt (fmag_lt m))]
  refine ⟨fzero_fle_iff.2 ⟨hkn, by omega⟩, fsign_ofSignMag _ _, fle_iff.2 ⟨hkn, hn, ?_⟩⟩
  rw [hkey, fkey, hs]
  simpa using hk

/-- floormod of a finite value lies in [+0, m] with the sign + (R20). -/
theorem floormod_within (d d' : NaNBits) {a m : Word} (ha : isFinite a = true) (hpos : fgt m fzero = true) :
    fle fzero (floormod d d' a m) = true ∧ fsign (floormod d d' a m) = false ∧ fle (floormod d d' a m) m = true := by
  obtain ⟨hn, hk⟩ := fgt_fzero_iff.1 hpos
  have hs := fsign_of_fkey_pos hk
  rcases isFinite_or_isInf hn with hm | hm
  · have hu := units_pos.2 hk
    rw [floormod_of_finite d d' ha hm hu]
    refine ofSignMag_within hn hs (roundMag_le Nat.one_pos ?_)
    have h1 := Int.emod_lt_of_pos (units a) hu
    have h2 := units_of_nonneg hu.le
    omega
  · rw [floormod_of_inf d d' ha hm hs]
    split
    · obtain ⟨h0, -, h1⟩ := ofSignMag_within hn hs le_rfl
      rw [← hs, ofSignMag_self] at h0 h1
      exact ⟨h0, hs, h1⟩
    · exact ofSignMag_within hn hs (by rw [isInf_iff.1 hm]; exact (isFinite_iff.1 ha).le)

/-- Settles O60: floormod is the floor remainder rounded once, for m = +inf by its two branches. -/
theorem floormodRange : Obligations.FloormodRange := by
  intro d d' a m hpos
  obtain ⟨hn, hk⟩ := fgt_fzero_iff.1 hpos
  have hz : fmag m ≠ 0 := mt fkey_eq_zero.2 hk.ne'
  have hs := fsign_of_fkey_pos hk
  refine ⟨fun ha => floormod_within d d' ha hpos, fun ha hm => ⟨?_, units_floormod_of_nonneg d d' ha hm hz, fun h => ?_⟩,
    fun ha hm => ⟨fun h => ?_, fun h => ?_, fun h => ?_⟩, fun ha => ?_⟩
  · rw [floormod_of_finite d d' ha hm (units_pos.2 hk)]
    exact rounded_roundMag _ _ Nat.one_pos
  · by_contra hneg
    have hr := units_floormod_of_nonneg d d' ha hm hz (not_lt.1 hneg)
    rw [units_eq_iff.2 (feq_iff.1 h).2.2] at hr
    exact absurd (Int.tmod_lt_of_pos (units a) (units_pos.2 hk)) (by omega)
  · rw [floormod_of_inf d d' ha hm hs, if_pos h]
  · rw [floormod_of_inf d d' ha hm hs, if_neg (not_flt_of_fkey_le (fgt_iff.1 h).2.2.le),
      ← fsign_of_fkey_pos (fgt_fzero_iff.1 h).2, ofSignMag_self]
  · rw [floormod_of_inf d d' ha hm hs, if_neg (not_flt_of_fkey_le (by rw [fkey_eq_zero.2 h, fkey_fzero])), h]
    decide
  · have h := isNaN_fmod_of_not_isFinite d m ha
    rwa [floormod_of_isNaN d d' h]

end Sys2Proof.Machine
end

section
/-! SUPPORT. 10_state.md R34, R54; 60_exceptions.md R224, R225: the invariant of the block holds after reset (O6), and every
step keeps it (O8). -/

namespace Sys2Proof.Machine

/-! ## STATUS (R34, R35) -/

section
variable {t : Status}

theorem Status.reset_sound : Status.reset.Sound := ⟨by decide, by decide⟩

/-- A completion leaves BUSY = 0, and ERR set exactly for a cause. -/
theorem Status.complete_sound (c : Cause) : (t.complete c).Sound := ⟨by simp, by simp⟩

theorem Status.accept_sound (w : Word) : (t.accept w).Sound := ⟨by simp, by simp⟩

theorem Status.dropWrite_sound (h : t.Sound) : t.dropWrite.Sound := h

/-- ERR and CAUSE are cleared together (R35). -/
theorem Status.clear_sound (h : t.Sound) (v : Word) : (t.clear v).Sound := by
  obtain ⟨hbusy, herr⟩ := h
  refine ⟨fun hb => ?_, ?_⟩
  · obtain ⟨hd, he, hc⟩ := hbusy hb
    simp [hd, he, hc]
  · rw [Status.clear_err, Status.clear_cause]
    cases v.getLsbD 2
    · simpa using herr
    · simp

end

/-! ## The state operations -/

/-- The block right after reset, whatever its buffers read as. -/
theorem State.inv_of_reset {s : State} (hm : s.mem.Sound) (hg : s.regs = Regs.reset) (ht : s.status = Status.reset)
    (hp : s.pend = 0#64) : s.Inv := by
  refine ⟨hm, ht ▸ Status.reset_sound, ?_, ?_, ?_, ?_⟩
  · rw [ht, hp]
    decide
  · rw [ht, hp]
    decide
  · rw [hg]
    decide
  · rw [hg]
    decide

theorem State.afterReset_inv (s : State) : s.afterReset.Inv := State.inv_of_reset s.mem.afterReset_sound rfl rfl rfl

section
variable {s : State}

theorem State.Inv.mem_sound (h : s.Inv) : s.mem.Sound := h.1
theorem State.Inv.status_sound (h : s.Inv) : s.status.Sound := h.2.1

/-- A STATUS update that is sound and keeps LAST_OP and LAST_KIND keeps the invariant. -/
theorem State.Inv.of_status {u : State} (h : s.Inv) (hg : u.regs = s.regs) (hm : u.mem = s.mem) (hp : u.pend = s.pend)
    (ht : u.status.Sound) (ho : u.status.lastOp = s.status.lastOp) (hk : u.status.lastKind = s.status.lastKind) :
    u.Inv := by
  obtain ⟨hmem, -, hop, hkind, hlen⟩ := h
  refine ⟨hm ▸ hmem, ht, ?_, ?_, hg ▸ hlen⟩
  · rw [ho, hp, hop]
  · rw [hk, hp, hkind]

theorem State.Inv.finish (h : s.Inv) (c : Cause) : (s.finish c).Inv :=
  h.of_status rfl rfl rfl (Status.complete_sound c) rfl rfl

theorem State.Inv.dropWrite (h : s.Inv) : s.dropWrite.Inv :=
  h.of_status rfl rfl rfl (Status.dropWrite_sound h.status_sound) rfl rfl

theorem State.Inv.writeStatus (h : s.Inv) (v : Word) : (s.writeStatus v).Inv :=
  h.of_status rfl rfl rfl (Status.clear_sound h.status_sound v) rfl rfl

/-- An acceptance sets LAST_OP and LAST_KIND with PEND (R224). -/
theorem State.Inv.accept (h : s.Inv) (w : Word) : (s.accept w).Inv := by
  obtain ⟨hmem, -, -, -, hlen⟩ := h
  exact ⟨hmem, Status.accept_sound w, rfl, rfl, hlen⟩

/-- The host can write neither Y_LEN nor RESP_LEN. -/
theorem State.Inv.setReg (h : s.Inv) {r : Reg} (hr : r.writable = true) (v : Word) : (s.setReg r v).Inv := by
  obtain ⟨hmem, hstatus, hop, hkind, hy, hresp⟩ := h
  refine ⟨hmem, hstatus, hop, hkind, ?_⟩
  cases r with
  | yLen | respLen => simp [Reg.writable] at hr
  | _ => exact ⟨hy, hresp⟩

theorem State.Inv.setElems (h : s.Inv) {b : Buf} {i : Nat} {ws : List Word} (hw : i + ws.length ≤ b.depth) :
    (s.setElems b i ws).Inv := ⟨State.setElems_sound h.mem_sound hw, h.2⟩

theorem State.Inv.submit (h : s.Inv) (w : Word) : (s.submit w).Inv := by
  unfold State.submit
  split_ifs
  · exact h.dropWrite
  · exact h.accept w

theorem State.Inv.store (h : s.Inv) (off : Nat) (v : Word) : (s.store (locate off) v).Inv := by
  rcases s.store_cases (locate off) v with ⟨r, -, hr, e⟩ | ⟨i, hl, e⟩ | ⟨-, e⟩ <;> rw [e]
  · exact h.setReg hr v
  · exact h.setElems (Nat.succ_le_of_lt (locate_elem hl))
  · exact h

theorem State.Inv.hostWrite (h : s.Inv) (off : Nat) (v : Word) : (s.hostWrite off v).Inv := by
  rcases s.hostWrite_cases off v with ⟨-, e⟩ | ⟨-, e⟩ | ⟨-, -, ⟨-, -, e⟩ | ⟨-, -, e⟩ | ⟨-, e⟩⟩ <;> rw [e]
  · exact h.submit v
  · exact h.writeStatus v
  · exact h.dropWrite
  · exact h
  · exact h.store off v

/-! ## Completions -/

theorem Commits.inv {u : State} {i : Instr} (hc : Commits s i u) (h : s.Inv) : u.Inv := by
  obtain ⟨hmem, hstatus, hop, hkind, hlen⟩ := h
  refine ⟨hc.sound hmem, ?_, ?_, ?_, hc.lengths hlen⟩
  · rwa [hc.status]
  · rwa [hc.status, hc.pend]
  · rwa [hc.status, hc.pend]

theorem State.Inv.exec {t : State} {i : Instr} (h : s.Inv) (he : exec i s = .next t) : t.Inv := by
  rcases exec_cases he with ⟨c, -, rfl⟩ | ⟨u, hu, rfl⟩
  · exact h.finish c
  · exact (hu.inv h).finish .none

/-- The invariant does not speak of the steps to come. -/
theorem State.Inv.withInputs (h : s.Inv) (rest : List Input) : { s with inputs := rest }.Inv := h

end

/-! ## The statements -/

/-- Settles O6: nothing is listed in the buffers, and STATUS, PEND and the lengths are 0. -/
theorem resetStateInvariant : Obligations.ResetStateInvariant :=
  State.inv_of_reset ⟨.nil, by simp [State.reset]⟩ rfl rfl rfl

/-- Settles O8, by the kinds of step. -/
theorem stepKeepsInvariant : Obligations.StepKeepsInvariant := by
  intro s t h hstep
  cases step_cases hstep with
  | idle rest => exact h.withInputs rest
  | command rest _ _ _ _ _ he => exact (h.withInputs rest).exec he
  | illegal rest => exact (h.withInputs rest).finish .illegalCmd
  | read off _ rest => exact h.withInputs rest
  | write off _ v rest => exact (h.withInputs rest).hostWrite off v
  | reset rest => exact State.afterReset_inv _

end Sys2Proof.Machine
end

section
/-! SUPPORT. 10_state.md R34, R35: STATUS as the host reads it (O38) and writes it (O39), and who sets and clears OVR (O48). -/

namespace Sys2Proof.Machine

open Sys2Proof.Claims

/-! ## The word of STATUS (R34) -/

/-- The fields of more than one bit: each is a slice of the word. -/
theorem Status.toWord_slices (t : Status) :
    t.toWord.extractLsb' 8 4 = t.lastOp ∧ t.toWord.extractLsb' 12 2 = t.lastKind ∧
    t.toWord.extractLsb' 14 50 = 0#50 ∧ t.toWord.extractLsb' 4 4 = t.cause.code := by
  refine ⟨?_, ?_, ?_, ?_⟩ <;> refine BitVec.eq_of_getLsbD_eq fun i hi => ?_ <;>
    simp (disch := omega) only [Status.toWord, BitVec.getLsbD_extractLsb', BitVec.getLsbD_append, if_neg, if_true, hi,
      decide_true, Bool.true_and, Nat.add_sub_cancel_left, Nat.sub_sub]

theorem Status.toWord_flags (t : Status) :
    t.toWord.getLsbD 0 = t.busy ∧ t.toWord.getLsbD 1 = t.done ∧ t.toWord.getLsbD 2 = t.err ∧
    t.toWord.getLsbD 3 = t.ovr := by
  simp only [Status.toWord, BitVec.getLsbD_append]
  simp

/-- Settles O38, flag by flag and slice by slice. -/
theorem statusWordLayout : Obligations.StatusWordLayout := by
  intro t
  obtain ⟨hop, hkind, hrsv, hcause⟩ := t.toWord_slices
  obtain ⟨hbusy, hdone, herr, hovr⟩ := t.toWord_flags
  refine ⟨hbusy, hdone, herr, hovr, hop, hkind, hrsv, ?_⟩
  rw [hcause]
  cases t.cause <;> rfl

/-! ## A host write of STATUS (R35) -/

/-- An admitted host write always answers (20_memory.md R75). -/
theorem step_write {s : State} {off size : Nat} {v : Word} {rest : List Input}
    (hi : s.inputs = .write off size v :: rest) (ha : admitted off size = true) :
    step s = .next ({ s with inputs := rest }.hostWrite off v) := by
  simp only [step, hi, access, ha, if_true]

theorem State.hostWrite_status (s : State) (v : Word) : s.hostWrite 0x018 v = s.writeStatus v := by
  rw [State.hostWrite, show locate 0x018 = .status by decide]

/-- While BUSY = 1 there is nothing but OVR to clear. -/
theorem Status.clear_of_busy {t : Status} (h : t.Sound) (hb : t.busy = true) (v : Word) :
    t.clear v = { t with ovr := (t.clear v).ovr } := by
  obtain ⟨hd, he, hc⟩ := h.1 hb
  simp [Status.clear, hd, he, hc]

/-- Settles O39: clearing a field where a 1 is written is what `Status.clear` says with `&&`. -/
theorem statusWriteClearsFieldByField : Obligations.StatusWriteClearsFieldByField := by
  intro s v rest hi
  have hstep := step_write hi (by decide)
  rw [State.hostWrite_status] at hstep
  refine ⟨?_, fun hb hs => ⟨_, hstep, Status.clear_of_busy hs hb v⟩⟩
  have hclear : ∀ a b : Bool, (a && !b) = if b then false else a := by decide
  simp only [hstep, State.writeStatus, Status.clear, hclear]

/-! ## OVR (R34, R260) -/

/-- An RW location is one of those the statements name by offset. -/
theorem rwLocation_of_writable {off : Nat} (ha : off % 8 = 0) (h : (locate off).writable = true) : RwLocation off := by
  cases hl : locate off with
  | reg r =>
    rw [hl] at h
    rw [locate_reg] at hl
    subst hl
    left
    cases r with
    | yLen | respLen => simp [Loc.writable, Reg.writable] at h
    | _ => simp [RwRegister, Reg.offset]
  | elem b i =>
    rw [hl] at h
    cases b with
    | x =>
      obtain ⟨ho, hd⟩ := locate_elem_offset ha hl
      simp only [Buf.addr, Buf.base, Buf.depth, Config.bufDepth] at ho hd
      exact .inr ⟨by omega, by omega⟩
    | _ => simp [Loc.writable] at h
  | _ => simp [hl, Loc.writable] at h

theorem exec_ovr {i : Instr} {s t : State} (h : exec i s = .next t) : t.status.ovr = s.status.ovr := by
  rcases exec_cases h with ⟨c, -, rfl⟩ | ⟨u, hu, rfl⟩
  · rfl
  · rw [State.finish_status, Status.complete_ovr, hu.status]

theorem State.store_status (s : State) (l : Loc) (v : Word) : (s.store l v).status = s.status := by
  rcases s.store_cases l v with ⟨r, -, -, e⟩ | ⟨i, -, e⟩ | ⟨-, e⟩ <;> rw [e] <;> rfl

/-- A host write clears OVR at STATUS alone, and sets it where it is dropped (R35, R224, R260). -/
theorem State.hostWrite_ovr (s : State) (off : Nat) (v : Word) : (s.hostWrite off v).status.ovr =
    if locate off = .status then s.status.ovr && !v.getLsbD 3
    else s.status.ovr || s.status.busy && (decide (locate off = .cmd) || (locate off).writable) := by
  rcases s.hostWrite_cases off v with ⟨hl, e⟩ | ⟨hl, e⟩ | ⟨hc, hs, ⟨hb, hw, e⟩ | ⟨hb, hw, e⟩ | ⟨hb, e⟩⟩ <;> rw [e]
  · unfold State.submit
    split_ifs with hb <;> simp_all
  · simp [hl]
  · simp [hs, hb, hw]
  · simp [hc, hs, hw]
  · simp [hs, hb, State.store_status]

/-- What a step does to OVR: reset clears it, a host write says for itself, and every other step keeps it. -/
theorem step_ovr {s t : State} (h : step s = .next t) :
    t.status.ovr = s.status.ovr ∨
    (∃ rest, s.inputs = .reset :: rest) ∧ t.status.ovr = false ∨
    ∃ off v rest, s.inputs = .write off 8 v :: rest ∧ off % 8 = 0 ∧ t.status.ovr = (s.hostWrite off v).status.ovr := by
  cases step_cases h with
  | idle rest => exact .inl rfl
  | command rest _ _ _ _ _ he => exact .inl (exec_ovr he :)
  | illegal rest => exact .inl rfl
  | read off _ rest => exact .inl rfl
  | reset rest hi => exact .inr (.inl ⟨⟨rest, hi⟩, rfl⟩)
  | write off size v rest hi ha =>
    obtain ⟨rfl, halign, -⟩ := admitted_iff.1 ha
    exact .inr (.inr ⟨off, v, rest, hi, halign, by rw [State.hostWrite_ovr, State.hostWrite_ovr]⟩)

/-- Settles O48: a step that changes OVR is reset, a write of STATUS or a dropped write. -/
theorem ovrIsSticky : Obligations.OvrIsSticky := by
  intro s t hstep
  rcases step_ovr hstep with e | ⟨hr, e⟩ | ⟨off, v, rest, hi, ha, e⟩ <;> rw [e]
  · exact ⟨fun h h' => by simp [h] at h', fun h h' => by simp [h] at h'⟩
  · exact ⟨fun _ _ => .inr hr, fun _ h => by simp at h⟩
  · rw [State.hostWrite_ovr]
    split_ifs with hl
    · obtain rfl := locate_status hl
      exact ⟨fun h h' => .inl ⟨v, rest, hi, by simpa [h] using h'⟩, fun h h' => by simp [h] at h'⟩
    · refine ⟨fun h h' => by simp [h] at h', fun h h' => ?_⟩
      simp only [h, Bool.false_or, Bool.and_eq_true, Bool.or_eq_true, decide_eq_true_iff] at h'
      obtain ⟨hb, hw⟩ := h'
      exact ⟨hb, off, v, rest, hi, hw.imp locate_cmd (rwLocation_of_writable ha)⟩

end Sys2Proof.Machine
end

section
/-! SUPPORT. 10_state.md R49 to R51, R57; 60_exceptions.md R227: a command changes nothing outside its output set, so the engine
keeps the parameter registers (O50), and who writes the buffers (O49). -/

namespace Sys2Proof.Machine

open Sys2Proof.Claims

/-! ## The frame of a command (R227) -/

/-- Elements written from the first one on leave the other elements. -/
theorem State.elem_setElems_outside (s : State) {b b' : Buf} {j : Nat} {ws : List Word} (hw : ws.length ≤ b.depth)
    (hj : j < b'.depth) (h : b' = b → ws.length ≤ j) : (s.setElems b 0 ws).elem b' j = s.elem b' j := by
  rw [State.elem_setElems s (by simpa using hw) hj, dif_neg]
  rintro ⟨hb, -, hlt⟩
  have := h hb
  omega

section
variable {s t u : State} {i : Instr}

theorem Commits.get_of_not_output (h : Commits s i u) {r : Reg} (hr : outputSet i s.regs (.reg r) = false) :
    u.regs.get r = s.regs.get r := by
  cases h with
  | gen hi ws =>
    have hne : r ≠ .xLen := by
      rintro rfl
      rcases hi with rfl | rfl | rfl <;> simp [outputSet] at hr
    exact (Regs.get_set ..).trans (if_neg hne)
  | design c =>
    cases r with
    | b0 | b1 | b2 | a0 | a1 | a2 => simp [outputSet] at hr
    | _ => rfl
  | filter ws =>
    have hne : r ≠ .yLen := by
      rintro rfl
      simp [outputSet] at hr
    exact (Regs.get_set ..).trans (if_neg hne)
  | eval fr mg ph =>
    have hne : r ≠ .respLen := by
      rintro rfl
      simp [outputSet] at hr
    exact (Regs.get_set ..).trans (if_neg hne)

theorem Commits.elem_of_not_output (h : Commits s i u) {b : Buf} {j : Nat} (hj : j < b.depth)
    (hb : outputSet i s.regs (.elem b j) = false) : u.elem b j = s.elem b j := by
  cases h with
  | gen hi ws hd =>
    refine State.elem_setElems_outside s hd hj ?_
    rintro rfl
    rcases hi with rfl | rfl | rfl <;> simp [outputSet] at hb
  | design c => rfl
  | filter ws hw hd =>
    refine State.elem_setElems_outside s hd hj ?_
    rintro rfl
    simpa [outputSet, hw] using hb
  | eval fr mg ph hf hm hp hd =>
    have houtside : b = .freq ∨ b = .mag ∨ b = .phase → s.regs.npoints.toNat ≤ j := by
      rintro (rfl | rfl | rfl) <;> simpa [outputSet] using hb
    rw [State.setReg_elem,
      State.elem_setElems_outside (b := .phase) _ (hp.trans_le hd) hj fun e => hp.trans_le (houtside (by simp [e])),
      State.elem_setElems_outside (b := .mag) _ (hm.trans_le hd) hj fun e => hm.trans_le (houtside (by simp [e])),
      State.elem_setElems_outside (b := .freq) _ (hf.trans_le hd) hj fun e => hf.trans_le (houtside (by simp [e]))]

theorem exec_get_of_not_output (h : exec i s = .next t) {r : Reg} (hr : outputSet i s.regs (.reg r) = false) :
    t.regs.get r = s.regs.get r := by
  rcases exec_cases h with ⟨c, -, rfl⟩ | ⟨u, hu, rfl⟩
  · rfl
  · exact hu.get_of_not_output hr

theorem exec_elem_of_not_output (h : exec i s = .next t) {b : Buf} {j : Nat} (hj : j < b.depth)
    (hb : outputSet i s.regs (.elem b j) = false) : t.elem b j = s.elem b j := by
  rcases exec_cases h with ⟨c, -, rfl⟩ | ⟨u, hu, rfl⟩
  · rfl
  · exact hu.elem_of_not_output hj hb

/-! ## The engine and the parameter registers (R57) -/

theorem step_of_engineNext {rest : List Input} (h : EngineNext s rest) : step s = engineTurn { s with inputs := rest } := by
  rcases h with hi | ⟨hi, rfl⟩
  · simp only [step, hi]
  · simp only [step, hi]
    rw [← hi]

/-- A register in no command's output set keeps its value at every turn of the engine. -/
theorem engineTurn_get (h : engineTurn s = .next t) {r : Reg} (hr : ∀ i, outputSet i s.regs (.reg r) = false) :
    t.regs.get r = s.regs.get r := by
  unfold engineTurn at h
  split_ifs at h
  · split at h
    · exact exec_get_of_not_output h (hr _)
    · cases h
      rfl
  · cases h
    rfl

/-- Settles O50: no parameter register is in an output set. -/
theorem engineKeepsParameters : Obligations.EngineKeepsParameters := by
  intro s t rest hn hstep r hr
  rw [step_of_engineNext hn] at hstep
  refine engineTurn_get (s := { s with inputs := rest }) hstep fun i => ?_
  simp only [List.mem_cons, List.not_mem_nil, or_false] at hr
  rcases hr with rfl | rfl | rfl | rfl | rfl | rfl | rfl | rfl <;> cases i <;> rfl

/-! ## Who writes the buffers (R49 to R51) -/

/-- The pending output set is that of the command pending while BUSY = 1 (20_memory.md R86). -/
theorem State.outputPending_iff {l : Loc} :
    s.outputPending l = true ↔ s.status.busy = true ∧ ∃ i, decode s.pend = .ok i ∧ outputSet i s.regs l = true := by
  rw [State.outputPending, Bool.and_eq_true]
  cases decode s.pend <;> simp

/-- A host write changes no element but the X element at its offset, and that only while BUSY = 0. -/
theorem State.hostWrite_elem {off : Nat} {v : Word} {b : Buf} {j : Nat} (hj : j < b.depth)
    (hne : (s.hostWrite off v).elem b j ≠ s.elem b j) : s.status.busy = false ∧ b = .x ∧ locate off = .elem b j := by
  rcases s.hostWrite_cases off v with ⟨-, e⟩ | ⟨-, e⟩ | ⟨-, -, ⟨-, -, e⟩ | ⟨-, -, e⟩ | ⟨hb, e⟩⟩ <;> rw [e] at hne
  · unfold State.submit at hne
    split_ifs at hne <;> exact absurd rfl hne
  · exact absurd rfl hne
  · exact absurd rfl hne
  · exact absurd rfl hne
  · rcases s.store_cases (locate off) v with ⟨r, -, -, e⟩ | ⟨i, hl, e⟩ | ⟨-, e⟩ <;> rw [e] at hne
    · exact absurd rfl hne
    · rw [State.elem_setElems_one s (locate_elem hl) hj] at hne
      obtain ⟨rfl, rfl⟩ : b = .x ∧ j = i := by_contra fun h => hne (if_neg h)
      exact ⟨hb, rfl, hl⟩
    · exact absurd rfl hne

/-- A step other than reset changes an element only as the completion of a command it is an output of, or as an idle host
write of that X element. -/
theorem step_elem (h : step s = .next t) (hr : ∀ rest, s.inputs ≠ .reset :: rest) {b : Buf} {j : Nat} (hj : j < b.depth)
    (hne : t.elem b j ≠ s.elem b j) :
    s.outputPending (.elem b j) = true ∨
      s.status.busy = false ∧ b = .x ∧ ∃ v rest, s.inputs = .write (b.addr j) 8 v :: rest := by
  cases step_cases h with
  | idle rest => exact absurd rfl hne
  | command rest _ hb i hd _ he =>
    refine .inl (State.outputPending_iff.2 ⟨hb, i, hd, ?_⟩)
    by_contra ho
    exact hne (exec_elem_of_not_output he hj (Bool.not_eq_true _ ▸ ho))
  | illegal rest => exact absurd rfl hne
  | read off _ rest => exact absurd rfl hne
  | write off size v rest hi ha =>
    obtain ⟨rfl, halign, -⟩ := admitted_iff.1 ha
    obtain ⟨hb, hx, hl⟩ := State.hostWrite_elem hj hne
    exact .inr ⟨hb, hx, v, rest, (locate_elem_offset halign hl).1 ▸ hi⟩
  | reset rest hi => exact absurd hi (hr rest)

end

/-! ## The commands whose output set holds elements of each buffer (R227) -/

section
variable {i : Instr} {g : Regs} {k : Nat}

theorem outputSet_x (h : outputSet i g (.elem .x k) = true) : i = .genSine ∨ i = .genSaw ∨ i = .genSquare := by
  cases i <;> simp [outputSet] at h ⊢

theorem outputSet_y (h : outputSet i g (.elem .y k) = true) : i = .filter := by
  cases i <;> simp [outputSet] at h ⊢

theorem outputSet_curve {b : Buf} (hb : b ∈ [Buf.freq, .mag, .phase]) (h : outputSet i g (.elem b k) = true) :
    i = .eval := by
  cases b with
  | x | y => simp at hb
  | freq | mag | phase => cases i <;> simp [outputSet] at h ⊢

end

/-- Settles O49: each buffer's elements are in the output set of its own commands alone. -/
theorem whoWritesTheBuffers : Obligations.WhoWritesTheBuffers := by
  intro s t hstep hr
  refine ⟨fun k hk hne => ?_, fun k hk hne => ?_, fun b hb k hk hne => ?_⟩
  · rcases step_elem hstep hr hk hne with h | ⟨hidle, -, h⟩
    · obtain ⟨hbusy, i, hd, ho⟩ := State.outputPending_iff.1 h
      exact .inl ⟨hbusy, by rcases outputSet_x ho with rfl | rfl | rfl <;> simp [hd]⟩
    · exact .inr ⟨hidle, h⟩
  · rcases step_elem hstep hr hk hne with h | ⟨-, h, -⟩
    · obtain ⟨hbusy, i, hd, ho⟩ := State.outputPending_iff.1 h
      exact ⟨hbusy, outputSet_y ho ▸ hd⟩
    · exact absurd h (by decide)
  · have hdepth : k < b.depth ∧ b ≠ .x := by
      cases b with
      | x | y => simp at hb
      | freq | mag | phase => exact ⟨hk, by decide⟩
    rcases step_elem hstep hr hdepth.1 hne with h | ⟨-, h, -⟩
    · obtain ⟨hbusy, i, hd, ho⟩ := State.outputPending_iff.1 h
      exact ⟨hbusy, outputSet_curve hb ho ▸ hd⟩
    · exact absurd h hdepth.2

end Sys2Proof.Machine
end

section
/-! SUPPORT. 10_state.md R37, R39, R40; 30_encoding.md R105: a register that a command neither reads nor writes has no effect on
it (O36). -/

namespace Sys2Proof.Machine

/-- The coefficient registers (10_state.md R47). -/
def coeffRegs : List Reg := [.b0, .b1, .b2, .a0, .a1, .a2]

/-- The registers a command reads (R105), then those it writes (60_exceptions.md R227). `exec_setReg` says that it depends on
no other. -/
def usedRegs : Instr → List Reg
  | .genSine => [.fs, .dur, .fundHz, .ampl] ++ [.xLen]
  | .genSaw | .genSquare => [.fs, .dur, .fundHz] ++ [.xLen]
  | .genUnknownKind => []
  | .design => [.fs, .fc, .q] ++ coeffRegs
  | .filter => .xLen :: coeffRegs ++ [.yLen]
  | .eval => [.fs, .npoints] ++ coeffRegs ++ [.respLen]

/-! ## Registers -/

section
variable (g : Regs) {r r' : Reg} (v : Word)

theorem Regs.get_set_of_ne (h : r ≠ r') : (g.set r v).get r' = g.get r' := by rw [Regs.get_set, if_neg h.symm]

theorem Regs.fundHz_set (h : r ≠ .fundHz) : (g.set r v).fundHz = g.fundHz := g.get_set_of_ne v h
theorem Regs.fs_set (h : r ≠ .fs) : (g.set r v).fs = g.fs := g.get_set_of_ne v h
theorem Regs.dur_set (h : r ≠ .dur) : (g.set r v).dur = g.dur := g.get_set_of_ne v h
theorem Regs.ampl_set (h : r ≠ .ampl) : (g.set r v).ampl = g.ampl := g.get_set_of_ne v h
theorem Regs.fc_set (h : r ≠ .fc) : (g.set r v).fc = g.fc := g.get_set_of_ne v h
theorem Regs.q_set (h : r ≠ .q) : (g.set r v).q = g.q := g.get_set_of_ne v h
theorem Regs.npoints_set (h : r ≠ .npoints) : (g.set r v).npoints = g.npoints := g.get_set_of_ne v h
theorem Regs.xLen_set (h : r ≠ .xLen) : (g.set r v).xLen = g.xLen := g.get_set_of_ne v h

theorem Regs.set_comm (h : r ≠ r') (w : Word) : (g.set r v).set r' w = (g.set r' w).set r v := by
  refine Regs.ext_get fun r'' => ?_
  simp only [Regs.get_set]
  split_ifs with h1 h2
  · exact absurd (h2.symm.trans h1) h
  all_goals rfl

theorem Regs.coeffs_set (h : r ∉ coeffRegs) : (g.set r v).coeffs = g.coeffs := by
  cases r with
  | b0 | b1 | b2 | a0 | a1 | a2 => simp [coeffRegs] at h
  | _ => rfl

theorem Regs.setCoeffs_set (h : r ∉ coeffRegs) (c : Coeffs) : (g.set r v).setCoeffs c = (g.setCoeffs c).set r v := by
  cases r with
  | b0 | b1 | b2 | a0 | a1 | a2 => simp [coeffRegs] at h
  | _ => rfl

end

/-! ## The runs of the commands -/

section
variable (s : State) {r : Reg} (v : Word)

theorem State.setReg_comm {r' : Reg} (h : r ≠ r') (w : Word) : (s.setReg r v).setReg r' w = (s.setReg r' w).setReg r v :=
  congrArg (fun g => { s with regs := g }) (s.regs.set_comm v h w)

theorem State.nanAt_setReg : (s.setReg r v).nanAt = s.nanAt := rfl
theorem State.elems_setReg : (s.setReg r v).elems = s.elems := rfl
theorem State.setElems_setReg (b : Buf) (i : Nat) (ws : List Word) :
    (s.setReg r v).setElems b i ws = (s.setElems b i ws).setReg r v := rfl

/-- Completing is the same with the register set before as after. -/
theorem State.complete_setReg {e e' : Except Cause State} (h : e' = e.map (·.setReg r v)) :
    (s.setReg r v).complete e' = (s.complete e).setReg r v := by
  subst h
  cases e <;> rfl

theorem genCommit_setReg (h : r ≠ .xLen) (ws : List Word) :
    genCommit (s.setReg r v) ws = (genCommit s ws).setReg r v := by
  rw [genCommit, State.setElems_setReg, State.setReg_comm _ v h, genCommit]

/-- `f` is the sample, which may read registers of its own. -/
theorem generate_setReg {f : (Nat → NaNBits) → Regs → Nat → Word} (h : r ≠ .fs ∧ r ≠ .dur ∧ r ≠ .xLen)
    (hf : ∀ d k, f d (s.regs.set r v) k = f d s.regs k) :
    generate (s.setReg r v) f = (generate s f).map (·.setReg r v) := by
  obtain ⟨hfs, hdur, hx⟩ := h
  simp only [generate, State.setReg_regs, State.nanAt_setReg, s.regs.fs_set v hfs,
    s.regs.dur_set v hdur, hf, genCommit_setReg _ v hx]
  cases sampleCount (s.nanAt 0 0) s.regs.fs s.regs.dur <;> rfl

theorem designRun_setReg (h : r ∉ usedRegs .design) : designRun (s.setReg r v) = (designRun s).map (·.setReg r v) := by
  obtain ⟨hfs, hfc, hq, hc⟩ : r ≠ .fs ∧ r ≠ .fc ∧ r ≠ .q ∧ r ∉ coeffRegs := by simpa [usedRegs] using h
  simp only [designRun, State.setReg_regs, State.nanAt_setReg, s.regs.fs_set v hfs,
    s.regs.fc_set v hfc, s.regs.q_set v hq, s.regs.setCoeffs_set v hc]
  split_ifs <;> rfl

theorem filterRun_setReg (h : r ∉ usedRegs .filter) : filterRun (s.setReg r v) = (filterRun s).map (·.setReg r v) := by
  obtain ⟨hx, hc, hy⟩ : r ≠ .xLen ∧ r ∉ coeffRegs ∧ r ≠ .yLen := by simpa [usedRegs] using h
  simp only [filterRun, State.setReg_regs, State.nanAt_setReg, State.elems_setReg, State.setElems_setReg,
    s.regs.xLen_set v hx, s.regs.coeffs_set v hc, State.setReg_comm _ v hy]
  split_ifs <;> rfl

theorem evalRun_setReg (h : r ∉ usedRegs .eval) : evalRun (s.setReg r v) = (evalRun s).map (·.setReg r v) := by
  obtain ⟨hfs, hn, hc, hresp⟩ : r ≠ .fs ∧ r ≠ .npoints ∧ r ∉ coeffRegs ∧ r ≠ .respLen := by simpa [usedRegs] using h
  simp only [evalRun, State.setReg_regs, State.nanAt_setReg, State.setElems_setReg,
    s.regs.fs_set v hfs, s.regs.npoints_set v hn, s.regs.coeffs_set v hc, State.setReg_comm _ v hresp]
  split_ifs <;> rfl

/-! ## Every command -/

/-- A register that a command neither reads nor writes has no effect on anything but itself. -/
theorem exec_setReg {i : Instr} (h : r ∉ usedRegs i) :
    ∃ t, exec i s = .next t ∧ exec i (s.setReg r v) = .next (t.setReg r v) := by
  cases i with
  | genSine =>
    obtain ⟨hfs, hdur, hf, ha, hx⟩ : r ≠ .fs ∧ r ≠ .dur ∧ r ≠ .fundHz ∧ r ≠ .ampl ∧ r ≠ .xLen := by
      simpa [usedRegs] using h
    refine ⟨_, exec_genSine s, congrArg _ (s.complete_setReg v (generate_setReg s v ⟨hfs, hdur, hx⟩ fun d k => ?_))⟩
    rw [sineSample, Regs.ampl_set _ v ha, Regs.fundHz_set _ v hf, Regs.fs_set _ v hfs, sineSample]
  | genSaw =>
    obtain ⟨hfs, hdur, hf, hx⟩ : r ≠ .fs ∧ r ≠ .dur ∧ r ≠ .fundHz ∧ r ≠ .xLen := by simpa [usedRegs] using h
    refine ⟨_, exec_genSaw s, congrArg _ (s.complete_setReg v (generate_setReg s v ⟨hfs, hdur, hx⟩ fun d k => ?_))⟩
    rw [sawSample, Regs.fundHz_set _ v hf, Regs.fs_set _ v hfs, sawSample]
  | genSquare =>
    obtain ⟨hfs, hdur, hf, hx⟩ : r ≠ .fs ∧ r ≠ .dur ∧ r ≠ .fundHz ∧ r ≠ .xLen := by simpa [usedRegs] using h
    refine ⟨_, exec_genSquare s, congrArg _ (s.complete_setReg v (generate_setReg s v ⟨hfs, hdur, hx⟩ fun d k => ?_))⟩
    rw [squareSample, Regs.fundHz_set _ v hf, Regs.fs_set _ v hfs, squareSample]
  | genUnknownKind => exact ⟨_, exec_genUnknownKind s, rfl⟩
  | design => exact ⟨_, exec_design s, congrArg _ (s.complete_setReg v (designRun_setReg s v h))⟩
  | filter => exact ⟨_, exec_filter s, congrArg _ (s.complete_setReg v (filterRun_setReg s v h))⟩
  | eval => exact ⟨_, exec_eval s, congrArg _ (s.complete_setReg v (evalRun_setReg s v h))⟩

end

/-- Settles O36: PHASE0 is in no command's list, AMPL in that of GEN.SINE alone, and FS not in that of FILTER. -/
theorem unreadOperandsHaveNoEffect : Obligations.UnreadOperandsHaveNoEffect := by
  intro i s v
  have hphase : .phase0 ∉ usedRegs i := by cases i <;> decide
  have hampl : i ≠ .genSine → .ampl ∉ usedRegs i := by cases i <;> decide
  have hfs : i = .filter → .fs ∉ usedRegs i := by cases i <;> decide
  exact ⟨exec_setReg (r := .phase0) s v hphase, fun h => exec_setReg (r := .ampl) s v (hampl h),
    fun h => exec_setReg (r := .fs) s v (hfs h)⟩

end Sys2Proof.Machine
end

section
/-! SUPPORT. 20_memory.md R76, R79, R84: a step stops at an unadmitted host access and nowhere else (O9, O10), and a command
placed by withFetchWord is the next that runs (O12). -/

namespace Sys2Proof.Machine

/-! ## When a step answers (R76) -/

section
variable {s t : State}

theorem access_next_iff {off size : Nat} {a : State} : (∃ t, access off size a = .next t) ↔ admitted off size = true :=
  ⟨fun ⟨_, h⟩ => (access_next h).1, fun h => ⟨a, if_pos h⟩⟩

/-- Only the entry that is taken decides whether the step answers. -/
theorem step_next_iff : (∃ t, step s = .next t) ↔ ∀ i ∈ s.inputs.head?, i.admitted = true := by
  unfold step
  split
  · next hi => simpa [hi] using engineTurn_next s
  · next rest hi => simpa [hi, Input.admitted] using engineTurn_next { s with inputs := rest }
  · next off size rest hi => simpa [hi, Input.admitted] using access_next_iff
  · next off size v rest hi => simpa [hi, Input.admitted] using access_next_iff
  · next rest hi => simp [hi, Input.admitted]

theorem exec_inputs {i : Instr} (h : exec i s = .next t) : t.inputs = s.inputs := by
  rcases exec_cases h with ⟨c, -, rfl⟩ | ⟨u, hu, rfl⟩
  · rfl
  · exact hu.inputs

/-- A step takes one entry of the order (R80). -/
theorem step_inputs (h : step s = .next t) : t.inputs = s.inputs.tail := by
  have htail : ∀ {rest}, s.inputs = .engine :: rest ∨ s.inputs = [] ∧ rest = [] → rest = s.inputs.tail := by
    rintro rest (hi | ⟨hi, rfl⟩) <;> rw [hi] <;> rfl
  cases step_cases h with
  | idle rest hi => exact htail hi
  | command rest hi _ _ _ _ he => exact (exec_inputs he).trans (htail hi)
  | illegal rest hi => exact htail hi
  | read off size rest hi => rw [hi]; rfl
  | write off size v rest hi => rw [State.hostWrite_inputs, hi]; rfl
  | reset rest hi => rw [hi]; rfl

end

/-- Settles O9: the entry that is taken is admitted, and those left are entries of before. -/
theorem obedientHostNeverStuck : Obligations.ObedientHostNeverStuck := by
  intro s hobeys
  obtain ⟨t, hstep⟩ := step_next_iff.2 fun i hi => hobeys i (List.mem_of_mem_head? hi)
  refine ⟨t, hstep, fun i hi => hobeys i ?_⟩
  rw [step_inputs hstep] at hi
  exact List.mem_of_mem_tail hi

theorem Input.not_admitted_iff {i : Input} : i.admitted ≠ true ↔
    ∃ off size, (i = .read off size ∨ ∃ v, i = .write off size v) ∧ ¬(size = 8 ∧ off % 8 = 0 ∧ off < 2 ^ 22) := by
  cases i with
  | read off size => simpa [Input.admitted] using not_congr (admitted_iff (off := off) (size := size))
  | write off size v => simpa [Input.admitted] using not_congr (admitted_iff (off := off) (size := size))
  | engine => simp [Input.admitted]
  | reset => simp [Input.admitted]

/-- Settles O10: no step is an unadmitted entry at the head of the order. -/
theorem stuckExactlyAtUnadmittedAccess : Obligations.StuckExactlyAtUnadmittedAccess := by
  intro s
  have hstuck : (∀ t, step s ≠ .next t) ↔ ∃ i ∈ s.inputs.head?, i.admitted ≠ true := by
    rw [← not_exists, step_next_iff]
    push Not
    rfl
  simp only [hstuck, Input.not_admitted_iff, Option.mem_def, List.head?_eq_some_iff]
  constructor
  · rintro ⟨i, ⟨rest, hi⟩, off, size, rfl | ⟨v, rfl⟩, hn⟩
    · exact ⟨off, size, .inl ⟨rest, hi⟩, hn⟩
    · exact ⟨off, size, .inr ⟨v, rest, hi⟩, hn⟩
  · rintro ⟨off, size, ⟨rest, hi⟩ | ⟨v, rest, hi⟩, hn⟩
    · exact ⟨_, ⟨rest, hi⟩, off, size, .inl rfl, hn⟩
    · exact ⟨_, ⟨rest, hi⟩, off, size, .inr ⟨v, rfl⟩, hn⟩

/-! ## A command placed by withFetchWord (R84) -/

theorem decode_encode (i : Instr) : decode (encode i) = .ok i := by
  cases i with
  | genSine => exact Laws.Encodes.genSine.2.2
  | genSaw => exact Laws.Encodes.genSaw.2.2
  | genSquare => exact Laws.Encodes.genSquare.2.2
  | genUnknownKind => exact Laws.Encodes.genUnknownKind.2.2
  | design => exact Laws.Encodes.design.2.2
  | filter => exact Laws.Encodes.filter.2.2
  | eval => exact Laws.Encodes.eval.2.2

theorem tableWord_toNat (w : Word) : tableWord 64 w.toNat = w := by
  rw [tableWord, Nat.mod_eq_of_lt w.isLt, BitVec.ofNat_toNat, BitVec.setWidth_eq]

theorem decodeTableWord_toNat (w : Word) : decodeTableWord 64 w.toNat = (decode w).toOption :=
  congrArg (fun w => (decode w).toOption) (tableWord_toNat w)

theorem step_withFetchWord (s : State) (w : Word) : step (s.withFetchWord 64 w.toNat) = engineTurn (s.accept w) := by
  rw [State.withFetchWord, tableWord_toNat]
  rfl

theorem engineTurn_accept {w : Word} {i : Instr} (h : decode w = .ok i) (s : State) :
    engineTurn (s.accept w) = exec i (s.accept w) := by
  simp [engineTurn, h]

/-- Settles O12: the word that is accepted decodes to the command, and the engine has the turn. -/
theorem fetchWordRunsCommand : Obligations.FetchWordRunsCommand := by
  intro s i
  have hd := decode_encode i
  refine ⟨?_, ?_⟩
  · rw [decodeTableWord_toNat, hd, Except.toOption]
  · rw [step_withFetchWord, engineTurn_accept hd]

end Sys2Proof.Machine
end

section
/-! SUPPORT. 20_memory.md R75, R81: what a host write does to an idle block (O41 to O43) and that no access changes the
operands while BUSY = 1 (O47). -/

namespace Sys2Proof.Machine

open Sys2Proof.Claims

/-! ## Accesses that answer -/

theorem admitted_of_aligned {off : Nat} (ha : off % 8 = 0) (hw : off < 2 ^ 22) : admitted off 8 = true :=
  admitted_iff.2 ⟨rfl, ha, hw⟩

/-- An admitted host read always answers (R74). -/
theorem step_read {s : State} {off size : Nat} {rest : List Input} (hi : s.inputs = .read off size :: rest)
    (ha : admitted off size = true) : step s = .next ({ s with inputs := rest }.hostRead off) := by
  simp only [step, hi, access, ha, if_true]

/-! ## A write while BUSY = 1 (R81) -/

theorem State.hostWrite_of_busy {s : State} (hb : s.status.busy = true) (off : Nat) (v : Word) :
    ∃ t : Status, t.busy = true ∧ s.hostWrite off v = { s with status := t } := by
  rcases s.hostWrite_cases off v with ⟨-, e⟩ | ⟨-, e⟩ | ⟨-, -, ⟨-, -, e⟩ | ⟨-, -, e⟩ | ⟨hidle, -⟩⟩
  · exact ⟨s.status.dropWrite, hb, e.trans (if_pos hb)⟩
  · exact ⟨s.status.clear v, hb, e⟩
  · exact ⟨s.status.dropWrite, hb, e⟩
  · exact ⟨s.status, hb, e⟩
  · simp [hb] at hidle

/-- Settles O47: a read changes nothing of the block, and a write while BUSY = 1 only STATUS. -/
theorem operandsFixedWhileBusy : Obligations.OperandsFixedWhileBusy := by
  rintro s t hb hstep (⟨off, size, rest, hi⟩ | ⟨off, size, v, rest, hi⟩) <;> rw [step, hi] at hstep <;>
    obtain ⟨-, rfl⟩ := access_next hstep
  · exact ⟨rfl, rfl, rfl, hb⟩
  · obtain ⟨u, hu, e⟩ := State.hostWrite_of_busy (s := { s with inputs := rest }) hb off v
    rw [e]
    exact ⟨rfl, rfl, rfl, hu⟩

/-! ## A write of an idle block (R75) -/

section
variable {s : State} {off : Nat}

theorem State.hostWrite_of_idle (hb : s.status.busy = false) (hc : locate off ≠ .cmd) (hs : locate off ≠ .status)
    (v : Word) : s.hostWrite off v = s.store (locate off) v := by
  rcases s.hostWrite_cases off v with ⟨h, -⟩ | ⟨h, -⟩ | ⟨-, -, ⟨h, -, -⟩ | ⟨h, -, -⟩ | ⟨-, e⟩⟩
  · exact absurd h hc
  · exact absurd h hs
  · simp [hb] at h
  · simp [hb] at h
  · exact e

theorem State.store_of_not_writable {l : Loc} (h : l.writable = false) (v : Word) : s.store l v = s := by
  rcases s.store_cases l v with ⟨r, rfl, hw, -⟩ | ⟨i, rfl, -⟩ | ⟨-, e⟩
  · simp [Loc.writable, hw] at h
  · simp [Loc.writable] at h
  · exact e

end

/-- Settles O43: such an offset is not writable, so the store leaves it. -/
theorem readOnlyWritesIgnored : Obligations.ReadOnlyWritesIgnored := by
  intro s off v rest hb hi ha hoff hn
  obtain ⟨hcmd, hstatus, hrw⟩ : off ≠ 0x010 ∧ off ≠ 0x018 ∧ ¬ RwLocation off := by simpa [not_or] using hn
  rw [step_write hi (admitted_of_aligned ha hoff), State.hostWrite_of_idle (s := { s with inputs := rest }) hb (fun h => hcmd (locate_cmd h))
    (fun h => hstatus (locate_status h)), State.store_of_not_writable]
  exact Bool.eq_false_iff.2 fun h => hrw (rwLocation_of_writable ha h)

/-! ## A write and the read after it (R74, R75) -/

section
variable {s : State} {off off' : Nat} {v : Word} {rest : List Input}

theorem State.outputPending_of_idle (h : s.status.busy = false) (l : Loc) : s.outputPending l = false := by
  rw [State.outputPending, h, Bool.false_and]

theorem State.readValue_of_idle (h : s.status.busy = false) (l : Loc) : s.readValue l = s.valueAt l := by
  rw [State.readValue, State.outputPending_of_idle h, if_neg Bool.false_ne_true]

/-- A store writes its own location and no other. -/
theorem State.valueAt_store (hw : (locate off).writable = true) :
    (s.store (locate off) v).valueAt (locate off') = if locate off' = locate off then v else s.valueAt (locate off') := by
  rcases s.store_cases (locate off) v with ⟨r, hl, -, e⟩ | ⟨i, hl, e⟩ | ⟨hn, -⟩
  · rw [e, hl]
    cases hl' : locate off' with
    | reg r' => simp [State.valueAt, eq_comm]
    | _ => simp [State.valueAt]
  · rw [e, hl]
    cases hl' : locate off' with
    | elem b j =>
      simp only [State.valueAt, State.elem_setElems_one s (locate_elem hl) (locate_elem hl'), Loc.elem.injEq]
    | _ => simp [State.valueAt]
  · simp [hw] at hn

/-- Two aligned offsets that are not reserved stand for the same location only when they are equal. -/
theorem locate_injective_of_writable (ha : off % 8 = 0) (ha' : off' % 8 = 0) (hw : (locate off).writable = true)
    (h : locate off' = locate off) : off' = off := by
  cases hl : locate off with
  | reg r => rw [locate_reg.1 hl, locate_reg.1 (h.trans hl)]
  | elem b i => rw [(locate_elem_offset ha hl).1, (locate_elem_offset ha' (h.trans hl)).1]
  | _ => simp [hl, Loc.writable] at hw

theorem State.store_withInputs (s : State) (l : Loc) (v : Word) (is : List Input) :
    { s with inputs := is }.store l v = { s.store l v with inputs := is } := by
  cases l with
  | reg r =>
    simp only [State.store]
    split_ifs <;> rfl
  | elem b i => cases b <;> rfl
  | _ => rfl

theorem State.hostRead_of_idle (h : s.status.busy = false) (off : Nat) :
    s.hostRead off = { s with rdata := some (s.valueAt (locate off)) } := by
  rw [State.hostRead, State.readValue_of_idle h, State.outputPending_of_idle h, if_neg Bool.false_ne_true]

/-- A write of an idle RW location and the read after it: the location is set, and the host has the word. -/
theorem step_write_then_read (hb : s.status.busy = false) (hw : (locate off).writable = true) (ha : admitted off 8 = true)
    (hi : s.inputs = .write off 8 v :: .read off 8 :: rest) :
    ∃ t, step s = .next t ∧ step t = .next { s.store (locate off) v with inputs := rest, rdata := some v } := by
  have hc : locate off ≠ .cmd := fun h => by simp [h, Loc.writable] at hw
  have hs : locate off ≠ .status := fun h => by simp [h, Loc.writable] at hw
  have hidle : (s.store (locate off) v).status.busy = false := by rw [State.store_status, hb]
  have hval : (s.store (locate off) v).valueAt (locate off) = v := by rw [State.valueAt_store hw, if_pos rfl]
  refine ⟨{ s.store (locate off) v with inputs := .read off 8 :: rest }, ?_, ?_⟩
  · rw [step_write hi ha, State.hostWrite_of_idle (s := { s with inputs := .read off 8 :: rest }) hb hc hs, State.store_withInputs]
  · rw [step_read rfl ha, State.hostRead_of_idle (s := { s.store (locate off) v with inputs := rest }) hidle]
    exact congrArg (fun w => Host.Outcome.next { s.store (locate off) v with inputs := rest, rdata := some w }) hval

/-- What every other offset reads as after an RW location is written. -/
theorem State.valueAt_store_of_ne (ha : off % 8 = 0) (hw : (locate off).writable = true) (ha' : off' % 8 = 0)
    (hne : off' ≠ off) : (s.store (locate off) v).valueAt (locate off') = s.valueAt (locate off') := by
  rw [State.valueAt_store hw, if_neg fun h => hne (locate_injective_of_writable ha ha' hw h)]

end

/-- The registers the host may write, in the order of their offsets (10_state.md R58). -/
def rwRegs : List Reg := [.fundHz, .fs, .dur, .ampl, .phase0, .fc, .q, .npoints, .xLen, .b0, .b1, .b2, .a0, .a1, .a2]

theorem writable_of_mem_rwRegs : ∀ r ∈ rwRegs, r.writable = true := by decide

theorem exists_reg_of_rwRegister {off : Nat} (h : RwRegister off) : ∃ r : Reg, r.writable = true ∧ off = r.offset := by
  obtain ⟨r, hr, rfl⟩ := List.mem_map.1 (show off ∈ rwRegs.map Reg.offset from h)
  exact ⟨r, writable_of_mem_rwRegs r hr, rfl⟩

theorem Reg.offset_admitted (r : Reg) : admitted r.offset 8 = true := by cases r <;> decide

/-- Settles O41: an RW offset is that of a writable register. -/
theorem registerWriteThenRead : Obligations.RegisterWriteThenRead := by
  intro s off v rest hb hoff hi
  obtain ⟨r, hr, rfl⟩ := exists_reg_of_rwRegister hoff
  have hl : locate r.offset = .reg r := locate_reg.2 rfl
  have hw : (locate r.offset).writable = true := by rw [hl, Loc.writable, hr]
  have ha : r.offset % 8 = 0 := (admitted_iff.1 r.offset_admitted).2.1
  obtain ⟨t, ht, hu⟩ := step_write_then_read hb hw r.offset_admitted hi
  refine ⟨t, _, ht, hu, rfl, fun off' ha' _ hne => State.valueAt_store_of_ne ha hw ha' hne, ?_⟩
  rw [hl, State.store, if_pos hr]
  exact ⟨rfl, rfl, rfl, rfl⟩

/-- Settles O42: an offset of X within depth is that of an element. -/
theorem xWriteThenRead : Obligations.XWriteThenRead := by
  intro s i v rest hb hdepth hi
  have hl : locate (0x100000 + 8 * i) = .elem .x i := locate_addr (b := .x) hdepth
  have hw : (locate (0x100000 + 8 * i)).writable = true := by rw [hl, Loc.writable]
  have ha : (0x100000 + 8 * i) % 8 = 0 := by omega
  obtain ⟨t, ht, hu⟩ := step_write_then_read hb hw (admitted_of_aligned ha (by omega)) hi
  refine ⟨t, _, ht, hu, rfl, fun off' ha' _ hne => State.valueAt_store_of_ne ha hw ha' hne, ?_⟩
  rw [hl, State.store]
  exact ⟨rfl, rfl, rfl, rfl⟩

end Sys2Proof.Machine
end

section
/-! SUPPORT. 20_memory.md R72 to R74, R78, R86; 60_exceptions.md R227: what a host read answers while the block is idle (O44),
at the fixed locations (O45), and while a command word is pending (O46). -/

namespace Sys2Proof.Machine

open Sys2Proof.Claims

/-! ## The offsets of the buffers and the reserved ones (R71, R72) -/

theorem Buf.base_le (b : Buf) : 0x100000 ≤ b.base := by cases b <;> decide

theorem Buf.addr_bounds {b : Buf} {i : Nat} (h : i < b.depth) : 0x100000 ≤ b.addr i ∧ b.addr i < 0x330000 := by
  have hlo := b.base_le
  have hhi := b.depth_le
  unfold Buf.addr
  omega

theorem Buf.addr_aligned (b : Buf) (i : Nat) : b.addr i % 8 = 0 := by
  have hb : b.base % 8 = 0 := by cases b <;> decide
  unfold Buf.addr
  omega

/-- Every aligned offset between the start of X and the end of PHASE is that of an element within depth. -/
theorem exists_elem_of_bounds {off : Nat} (ha : off % 8 = 0) (hlo : 0x100000 ≤ off) (hhi : off < 0x330000) :
    ∃ (b : Buf) (i : Nat), i < b.depth ∧ off = b.addr i := by
  have key : ∀ b : Buf, b.base ≤ off → off < b.base + 8 * b.depth → ∃ (b : Buf) (i : Nat), i < b.depth ∧ off = b.addr i := by
    intro b h1 h2
    have hb := b.addr_aligned 0
    refine ⟨b, (off - b.base) / 8, ?_, ?_⟩ <;> unfold Buf.addr at * <;> omega
  by_cases h1 : off < 0x200000
  · exact key .x hlo h1
  by_cases h2 : off < 0x300000
  · exact key .y (Nat.le_of_not_lt h1) h2
  by_cases h3 : off < 0x310000
  · exact key .freq (Nat.le_of_not_lt h2) h3
  by_cases h4 : off < 0x320000
  · exact key .mag (Nat.le_of_not_lt h3) h4
  · exact key .phase (Nat.le_of_not_lt h4) hhi

theorem registerMap_offset {off : Nat} {l : Loc} (h : (off, l) ∈ registerMap) : off ≤ 0x0A8 ∧ off ≠ 0x078 := by
  have : ∀ e ∈ registerMap, e.1 ≤ 0x0A8 ∧ e.1 ≠ 0x078 := by decide
  exact this _ h

/-- The reserved offsets: no named register is there, and no element. -/
theorem locate_reserved {off : Nat} (ha : off % 8 = 0) (h : off = 0x078 ∨ (0x0B0 ≤ off ∧ off < 0x100000) ∨ 0x330000 ≤ off) :
    locate off = .reserved := by
  by_contra hne
  by_cases hel : ∃ b i, locate off = .elem b i
  · obtain ⟨b, i, hl⟩ := hel
    obtain ⟨rfl, hi⟩ := locate_elem_offset ha hl
    have := Buf.addr_bounds hi
    omega
  · have := registerMap_offset (locate_named rfl hne fun b i hl => hel ⟨b, i, hl⟩)
    omega

/-! ## The current value at an offset (R73, R74) -/

/-- The storing registers in the order of their offsets (10_state.md R58). -/
def storingRegs : List Reg :=
  [.fundHz, .fs, .dur, .ampl, .phase0, .fc, .q, .npoints, .xLen, .yLen, .respLen, .b0, .b1, .b2, .a0, .a1, .a2]

section
variable (s : State) {off : Nat}

theorem State.byteOfWord_elem (b : Buf) (i : Nat) {j : Nat} (hj : j < 8) :
    byteOfWord (s.elem b i) j = s.mem.readByte (b.addr i + j) := by
  rw [State.elem, Memory.readWord, byteOfWord_wordOfBytes _ hj]

theorem State.valueAt_addr {b : Buf} {i : Nat} (hi : i < b.depth) : s.valueAt (locate (b.addr i)) = s.elem b i := by
  rw [locate_addr hi, State.valueAt]

theorem State.valueAt_offset (r : Reg) : s.valueAt (locate r.offset) = s.regs.get r := by
  rw [locate_reg.2 rfl, State.valueAt]

/-- The model's stable value is the current value, offset by offset. -/
theorem State.currentValue_valueAt (ha : off % 8 = 0) : CurrentValue s off (s.valueAt (locate off)) := by
  refine ⟨?_, ?_, fun i hi => ⟨?_, ?_⟩, fun k hk => ⟨?_, ?_, ?_⟩, ?_⟩
  · rintro rfl
    rfl
  · refine List.forall_mem_map (f := fun r : Reg => (r.offset, s.regs.get r)) (l := storingRegs).2 fun r _ h => ?_
    rw [h, State.valueAt_offset]
  · rintro rfl
    exact s.valueAt_addr (b := .x) hi
  · rintro rfl
    exact s.valueAt_addr (b := .y) hi
  · rintro rfl
    exact s.valueAt_addr (b := .freq) hk
  · rintro rfl
    exact s.valueAt_addr (b := .mag) hk
  · rintro rfl
    exact s.valueAt_addr (b := .phase) hk
  · intro hlo hhi j hj
    obtain ⟨b, i, hi, rfl⟩ := exists_elem_of_bounds ha hlo hhi
    rw [s.valueAt_addr hi]
    exact s.byteOfWord_elem b i hj

end

/-- Settles O44: a host read changes nothing of the block, and idle it answers the stable value. -/
theorem readsHaveNoSideEffect : Obligations.ReadsHaveNoSideEffect := by
  intro s off rest hi ha hoff
  refine ⟨_, _, step_read hi (admitted_of_aligned ha hoff), rfl, rfl, rfl, rfl, rfl, rfl, fun hb => ?_⟩
  rw [State.readValue_of_idle (s := { s with inputs := rest }) hb,
    State.hostRead_of_idle (s := { s with inputs := rest }) hb]
  exact ⟨State.currentValue_valueAt { s with inputs := rest } ha, rfl⟩

/-! ## The fixed locations (R74) -/

theorem outputSet_fixed {l : Loc} (h : l ∈ [Loc.id, .cap, .cmd, .status, .reserved]) (i : Instr) (g : Regs) :
    outputSet i g l = false := by
  simp only [List.mem_cons, List.not_mem_nil, or_false] at h
  rcases h with rfl | rfl | rfl | rfl | rfl <;> rfl

theorem State.readValue_fixed (s : State) {l : Loc} (h : l ∈ [Loc.id, .cap, .cmd, .status, .reserved]) :
    s.readValue l = s.valueAt l := by
  rw [State.readValue, if_neg]
  rw [State.outputPending_iff]
  rintro ⟨-, i, -, ho⟩
  simp [outputSet_fixed h] at ho

/-- Settles O45: the fixed locations are in no output set, and their values are constants. -/
theorem fixedLocationsRead : Obligations.FixedLocationsRead := by
  intro s off rest hi ha hoff
  have hread : ∀ {l}, locate off = l → l ∈ [Loc.id, .cap, .cmd, .status, .reserved] →
      ({ s with inputs := rest }.hostRead off).rdata = some ({ s with inputs := rest }.valueAt l) := by
    rintro l rfl h
    rw [State.hostRead_rdata, State.readValue_fixed _ h]
  refine ⟨_, step_read hi (admitted_of_aligned ha hoff), ?_, ?_, ?_⟩
  · rintro rfl
    exact hread (l := .id) rfl (by simp)
  · rintro rfl
    exact hread (l := .cap) rfl (by simp)
  · rintro (rfl | h)
    · exact hread (l := .cmd) rfl (by simp)
    · exact hread (locate_reserved ha h) (by simp)

/-! ## The pending output set (R86, R227) -/

section
variable {b c : Buf} {k : Nat} (hk : k < b.depth)
include hk

/-- An element's address tells its buffer. -/
theorem Buf.addr_mem_iff : c.base ≤ b.addr k ∧ b.addr k < c.base + 8 * c.depth ↔ b = c := by
  constructor
  · intro h
    by_contra hne
    have := Buf.separate hne
    unfold Buf.addr at h
    omega
  · rintro rfl
    unfold Buf.addr
    omega

/-- An element's address is below that of element `n` of a buffer when it is one of the buffer's first `n` elements. -/
theorem Buf.addr_mem_prefix_iff (n : Nat) :
    c.base ≤ b.addr k ∧ b.addr k < c.base + 8 * c.depth ∧ b.addr k < c.base + 8 * n ↔ b = c ∧ k < n := by
  rw [← and_assoc, Buf.addr_mem_iff hk]
  refine and_congr_right ?_
  rintro rfl
  unfold Buf.addr
  omega

theorem Buf.addr_ne_offset (r : Reg) : b.addr k ≠ r.offset := by
  have hlo := (Buf.addr_bounds hk).1
  have hr : r.offset < 0x100000 := by cases r <;> decide
  omega

end

section
variable {i : Instr} {g : Regs} {off : Nat}

theorem outputSet_reg_iff (r : Reg) : outputSet i g (.reg r) = true ↔ InOutputSet i g r.offset := by
  cases i <;> cases r <;> simp [outputSet, InOutputSet, Reg.offset]

theorem outputSet_elem_iff {b : Buf} {k : Nat} (hk : k < b.depth) :
    outputSet i g (.elem b k) = true ↔ InOutputSet i g (b.addr k) := by
  have hx : 0x100000 ≤ b.addr k ∧ b.addr k < 0x200000 ↔ b = .x := Buf.addr_mem_iff (c := .x) hk
  have hy : 0x200000 ≤ b.addr k ∧ b.addr k < 0x300000 ∧ b.addr k < 0x200000 + 8 * g.xLen.toNat ↔
      b = .y ∧ k < g.xLen.toNat := Buf.addr_mem_prefix_iff (c := .y) hk _
  have hf : 0x300000 ≤ b.addr k ∧ b.addr k < 0x310000 ∧ b.addr k < 0x300000 + 8 * g.npoints.toNat ↔
      b = .freq ∧ k < g.npoints.toNat := Buf.addr_mem_prefix_iff (c := .freq) hk _
  have hm : 0x310000 ≤ b.addr k ∧ b.addr k < 0x320000 ∧ b.addr k < 0x310000 + 8 * g.npoints.toNat ↔
      b = .mag ∧ k < g.npoints.toNat := Buf.addr_mem_prefix_iff (c := .mag) hk _
  have hp : 0x320000 ≤ b.addr k ∧ b.addr k < 0x330000 ∧ b.addr k < 0x320000 + 8 * g.npoints.toNat ↔
      b = .phase ∧ k < g.npoints.toNat := Buf.addr_mem_prefix_iff (c := .phase) hk _
  have hreg := Buf.addr_ne_offset hk
  cases i with
  | genSine | genSaw | genSquare =>
    rw [InOutputSet, hx, or_iff_right (show b.addr k ≠ 0x060 from hreg .xLen)]
    cases b <;> simp [outputSet]
  | genUnknownKind => simp [outputSet, InOutputSet]
  | design =>
    refine iff_of_false (by simp [outputSet]) fun h => ?_
    obtain ⟨r, -, hr⟩ := List.mem_map.1 (show b.addr k ∈ coeffRegs.map Reg.offset from h)
    exact hreg r hr.symm
  | filter =>
    rw [InOutputSet, hy, or_iff_right (show b.addr k ≠ 0x068 from hreg .yLen)]
    cases b <;> simp [outputSet]
  | eval =>
    rw [InOutputSet, hf, hm, hp, or_iff_right (show b.addr k ≠ 0x070 from hreg .respLen)]
    cases b <;> simp [outputSet]

/-- An output set holds registers and buffer elements only. -/
theorem inOutputSet_bounds (h : InOutputSet i g off) : (∃ r : Reg, off = r.offset) ∨ 0x100000 ≤ off ∧ off < 0x330000 := by
  cases i with
  | genSine | genSaw | genSquare =>
    rcases h with h | h
    · exact .inl ⟨.xLen, h⟩
    · exact .inr (by omega)
  | genUnknownKind => exact h.elim
  | design =>
    obtain ⟨r, -, hr⟩ := List.mem_map.1 (show off ∈ coeffRegs.map Reg.offset from h)
    exact .inl ⟨r, hr.symm⟩
  | filter =>
    rcases h with h | h
    · exact .inl ⟨.yLen, h⟩
    · exact .inr (by omega)
  | eval =>
    rcases h with h | h
    · exact .inl ⟨.respLen, h⟩
    · exact .inr (by omega)

/-- The model's output set is that of R227 by offset. -/
theorem outputSet_locate_iff (ha : off % 8 = 0) : outputSet i g (locate off) = true ↔ InOutputSet i g off := by
  by_cases hr : ∃ r : Reg, off = r.offset
  · obtain ⟨r, rfl⟩ := hr
    rw [locate_reg.2 rfl, outputSet_reg_iff]
  by_cases hb : 0x100000 ≤ off ∧ off < 0x330000
  · obtain ⟨b, k, hk, rfl⟩ := exists_elem_of_bounds ha hb.1 hb.2
    rw [locate_addr hk, outputSet_elem_iff hk]
  refine iff_of_false ?_ fun h => (inOutputSet_bounds h).elim hr hb
  cases hl : locate off with
  | reg r => exact absurd ⟨r, locate_reg.1 hl⟩ hr
  | elem b k =>
    obtain ⟨rfl, hk⟩ := locate_elem_offset ha hl
    exact absurd (Buf.addr_bounds hk) hb
  | _ => simp [outputSet]

theorem State.outputPending_locate_iff {s : State} (hb : s.status.busy = true) (ha : off % 8 = 0) :
    s.outputPending (locate off) = true ↔ InPendingOutput s off := by
  simp only [State.outputPending_iff, hb, true_and, InPendingOutput, outputSet_locate_iff ha]

end

/-- Settles O46: the model draws exactly in the pending output set, and answers the stable value elsewhere. -/
theorem readWhileBusy : Obligations.ReadWhileBusy := by
  intro s off rest hb hi ha hoff
  have hpending := State.outputPending_locate_iff (s := { s with inputs := rest }) hb ha
  refine ⟨_, step_read hi (admitted_of_aligned ha hoff), fun h => ?_, fun h => ?_⟩
  · have hdraw := hpending.2 h
    simp [State.hostRead, State.readValue, hdraw]
  · have hstable := mt hpending.1 h
    simp only [State.hostRead, State.readValue, hstable]
    exact ⟨rfl, s.currentValue_valueAt ha, rfl⟩

end Sys2Proof.Machine
end

section
/-! SUPPORT. 30_encoding.md R101 to R106: decoding inverts encoding (O1, O2), the grounds on which a word is ILLEGAL (O3), and
the completion of a pending illegal word (O4). -/

namespace Sys2Proof.Machine

/-! ## Decoding inverts encoding (R101 to R104) -/

/-- The three fields are the whole word (R101). -/
theorem joinFields_splitWord (w : Word) : joinFields (splitWord w) = w := by
  rw [joinFields, splitWord, BitVec.extractLsb'_append_extractLsb'_eq_extractLsb' (by rfl),
    BitVec.extractLsb'_append_extractLsb'_eq_extractLsb' (by rfl), BitVec.extractLsb'_eq_self]

/-- Each KIND of a GEN command has its own waveform (R103). -/
theorem encodeFields_decodeKind (k : BitVec 2) : encodeFields (decodeKind k) = { op := 0x1#4, kind := k, rsv := 0#58 } := by
  revert k
  decide

theorem kindZero_eq_ok_iff {k : BitVec 2} {i j : Instr} : kindZero k j = .ok i ↔ k = 0#2 ∧ j = i := by
  unfold kindZero
  split_ifs with hk <;> simp [hk]

theorem encodeFields_of_decodeFields {f : CmdFields} {i : Instr} (h : decodeFields f = .ok i) : encodeFields i = f := by
  obtain ⟨op, kind, rsv⟩ := f
  unfold decodeFields at h
  split_ifs at h with hrsv hgen hdesign hfilter heval <;> obtain rfl : rsv = 0#58 := not_not.1 hrsv
  · obtain rfl : op = 0x1#4 := hgen
    cases h
    exact encodeFields_decodeKind kind
  · obtain rfl : op = 0x2#4 := hdesign
    obtain ⟨rfl, rfl⟩ : kind = 0#2 ∧ .design = i := kindZero_eq_ok_iff.1 h
    rfl
  · obtain rfl : op = 0x3#4 := hfilter
    obtain ⟨rfl, rfl⟩ : kind = 0#2 ∧ .filter = i := kindZero_eq_ok_iff.1 h
    rfl
  · obtain rfl : op = 0x4#4 := heval
    obtain ⟨rfl, rfl⟩ : kind = 0#2 ∧ .eval = i := kindZero_eq_ok_iff.1 h
    rfl

theorem decode_eq_ok_iff {w : Word} {i : Instr} : decode w = .ok i ↔ w = encode i := by
  constructor
  · intro h
    rw [encode, encodeFields_of_decodeFields h, joinFields_splitWord]
  · rintro rfl
    exact decode_encode i

/-- Settles O2: a word decodes to a command exactly when the command is encoded by it. -/
theorem decodeExactlySevenWords : Obligations.DecodeExactlySevenWords := by
  intro w i
  rw [decode_eq_ok_iff]
  cases i <;> rfl

/-- Settles O1: encode is evaluated at each row of the table, and decode inverts it. -/
theorem commandWordsDecode : Obligations.CommandWordsDecode := by
  intro p hp
  have hencode : encode p.2 = p.1 := by
    revert p
    decide
  exact ⟨decode_eq_ok_iff.2 hencode.symm, hencode⟩

/-! ## The grounds of ILLEGAL (R106) -/

/-- DESIGN, FILTER and EVAL are rejected on KIND alone. -/
theorem kindZero_error_iff {f : CmdFields} {i : Instr} (hrsv : f.rsv = 0#58)
    (hop : f.op = 0x2#4 ∨ f.op = 0x3#4 ∨ f.op = 0x4#4) : (∃ e, kindZero f.kind i = .error e) ↔ f.wf = false := by
  have hwf : f.wf = true ↔ f.kind = 0#2 := by
    rcases hop with h | h | h <;> simp [CmdFields.wf, CmdFields.rsvOk, CmdFields.opOk, CmdFields.kindOk, hrsv, h]
  rw [← Bool.not_eq_true, hwf, kindZero]
  split_ifs with hk <;> simp [hk]

/-- The decoder rejects exactly the fields that are not well formed. -/
theorem decodeFields_error_iff {f : CmdFields} : (∃ e, decodeFields f = .error e) ↔ f.wf = false := by
  unfold decodeFields
  split_ifs with hrsv hgen hdesign hfilter heval
  · simp [CmdFields.wf, CmdFields.rsvOk, hrsv]
  · simp [CmdFields.wf, CmdFields.rsvOk, CmdFields.opOk, CmdFields.kindOk, hgen, not_not.1 hrsv]
  · exact kindZero_error_iff (not_not.1 hrsv) (.inl hdesign)
  · exact kindZero_error_iff (not_not.1 hrsv) (.inr (.inl hfilter))
  · exact kindZero_error_iff (not_not.1 hrsv) (.inr (.inr heval))
  · simp [CmdFields.wf, CmdFields.opOk, hgen, hdesign, hfilter, heval]

section
variable {w : Word}

theorem splitWord_op_eq_iff {n : Nat} (hn : n < 16) : (splitWord w).op = BitVec.ofNat 4 n ↔ w.toNat % 16 = n := by
  rw [← BitVec.toNat_inj, splitWord, BitVec.extractLsb'_toNat, BitVec.toNat_ofNat, Nat.shiftRight_zero, Nat.mod_eq_of_lt hn]

theorem splitWord_kind_eq_zero_iff : (splitWord w).kind = 0#2 ↔ w.toNat / 16 % 4 = 0 := by
  rw [← BitVec.toNat_inj, splitWord, BitVec.extractLsb'_toNat, Nat.shiftRight_eq_div_pow]
  rfl

theorem splitWord_rsv_eq_zero_iff : (splitWord w).rsv = 0#58 ↔ w.toNat / 64 = 0 := by
  have hw := w.isLt
  rw [← BitVec.toNat_inj, splitWord, BitVec.extractLsb'_toNat, Nat.shiftRight_eq_div_pow,
    Nat.mod_eq_of_lt (by omega)]
  rfl

theorem splitWord_rsvOk_iff : (splitWord w).rsvOk = true ↔ w.toNat / 64 = 0 := by
  rw [CmdFields.rsvOk, beq_iff_eq, splitWord_rsv_eq_zero_iff]

theorem splitWord_opOk_iff : (splitWord w).opOk = true ↔ 1 ≤ w.toNat % 16 ∧ w.toNat % 16 ≤ 4 := by
  simp only [CmdFields.opOk, Bool.or_eq_true, beq_iff_eq, splitWord_op_eq_iff (show 1 < 16 by decide),
    splitWord_op_eq_iff (show 2 < 16 by decide), splitWord_op_eq_iff (show 3 < 16 by decide),
    splitWord_op_eq_iff (show 4 < 16 by decide)]
  omega

theorem splitWord_kindOk_iff : (splitWord w).kindOk = true ↔ w.toNat % 16 = 1 ∨ w.toNat / 16 % 4 = 0 := by
  rw [CmdFields.kindOk, Bool.or_eq_true, beq_iff_eq, beq_iff_eq, splitWord_op_eq_iff (by decide), splitWord_kind_eq_zero_iff]

end

/-- Settles O3: the rejected fields are those that fail one of the three checks of R101 and R102. -/
theorem illegalWordsByGround : Obligations.IllegalWordsByGround := by
  intro w
  rw [decode, decodeFields_error_iff, ← Bool.not_eq_true, CmdFields.wf, Bool.and_eq_true, Bool.and_eq_true,
    splitWord_rsvOk_iff, splitWord_opOk_iff, splitWord_kindOk_iff]
  omega

/-! ## The completion of an illegal word (R225) -/

theorem engineTurn_of_illegal {s : State} {e : Reject} (hb : s.status.busy = true) (hd : decode s.pend = .error e) :
    engineTurn s = .next (s.finish .illegalCmd) := by
  simp [engineTurn, hb, hd]

/-- Settles O4: the engine has the turn, and finishing with a cause writes STATUS only. -/
theorem illegalCommandCompletes : Obligations.IllegalCommandCompletes := by
  intro s rest e hn hb hd
  rw [step_of_engineNext hn, engineTurn_of_illegal (s := { s with inputs := rest }) hb hd]
  rfl

end Sys2Proof.Machine
end

section
/-! SUPPORT. 40_waveform_generator.md R130 to R135: what the GEN commands complete with (O15 to O19), the first sample (O20) and
the bounds of the samples (O21). -/

namespace Sys2Proof.Machine

open Sys2Proof.Claims

/-! ## GEN_PROLOGUE (R133) -/

theorem fsValid_iff {fs : Word} : fsValid fs = true ↔ isFinite fs = true ∧ fgt fs fzero = true := by
  rw [fsValid, Bool.and_eq_true]

section
variable {d : NaNBits} {fs dur : Word}

theorem sampleCount_of_fs_invalid (h : fsValid fs = false) : sampleCount d fs dur = .error .fsInvalid := by
  rw [sampleCount, h, if_pos (by decide)]

theorem sampleCount_of_length_invalid (hfs : fsValid fs = true)
    (h : isFinite (fmul d fs dur) = false ∨ roundHalfEven (fmul d fs dur) < 0 ∨ 131072 < roundHalfEven (fmul d fs dur)) :
    sampleCount d fs dur = .error .lengthInvalid := by
  rw [sampleCount, hfs, if_neg (by decide)]
  split_ifs with hfin hlen
  · rfl
  · rfl
  · rcases h with h | h
    · simp [h] at hfin
    · exact absurd h hlen

end

/-! ## A GEN command of a known kind (R133) -/

section
variable {s : State} {i : Instr} {f : (Nat → NaNBits) → Regs → Nat → Word} {n : Nat}

theorem generate_of_sampleCount (h : SampleCount s n) :
    generate s f = .ok (genCommit s ((List.range n).map fun k => f (s.nanAt (k + 1)) s.regs k)) := by
  obtain ⟨hfin, hpos, hp, hr, hn⟩ := h
  rw [generate, sampleCount_of_valid (fsValid_iff.2 ⟨hfin, hpos⟩) hp hr hn]

theorem genCommit_elem {ws : List Word} (hw : ws.length ≤ Buf.x.depth) {k : Nat} (hk : k < Buf.x.depth) :
    (genCommit s ws).elem .x k = if h : k < ws.length then ws[k] else s.elem .x k := by
  rw [genCommit, State.setReg_elem, State.elem_setElems s (by simpa using hw) hk]
  simp

/-- A GEN command within its checks leaves sample k of its kind in X[k]. -/
theorem generates_of_sampleCount (hi : exec i s = .next (s.complete (generate s f))) (h : SampleCount s n) :
    Generates i s n fun k => f (s.nanAt (k + 1)) s.regs k := by
  have ⟨_, _, _, _, hn⟩ := h
  change n ≤ Buf.x.depth at hn
  rw [generate_of_sampleCount h] at hi
  refine ⟨_, hi, ⟨rfl, rfl, rfl, rfl⟩, ?_, fun k hk => ?_, fun k hk hd => ?_⟩
  · simp [genCommit_regs]
  · rw [State.complete_ok, State.finish_elem, genCommit_elem (by simpa using hn) (hk.trans_le hn), dif_pos (by simpa using hk)]
    simp
  · rw [State.complete_ok, State.finish_elem, genCommit_elem (by simpa using hn) hd, dif_neg (by simpa using hk)]

/-- A property of sample k is one of X[k]. -/
theorem exec_elem_of_sample (hi : exec i s = .next (s.complete (generate s f))) (h : SampleCount s n) {k : Nat} (hk : k < n)
    {P : Word → Prop} (hP : P (f (s.nanAt (k + 1)) s.regs k)) : ∃ t, exec i s = .next t ∧ P (t.elem .x k) := by
  obtain ⟨t, ht, -, -, hx, -⟩ := generates_of_sampleCount hi h
  exact ⟨t, ht, by rwa [hx k hk]⟩

theorem exec_gen (hi : i ∈ [Instr.genSine, .genSaw, .genSquare]) :
    ∃ f, ∀ s, exec i s = .next (s.complete (generate s f)) := by
  simp only [List.mem_cons, List.not_mem_nil, or_false] at hi
  rcases hi with rfl | rfl | rfl
  · exact ⟨sineSample, exec_genSine⟩
  · exact ⟨sawSample, exec_genSaw⟩
  · exact ⟨squareSample, exec_genSquare⟩

/-- A completion with a cause writes STATUS alone (R225, R226). -/
theorem failsWith_of_error {e : Except Cause State} {c : Cause} (hi : exec i s = .next (s.complete e)) (he : e = .error c)
    (hc : c ≠ .none) : FailsWith i s c := by
  rw [FailsWith, hi, he, State.complete_error, State.finish, Status.complete, bne_iff_ne.2 hc]

theorem generate_of_sampleCount_error {c : Cause} (h : sampleCount (s.nanAt 0 0) s.regs.fs s.regs.dur = .error c) :
    generate s f = .error c := by
  rw [generate, h]

end

/-- Settles O15: the sample of the kind is that of the definition. -/
theorem genSineCompletes : Obligations.GenSineCompletes := fun s _ h => generates_of_sampleCount (exec_genSine s) h

/-- Settles O16, as O15. -/
theorem genSawCompletes : Obligations.GenSawCompletes := fun s _ h => generates_of_sampleCount (exec_genSaw s) h

/-- Settles O17, as O15. -/
theorem genSquareCompletes : Obligations.GenSquareCompletes := fun s _ h => generates_of_sampleCount (exec_genSquare s) h

/-- Settles O18: GEN_PROLOGUE has two error branches, taken in this order whatever the kind. -/
theorem genChecksInOrder : Obligations.GenChecksInOrder := by
  intro i hi s p
  obtain ⟨f, hf⟩ := exec_gen hi
  have fails : ∀ c, c ≠ .none → sampleCount (s.nanAt 0 0) s.regs.fs s.regs.dur = .error c → FailsWith i s c :=
    fun c hc h => failsWith_of_error (hf s) (generate_of_sampleCount_error h) hc
  rw [← fsValid_iff]
  refine ⟨fun h => fails _ (by decide) (sampleCount_of_fs_invalid (by simpa using h)), fun hfin hpos h => ?_⟩
  exact fails _ (by decide) (sampleCount_of_length_invalid (fsValid_iff.2 ⟨hfin, hpos⟩) h)

/-- Settles O19: the completion reads no register, and acceptance of 0x31 sets LAST_OP and LAST_KIND. -/
theorem genUnknownKindRaises : Obligations.GenUnknownKindRaises := by
  refine ⟨decode_encode .genUnknownKind, fun s => rfl, fun s t hovr ht => ?_⟩
  rw [exec_genUnknownKind, Host.Outcome.next.injEq, State.complete_error] at ht
  have hstatus : t.status = ⟨false, true, true, s.status.ovr, .unknownKind, 0x1#4, 0x3#2⟩ := by
    rw [← ht]
    rfl
  rw [hstatus, hovr]
  decide

/-! ## Rounding against a representable bound (R11) -/

/-- The order of a rounded value: the rounded magnitude with the sign. -/
theorem fkey_roundUnits (x : Int) (z : Bool) :
    fkey (roundUnits x z) = if x < 0 then -(roundMag x.natAbs 1 : Int) else roundMag x.natAbs 1 := by
  by_cases h : x = 0
  · rw [h, roundUnits_zero, if_neg (by decide), Int.natAbs_zero, roundMag_zero]
    cases z <;> decide
  · simp [fkey, roundUnits_of_ne_zero z h]

@[simp] theorem fkey_flipSign (b : Word) : fkey (flipSign b) = -fkey b := by
  cases h : fsign b <;> simp [fkey, h]

theorem natAbs_fkey (a : Word) : (fkey a).natAbs = fmag a := by
  cases h : fsign a <;> simp [fkey, h]

section
variable {b : Word} (hb : isNaN b = false)
include hb

/-- Rounding does not pass below a word. -/
theorem fkey_le_fkey_roundUnits {x : Int} (z : Bool) (h : units b ≤ x) : fkey b ≤ fkey (roundUnits x z) := by
  have hmag : fmag b ≤ infMag := by simpa [isNaN] using hb
  rw [fkey_roundUnits]
  cases hs : fsign b
  · have hx : (magUnits (fmag b) : Int) ≤ x := by simpa [units, hs] using h
    have := le_roundMag Nat.one_pos hmag (n := x.natAbs) (by omega)
    simp only [fkey, hs]
    split_ifs <;> omega
  · have hx : -(magUnits (fmag b) : Int) ≤ x := by simpa [units, hs] using h
    simp only [fkey, hs, if_true]
    split_ifs with hneg
    · have := roundMag_le Nat.one_pos (n := x.natAbs) (m := fmag b) (by omega)
      omega
    · omega

/-- Rounding does not pass above a word. -/
theorem fkey_roundUnits_le_fkey {x : Int} (z : Bool) (h : x ≤ units b) : fkey (roundUnits x z) ≤ fkey b := by
  have hneg := fkey_le_fkey_roundUnits (b := flipSign b) (by simpa using hb) (x := -x) z (by simpa using h)
  rw [fkey_flipSign, fkey_roundUnits, Int.natAbs_neg] at hneg
  rw [fkey_roundUnits]
  by_cases hx : x = 0
  · simp only [hx, Int.natAbs_zero, roundMag_zero] at hneg ⊢
    simpa using hneg
  · split_ifs at hneg ⊢ <;> omega

end

/-! ## Products with a zero and with a value of at most 1 (R11) -/

section
variable (d : NaNBits) {a b : Word}

theorem fmag_fmul_of_zero_right (ha : isFinite a = true) (hb : fmag b = 0) : fmag (fmul d a b) = 0 := by
  rw [fmul_of_finite d ha (isFinite_of_fmag_eq_zero hb), fmag_ofSignMag_roundMag, hb, magUnits_zero,
    Nat.mul_zero, roundMag_zero]

theorem magUnits_fone : magUnits (fmag fone) = unitScale := by decide +kernel

/-- A factor of at most 1 does not raise the magnitude. -/
theorem fmag_fmul_le (ha : isFinite a = true) (hb : fmag b ≤ fmag fone) : fmag (fmul d a b) ≤ fmag a := by
  have hfin : isFinite b = true := isFinite_iff.2 (hb.trans_lt (by decide))
  rw [fmul_of_finite d ha hfin, fmag_ofSignMag_roundMag]
  refine roundMag_le unitScale_pos (Nat.mul_le_mul_left _ ?_)
  rw [← magUnits_fone]
  exact magUnits_strictMono.monotone hb

theorem fmag_le_fmag_fone (hlo : fle fminusOne a = true) (hhi : fle a fone = true) : fmag a ≤ fmag fone := by
  have hlo := (fle_iff.1 hlo).2.2
  have hhi := (fle_iff.1 hhi).2.2
  rw [show fkey fminusOne = -(fmag fone : Int) by decide] at hlo
  rw [show fkey fone = fmag fone by decide] at hhi
  rw [← natAbs_fkey]
  omega

end

/-! ## The first sample -/

theorem i2f_zero : i2f 0 = fzero := by
  rw [i2f, Nat.zero_mul, roundMag_zero]
  decide

theorem fmag_timeAt_zero (d : NaNBits) {fs : Word} (hfin : isFinite fs = true) (hpos : fgt fs fzero = true) :
    fmag (timeAt d fs 0) = 0 := by
  have hz : fmag fs ≠ 0 := mt fkey_eq_zero.2 (fgt_fzero_iff.1 hpos).2.ne'
  rw [timeAt, i2f_zero, fdiv_of_finite d (by decide) hfin hz, fmag_ofSignMag_roundMag, show fmag fzero = 0 by decide,
    magUnits_zero, Nat.zero_mul, roundMag_zero]

/-- The sine's argument is a zero where the time is, if 2 pi f is finite (log 20). -/
theorem fmag_sineArg_zero (d : Nat → NaNBits) {f fs : Word} (hf : isFinite (fmul (d 0) twoPi64 f) = true)
    (hfin : isFinite fs = true) (hpos : fgt fs fzero = true) : fmag (sineArg d f fs 0) = 0 :=
  fmag_fmul_of_zero_right _ hf (fmag_timeAt_zero _ hfin hpos)

theorem numSin_of_zero (d : NaNBits) {x : Word} (h : fmag x = 0) : numSin d x = x := if_pos (isZero_iff.2 h)

theorem sgn_of_zero (d : NaNBits) {a : Word} (h : fmag a = 0) : sgn d a = fzero := by
  obtain ⟨-, -, hzero, -⟩ := sgnAndFmaxn d a a
  exact hzero h

/-- A zero, of either sign, leaves the remainder +0.0 (R20). -/
theorem floormod_of_zero (d d' : NaNBits) {a m : Word} (ha : fmag a = 0) (hz : fmag m ≠ 0) (hn : isNaN m = false) :
    floormod d d' a m = fzero := by
  have hr := fmod_of_zero d ha hz hn
  rw [floormod_of_fmod_nonneg d d' (by rw [hr, fkey_eq_zero.2 ha]), hr, ha]
  decide

theorem fsub_double_zero (d d' : NaNBits) : fsub d (fmul d' ftwo fzero) fone = fminusOne := by
  have hdouble : fmul d' ftwo fzero = fzero := by
    rw [fmul_of_finite d' (by decide) (by decide)]
    decide +kernel
  rw [hdouble, fsub_of_finite d (by decide) (by decide)]
  decide +kernel

/-- Settles O20: t(0) is a zero, and a zero passes through every primitive up to the last of each kind. -/
theorem firstSamples : Obligations.FirstSamples := by
  intro s n h hn hf
  have ⟨hfin, hpos, _⟩ := h
  refine ⟨exec_elem_of_sample (P := (· = fminusOne)) (exec_genSaw s) h hn ?_, fun hp => ?_, fun hp ha => ?_⟩
  · have hu := fmag_fmul_of_zero_right (s.nanAt 1 1) hf (fmag_timeAt_zero (s.nanAt 1 0) hfin hpos)
    rw [sawSample, floormod_of_zero _ _ hu (by decide) (by decide)]
    exact fsub_double_zero _ _
  · have hz := fmag_sineArg_zero (s.nanAt 1) hp hfin hpos
    refine exec_elem_of_sample (P := (· = fzero)) (exec_genSquare s) h hn ?_
    rw [squareSample, numSin_of_zero _ hz]
    exact sgn_of_zero _ hz
  · have hz := fmag_sineArg_zero (s.nanAt 1) hp hfin hpos
    refine exec_elem_of_sample (P := fun w => fmag w = 0) (exec_genSine s) h hn ?_
    rw [sineSample, numSin_of_zero _ hz]
    exact fmag_fmul_of_zero_right _ ha hz

/-! ## The bounds of the samples (R135) -/

theorem sgn_mem (d : NaNBits) {a : Word} (h : isNaN a = false) : sgn d a ∈ [fminusOne, fzero, fone] := by
  unfold sgn
  split_ifs <;> simp_all

section
variable (d d' : NaNBits) {a m r : Word}

/-- The remainder of a value that is not negative lies below the divisor (R20). -/
theorem floormod_lt (ha : isFinite a = true) (h0 : fle fzero a = true) (hm : isFinite m = true) (hpos : fgt m fzero = true) :
    fkey (floormod d d' a m) < fkey m := by
  have hm0 := units_pos.2 (fgt_fzero_iff.1 hpos).2
  have hz : fmag m ≠ 0 := mt fkey_eq_zero.2 (fgt_fzero_iff.1 hpos).2.ne'
  have hnonneg := Int.tmod_nonneg (units m) (units_nonneg.2 (fzero_fle_iff.1 h0).2)
  rw [← units_lt_iff, units_floormod_of_nonneg d d' ha hm hz hnonneg]
  exact Int.tmod_lt_of_pos _ hm0

/-- Twice a positive value below 1 is at most the greatest value below 2. -/
theorem fmul_ftwo_bounds (hs : fsign r = false) (hr : fkey r < fkey fone) :
    isFinite (fmul d ftwo r) = true ∧ 0 ≤ units (fmul d ftwo r) ∧
      units (fmul d ftwo r) ≤ units 0x3FFFFFFFFFFFFFFF#64 := by
  have hlt : fmag r ≤ fmag fone - 1 := by
    have hk := fkey_nonneg.2 (.inl hs)
    rw [show fkey fone = fmag fone by decide] at hr
    rw [← natAbs_fkey]
    omega
  have hfin : isFinite r = true := isFinite_iff.2 (hlt.trans_lt (by decide))
  have hle : roundMag (magUnits (fmag ftwo) * magUnits (fmag r)) unitScale ≤ fmag 0x3FFFFFFFFFFFFFFF#64 := by
    refine roundMag_le unitScale_pos ((Nat.mul_le_mul_left _ (magUnits_strictMono.monotone hlt)).trans ?_)
    decide +kernel
  rw [fmul_of_finite d (by decide) hfin, hs, show fsign ftwo = false by decide]
  refine ⟨?_, ?_, ?_⟩
  · rw [isFinite_iff, fmag_ofSignMag_roundMag]
    exact hle.trans_lt (by decide)
  · simp [units_ofSignMag _ (roundMag_lt _ _)]
  · rw [units_ofSignMag _ (roundMag_lt _ _), units, show fsign 0x3FFFFFFFFFFFFFFF#64 = false by decide]
    exact Int.ofNat_le.2 (magUnits_strictMono.monotone hle)

/-- The saw lies in [-1, +1): twice a fraction, less 1. -/
theorem fsub_double_bounds (hs : fsign r = false) (hr : fkey r < fkey fone) :
    fle fminusOne (fsub d' (fmul d ftwo r) fone) = true ∧ flt (fsub d' (fmul d ftwo r) fone) fone = true := by
  obtain ⟨hfin, hlo, hhi⟩ := fmul_ftwo_bounds d hs hr
  have hminus : units fminusOne = -units fone := by decide +kernel
  have htop : units 0x3FFFFFFFFFFFFFFF#64 - units fone ≤ units 0x3FEFFFFFFFFFFFFF#64 := by decide +kernel
  have hlower := fkey_le_fkey_roundUnits (b := fminusOne) (x := units (fmul d ftwo r) - units fone) (by decide)
  have hupper := fkey_roundUnits_le_fkey (b := 0x3FEFFFFFFFFFFFFF#64) (x := units (fmul d ftwo r) - units fone) (by decide)
  rw [fsub_of_finite d' hfin (by decide), fle_iff, flt_iff]
  exact ⟨⟨by decide, isNaN_roundUnits _ _, hlower _ (by omega)⟩,
    isNaN_roundUnits _ _, by decide, (hupper _ (by omega)).trans_lt (by decide)⟩

end

/-- Settles O21: the sine by L2, the square by the branches of sgn, the saw as twice a fraction less 1. -/
theorem sampleBounds : Obligations.SampleBounds := by
  intro s n k h hk d arg u
  refine ⟨fun harg ha => ?_, fun harg => ?_, fun hu h0 => ?_⟩
  · obtain ⟨hlo, hhi⟩ := within_iff.1 (numSin_within (d 3) harg)
    refine exec_elem_of_sample (P := fun w => fmag w ≤ fmag s.regs.ampl) (exec_genSine s) h hk ?_
    exact fmag_fmul_le (d 4) ha (fmag_le_fmag_fone (fle_trans (fminusOne_fle_sinFloor arg) hlo) hhi)
  · refine exec_elem_of_sample (P := (· ∈ [fminusOne, fzero, fone])) (exec_genSquare s) h hk ?_
    exact sgn_mem (d 4) (isNaN_of_within (numSin_within (d 3) harg))
  · refine exec_elem_of_sample (P := fun w => fle fminusOne w = true ∧ flt w fone = true) (exec_genSaw s) h hk ?_
    have hone : fgt fone fzero = true := by decide
    obtain ⟨-, hsign, -⟩ := floormod_within (d 2) (d 3) hu hone
    exact fsub_double_bounds (d 4) (d 5) hsign (floormod_lt (d 2) (d 3) hu h0 (by decide) hone)

end Sys2Proof.Machine
end

section
/-! SUPPORT. 41_resonant_designer.md R150: the order of DESIGN's checks (O24), what it completes with (O23), and that the
numerator of its filter is antisymmetric (O25). -/

namespace Sys2Proof.Machine

open Sys2Proof.Claims

/-! ## Division of a negated dividend (R11) -/

theorem flipSign_ofSignMag (s : Bool) {m : Nat} (h : m < 2 ^ 63) : flipSign (ofSignMag s m) = ofSignMag (!s) m := by
  rw [flipSign_eq, fsign_ofSignMag, fmag_ofSignMag s h]

@[simp] theorem isZero_flipSign (a : Word) : isZero (flipSign a) = isZero a := by simp [isZero]

/-- A quotient that is no NaN has the sign of its operands and a magnitude that only their magnitudes decide. -/
theorem fdiv_flipSign_left (d d' : NaNBits) {a b : Word} (h : isNaN (fdiv d a b) = false) :
    fdiv d' (flipSign a) b = flipSign (fdiv d a b) := by
  unfold fdiv at h ⊢
  simp only [isNaN_flipSign, isInf_flipSign, isZero_flipSign, fsign_flipSign, fmag_flipSign, Bool.bne_eq_xor, Bool.not_xor]
  split_ifs at h ⊢
  · simp at h
  · simp at h
  · rw [flipSign_ofSignMag _ infMag_lt]
  · rw [flipSign_ofSignMag _ (by decide)]
  · simp at h
  · rw [flipSign_ofSignMag _ infMag_lt]
  · rw [flipSign_ofSignMag _ (roundMag_lt _ _)]

theorem isNaN_left_of_fdiv {d : NaNBits} {a b : Word} (h : isNaN (fdiv d a b) = false) : isNaN a = false := by
  simp only [isNaN_fdiv, Bool.or_eq_false_iff] at h
  obtain ⟨⟨⟨ha, -⟩, -⟩, -⟩ := h
  exact ha

/-- R150: -alpha / a0 is -(alpha / a0) where the latter is no NaN. -/
theorem designResults_b2 {d : Nat → NaNBits} {w0 alpha : Word} (h : isNaN (designResults d w0 alpha).b0 = false) :
    (designResults d w0 alpha).b2 = flipSign (designResults d w0 alpha).b0 := by
  simp only [designResults] at h ⊢
  rw [fneg_of_not_isNaN _ (isNaN_left_of_fdiv h), ← flipSign_eq, fdiv_flipSign_left _ _ h]

/-! ## The checks of DESIGN (R150, R223) -/

theorem fcInRange_iff {d : NaNBits} {fs fc : Word} :
    fcInRange d fs fc = true ↔ fgt fc fzero = true ∧ flt fc (fdiv d fs ftwo) = true := by
  rw [fcInRange, Bool.and_eq_true]

theorem qValid_iff {q : Word} : qValid q = true ↔ fgt q fzero = true ∧ isFinite q = true := by
  rw [qValid, Bool.and_eq_true]

section
variable {s : State}

theorem designRun_of_fs_invalid (hfs : ¬ fsValid s.regs.fs = true) : designRun s = .error .fsInvalid := by
  rw [designRun, if_pos (by simpa using hfs)]

section
variable (hfs : fsValid s.regs.fs = true)
include hfs

theorem designRun_of_fc_out_of_range (hfc : ¬ fcInRange (s.nanAt 0 0) s.regs.fs s.regs.fc = true) :
    designRun s = .error .fcOutOfRange := by
  rw [designRun, hfs, if_neg (by decide), if_pos (by simpa using hfc)]

variable (hfc : fcInRange (s.nanAt 0 0) s.regs.fs s.regs.fc = true)
include hfc

theorem designRun_of_q_invalid (hq : ¬ qValid s.regs.q = true) : designRun s = .error .qNotPositive := by
  rw [designRun, hfs, hfc, if_neg (by decide), if_neg (by decide), if_pos (by simpa using hq)]

theorem designRun_of_valid (hq : qValid s.regs.q = true) : designRun s =
    .ok { s with regs := s.regs.setCoeffs (designCoeffs (s.nanAt 0) s.regs.fs s.regs.fc s.regs.q) } := by
  rw [designRun, hfs, hfc, hq, if_neg (by decide), if_neg (by decide), if_neg (by decide)]

end

/-- A DESIGN that raised no error has passed its checks, and has written the coefficients of R150. -/
theorem exec_design_coeffs {t : State} (h : exec .design s = .next t) (herr : t.status.err = false) :
    t.regs.coeffs = designCoeffs (s.nanAt 0) s.regs.fs s.regs.fc s.regs.q := by
  rw [exec_design, Host.Outcome.next.injEq] at h
  have no_error : ∀ c, c ≠ .none → designRun s ≠ .error c := by
    rintro c hc he
    rw [← h, he, State.complete_error, State.finish_status, Status.complete_err, bne_eq_false_iff_eq] at herr
    exact hc herr
  by_cases hfs : fsValid s.regs.fs = true
  case neg => exact absurd (designRun_of_fs_invalid hfs) (no_error _ (by decide))
  by_cases hfc : fcInRange (s.nanAt 0 0) s.regs.fs s.regs.fc = true
  case neg => exact absurd (designRun_of_fc_out_of_range hfs hfc) (no_error _ (by decide))
  by_cases hq : qValid s.regs.q = true
  case neg => exact absurd (designRun_of_q_invalid hfs hfc hq) (no_error _ (by decide))
  rw [← h, designRun_of_valid hfs hfc hq]
  rfl

end

/-! ## The statements -/

/-- Settles O25: the coefficients are those of R150, whose b2 divides the negated dividend of b0 by the same a0. -/
theorem designB2MirrorsB0 : Obligations.DesignB2MirrorsB0 := by
  intro s t h herr hb0
  have hc := exec_design_coeffs h herr
  change isNaN t.regs.coeffs.b0 = false at hb0
  change t.regs.coeffs.b2 = flipSign t.regs.coeffs.b0 ∧ t.regs.coeffs.a0 = fone
  rw [hc] at hb0 ⊢
  exact ⟨designResults_b2 hb0, rfl⟩

/-- Settles O23: the three checks pass, so DESIGN commits the coefficients of R150. -/
theorem designCompletes : Obligations.DesignCompletes := by
  intro s hfin hfs hfc hhalf hq hqfin
  have hrun := designRun_of_valid (fsValid_iff.2 ⟨hfin, hfs⟩) (fcInRange_iff.2 ⟨hfc, hhalf⟩) (qValid_iff.2 ⟨hq, hqfin⟩)
  refine ⟨_, exec_design s, ?_⟩
  rw [hrun]
  exact ⟨⟨rfl, rfl, rfl, rfl⟩, rfl, rfl⟩

/-- Settles O24: one error branch of DESIGN per check, each taken when the checks before it pass. -/
theorem designChecksInOrder : Obligations.DesignChecksInOrder := by
  intro s
  simp only [← fsValid_iff, ← fcInRange_iff, ← qValid_iff]
  refine ⟨fun hfs => ?_, fun hfs hfc => ?_, fun hfs hfc hq => ?_⟩
  · exact failsWith_of_error (exec_design s) (designRun_of_fs_invalid hfs) (by decide)
  · exact failsWith_of_error (exec_design s) (designRun_of_fc_out_of_range hfs hfc) (by decide)
  · exact failsWith_of_error (exec_design s) (designRun_of_q_invalid hfs hfc hq) (by decide)

end Sys2Proof.Machine
end

section
/-! SUPPORT. 42_biquad_filter.md R170 to R172: FILTER's output as a function of the sample index, and with it what FILTER
completes with (O27), its checks (O28), that a NaN or an infinity stays in the delay line (O29) and that the operands fix the
output (O30). -/

namespace Sys2Proof.Machine

open Sys2Proof.Claims

/-! ## The recurrence by sample index (R170) -/

/-- The delay elements (z1, z2) before sample k of the signal `x`. -/
def filterDelay (d : Nat → Nat → NaNBits) (c : Coeffs) (x : Nat → Word) : Nat → Word × Word
  | 0 => (fzero, fzero)
  | k + 1 =>
    let (z1, z2) := filterDelay d c x k
    let y := filterY (d k) c z1 (x k)
    (filterZ1 (d k) c z2 (x k) y, filterZ2 (d k) c (x k) y)

/-- Output sample k for the signal `x`. -/
def filterOut (d : Nat → Nat → NaNBits) (c : Coeffs) (x : Nat → Word) (k : Nat) : Word :=
  filterY (d k) c (filterDelay d c x k).1 (x k)

section
variable (d : Nat → Nat → NaNBits) (c : Coeffs) (x : Nat → Word)

theorem filterDelay_succ (k : Nat) : filterDelay d c x (k + 1) =
    (filterZ1 (d k) c (filterDelay d c x k).2 (x k) (filterOut d c x k), filterZ2 (d k) c (x k) (filterOut d c x k)) := rfl

/-- Started at sample i with the delay elements of that sample, the model's recurrence lists the outputs from i on. -/
theorem filterFrom_range' (i n : Nat) :
    filterFrom d c i (filterDelay d c x i).1 (filterDelay d c x i).2 ((List.range' i n).map x) =
      (List.range' i n).map (filterOut d c x) := by
  induction n generalizing i with
  | zero => rfl
  | succ n ih => exact congrArg (filterOut d c x i :: ·) (ih (i + 1))

theorem filterSignal_range (n : Nat) :
    filterSignal d c ((List.range n).map x) = (List.range n).map (filterOut d c x) := by
  rw [List.range_eq_range']
  exact filterFrom_range' d c x 0 n

end

/-! ## The checks and the run of FILTER (R170, R223) -/

section
variable {s : State}

theorem coeffsValid_iff : coeffsValid s.regs.coeffs = true ↔ s.regs.a0 = 0x3FF0000000000000#64 := beq_iff_eq

theorem filterRun_of_coeffs_malformed (ha : s.regs.a0 ≠ 0x3FF0000000000000#64) : filterRun s = .error .coeffMalformed :=
  if_pos (by rwa [Bool.not_eq_true', ← Bool.not_eq_true, coeffsValid_iff])

variable (ha : s.regs.a0 = 0x3FF0000000000000#64)
include ha

theorem filterRun_of_length_invalid (hn : 131072 < s.regs.xLen.toNat) : filterRun s = .error .lengthInvalid := by
  rw [filterRun, coeffsValid_iff.2 ha, if_neg (by decide)]
  exact if_pos hn

variable (hn : s.regs.xLen.toNat ≤ 131072)
include hn

theorem filterRun_of_valid : filterRun s = .ok ((s.setElems .y 0
    ((List.range s.regs.xLen.toNat).map (filterOut s.nanAt s.regs.coeffs (s.elem .x)))).setReg .yLen s.regs.xLen) := by
  rw [filterRun, coeffsValid_iff.2 ha, if_neg (by decide), State.elems, filterSignal_range]
  exact if_neg hn.not_gt

/-- A FILTER within its checks leaves output sample k in Y[k], X_LEN in Y_LEN, and the rest of X and Y as before. -/
theorem exec_filter_of_valid : ∃ t, exec .filter s = .next t ∧ Succeeds s t ∧
    t.regs = { s.regs with yLen := s.regs.xLen } ∧
    (∀ k < s.regs.xLen.toNat, t.elem .y k = filterOut s.nanAt s.regs.coeffs (s.elem .x) k) ∧
    (∀ k, s.regs.xLen.toNat ≤ k → k < 131072 → t.elem .y k = s.elem .y k) ∧
    ∀ k < 131072, t.elem .x k = s.elem .x k := by
  have elem (b : Buf) {k : Nat} (hk : k < b.depth) :=
    s.elem_setElems (b := .y) (i := 0) (ws := (List.range s.regs.xLen.toNat).map
      (filterOut s.nanAt s.regs.coeffs (s.elem .x))) (by simpa [Buf.depth, Config.bufDepth] using hn) hk
  refine ⟨_, exec_filter s, ?_⟩
  rw [filterRun_of_valid ha hn, State.complete_ok]
  refine ⟨⟨rfl, rfl, rfl, rfl⟩, rfl, fun k hk => ?_, fun k hk hd => ?_, fun k hk => ?_⟩ <;>
    rw [State.finish_elem, State.setReg_elem]
  · rw [elem .y (hk.trans_le hn), dif_pos (by simpa using hk)]
    simp
  · rw [elem .y hd, dif_neg (by simpa using hk)]
  · rw [elem .x hk, dif_neg (by simp)]

end

/-! ## Words that spoil every result (R12, R170) -/

/-- A class of words that one operand brings into a sum, a difference and a product. -/
structure Absorbing (P : Word → Prop) : Prop where
  fadd (d : NaNBits) {a b : Word} : P a ∨ P b → P (fadd d a b)
  fsub (d : NaNBits) {a b : Word} : P a ∨ P b → P (fsub d a b)
  fmul (d : NaNBits) {a b : Word} : P a ∨ P b → P (fmul d a b)

theorem absorbing_isNaN : Absorbing (isNaN · = true) where
  fadd _ _ _ h := by simp [isNaN_fadd, h]
  fsub _ _ _ h := by simp [isNaN_fsub, h]
  fmul _ _ _ h := by simp [isNaN_fmul, h]

theorem not_isFinite_iff {a : Word} : isFinite a = false ↔ isNaN a = true ∨ isInf a = true := by
  rw [isFinite_eq]
  cases isNaN a <;> simp

theorem isFinite_quietNaN (d : NaNBits) : isFinite (quietNaN d) = false := not_isFinite_iff.2 (.inl (isNaN_quietNaN d))

theorem isFinite_fadd_of_not_isFinite (d : NaNBits) {a b : Word} (h : isFinite a = false ∨ isFinite b = false) :
    isFinite (fadd d a b) = false := by
  unfold fadd
  split_ifs with hn ha hc hb
  · exact isFinite_quietNaN d
  · exact isFinite_quietNaN d
  · exact not_isFinite_iff.2 (.inr ha)
  · exact not_isFinite_iff.2 (.inr hb)
  · simp_all [not_isFinite_iff]

theorem isFinite_fmul_of_not_isFinite (d : NaNBits) {a b : Word} (h : isFinite a = false ∨ isFinite b = false) :
    isFinite (fmul d a b) = false := by
  unfold fmul
  split_ifs with hn hi hz
  · exact isFinite_quietNaN d
  · exact isFinite_quietNaN d
  · exact not_isFinite_iff.2 (.inr (isInf_iff.2 (fmag_ofSignMag _ infMag_lt)))
  · simp_all [not_isFinite_iff]

theorem absorbing_not_isFinite : Absorbing (isFinite · = false) where
  fadd d _ _ h := isFinite_fadd_of_not_isFinite d h
  fsub d _ b h := isFinite_fadd_of_not_isFinite d (by rwa [isFinite_flipSign])
  fmul d _ _ h := isFinite_fmul_of_not_isFinite d h

/-- A sample of an absorbing class spoils its output sample, which spoils z1 and so the next output sample. -/
theorem filterOut_of_absorbing {P : Word → Prop} (hP : Absorbing P) (d : Nat → Nat → NaNBits) (c : Coeffs)
    {x : Nat → Word} {k : Nat} (hx : P (x k)) : ∀ j, k ≤ j → P (filterOut d c x j) := by
  refine Nat.le_induction ?_ fun j _ hy => ?_
  · exact hP.fadd _ (.inr (hP.fmul _ (.inr hx)))
  · have hz1 : P (filterDelay d c x (j + 1)).1 := hP.fsub _ (.inr (hP.fmul _ (.inl hy)))
    exact hP.fadd _ (.inl hz1)

/-! ## Equality up to the bits of a NaN (R12, R172) -/

/-- The same word, or a NaN on both sides. -/
def EqUpToNaN (a b : Word) : Prop := a = b ∨ isNaN a = true ∧ isNaN b = true

theorem EqUpToNaN.refl (a : Word) : EqUpToNaN a a := .inl rfl

theorem EqUpToNaN.isNaN_eq {a b : Word} : EqUpToNaN a b → isNaN a = isNaN b
  | .inl h => congrArg isNaN h
  | .inr ⟨ha, hb⟩ => ha.trans hb.symm

theorem EqUpToNaN.eq {a b : Word} (h : EqUpToNaN a b) (ha : isNaN a = false) : a = b :=
  h.resolve_right fun hn => by simp [ha] at hn

section
variable {a a' b b' : Word} (d d' : NaNBits) (ha : EqUpToNaN a a') (hb : EqUpToNaN b b')

/-- The free NaN bits are seen only in a NaN. -/
theorem fadd_eqUpToNaN_self : EqUpToNaN (fadd d a b) (fadd d' a b) := by
  unfold fadd
  split_ifs <;> simp [EqUpToNaN]

theorem fmul_eqUpToNaN_self : EqUpToNaN (fmul d a b) (fmul d' a b) := by
  unfold fmul
  split_ifs <;> simp [EqUpToNaN]

theorem EqUpToNaN.flipSign : EqUpToNaN b b' → EqUpToNaN (flipSign b) (flipSign b')
  | .inl h => .inl (congrArg _ h)
  | .inr h => .inr (by simpa using h)

include ha hb

theorem EqUpToNaN.fadd : EqUpToNaN (fadd d a b) (fadd d' a' b') := by
  rcases ha with rfl | ⟨ha, ha'⟩
  · rcases hb with rfl | ⟨hb, hb'⟩
    · exact fadd_eqUpToNaN_self d d'
    · exact .inr ⟨absorbing_isNaN.fadd d (.inr hb), absorbing_isNaN.fadd d' (.inr hb')⟩
  · exact .inr ⟨absorbing_isNaN.fadd d (.inl ha), absorbing_isNaN.fadd d' (.inl ha')⟩

theorem EqUpToNaN.fsub : EqUpToNaN (fsub d a b) (fsub d' a' b') := ha.fadd d d' hb.flipSign

theorem EqUpToNaN.fmul : EqUpToNaN (fmul d a b) (fmul d' a' b') := by
  rcases ha with rfl | ⟨ha, ha'⟩
  · rcases hb with rfl | ⟨hb, hb'⟩
    · exact fmul_eqUpToNaN_self d d'
    · exact .inr ⟨absorbing_isNaN.fmul d (.inr hb), absorbing_isNaN.fmul d' (.inr hb')⟩
  · exact .inr ⟨absorbing_isNaN.fmul d (.inl ha), absorbing_isNaN.fmul d' (.inl ha')⟩

end

section
variable (d d' : Nat → Nat → NaNBits) (c : Coeffs) {x x' : Nat → Word}

/-- Delay elements equal up to NaN bits, and equal samples, give output samples equal up to NaN bits. -/
theorem filterOut_eqUpToNaN_of_delay {k : Nat} (hz : EqUpToNaN (filterDelay d c x k).1 (filterDelay d' c x' k).1)
    (hx : x k = x' k) : EqUpToNaN (filterOut d c x k) (filterOut d' c x' k) :=
  hz.fadd _ _ ((EqUpToNaN.refl _).fmul _ _ (.inl hx))

theorem filterDelay_eqUpToNaN {n : Nat} (hx : ∀ k < n, x k = x' k) : ∀ k ≤ n,
    EqUpToNaN (filterDelay d c x k).1 (filterDelay d' c x' k).1 ∧
      EqUpToNaN (filterDelay d c x k).2 (filterDelay d' c x' k).2
  | 0, _ => ⟨.refl _, .refl _⟩
  | k + 1, hk => by
    obtain ⟨hz1, hz2⟩ := filterDelay_eqUpToNaN hx k (by omega)
    have hxk : EqUpToNaN (x k) (x' k) := .inl (hx k hk)
    have hy := filterOut_eqUpToNaN_of_delay d d' c hz1 (hx k hk)
    rw [filterDelay_succ, filterDelay_succ]
    exact ⟨(hz2.fadd _ _ (hxk.fmul _ _ (.refl _))).fsub _ _ (hy.fmul _ _ (.refl _)),
      (hxk.fmul _ _ (.refl _)).fsub _ _ (hy.fmul _ _ (.refl _))⟩

/-- R172: coefficients and samples fix the output but for NaN bits. -/
theorem filterOut_eqUpToNaN {n : Nat} (hx : ∀ k < n, x k = x' k) {k : Nat} (hk : k < n) :
    EqUpToNaN (filterOut d c x k) (filterOut d' c x' k) :=
  filterOut_eqUpToNaN_of_delay d d' c (filterDelay_eqUpToNaN d d' c hx k hk.le).1 (hx k hk)

end

/-! ## The statements -/

/-- Settles O27: the delay elements of each sample are those of `filterDelay`. -/
theorem filterCompletes : Obligations.FilterCompletes := by
  intro s ha hn
  obtain ⟨t, ht, hs, hregs, hy, hrest, hx⟩ := exec_filter_of_valid ha hn
  let z := filterDelay s.nanAt s.regs.coeffs (s.elem .x)
  refine ⟨t, ht, hs, hregs, ⟨fun k => (z k).1, fun k => (z k).2, rfl, rfl, fun k hk => ?_⟩, hrest, hx⟩
  rw [hy k hk]
  exact ⟨rfl, rfl, rfl⟩

/-- Settles O28: one error branch of FILTER per check. -/
theorem filterChecksInOrder : Obligations.FilterChecksInOrder := fun s =>
  ⟨fun ha => failsWith_of_error (exec_filter s) (filterRun_of_coeffs_malformed ha) (by decide),
    fun ha hn => failsWith_of_error (exec_filter s) (filterRun_of_length_invalid ha hn) (by decide)⟩

/-- Settles O29: the NaNs and the words that are not finite are absorbing classes. -/
theorem filterNonFinitePropagates : Obligations.FilterNonFinitePropagates := by
  intro s k ha hn _
  obtain ⟨t, ht, -, -, hy, -⟩ := exec_filter_of_valid ha hn
  refine ⟨t, ht, fun j hkj hj => ?_⟩
  rw [hy j hj]
  exact ⟨fun hx => filterOut_of_absorbing absorbing_isNaN _ _ hx j hkj,
    fun hx => filterOut_of_absorbing absorbing_not_isFinite _ _ hx j hkj⟩

/-- Settles O30: the delay elements of the two runs stay equal up to NaN bits. -/
theorem filterDeterministic : Obligations.FilterDeterministic := by
  intro s s' hb0 hb1 hb2 ha0 ha0' ha1 ha2 hlen hn hx
  have hc : s'.regs.coeffs = s.regs.coeffs := by simp [Regs.coeffs, hb0, hb1, hb2, ha0, ha0', ha1, ha2]
  obtain ⟨t, ht, -, hregs, hy, -⟩ := exec_filter_of_valid ha0 hn
  obtain ⟨t', ht', -, hregs', hy', -⟩ := exec_filter_of_valid ha0' (hlen ▸ hn)
  refine ⟨t, t', ht, ht', by rw [hregs, hregs', hlen], fun k hk => ?_⟩
  have h := filterOut_eqUpToNaN s.nanAt s'.nanAt s.regs.coeffs hx hk
  rw [hy k hk, hy' k (hlen ▸ hk), hc]
  exact ⟨h.isNaN_eq, h.eq⟩

end Sys2Proof.Machine
end

section
/-! SUPPORT. 43_frequency_response.md R190 to R193: the curve of EVAL as functions of the grid index, and with them what EVAL
completes with (O32) and its checks (O33). -/

namespace Sys2Proof.Machine

open Sys2Proof.Claims

/-! ## The curve by grid index (R191, R192) -/

theorem mapIdx_map_range {α β : Type} (f : Nat → α) (g : Nat → α → β) (n : Nat) :
    ((List.range n).map f).mapIdx g = (List.range n).map fun k => g k (f k) :=
  List.ext_getElem (by simp) (by simp)

section
variable (d : Nat → Nat → NaNBits) (c : Coeffs) (fs : Word) (p : Nat)

/-- Point k of the grid. -/
def gridPoint (k : Nat) : Word :=
  if p = 1 then fzero
  else if k + 1 = p then gridHalf (d 0 0) fs
  else fmul (d k 2) (i2f k) (gridStep (d 0) fs p)

/-- H at point k of the grid. -/
def gridTransfer (k : Nat) : Word × Word := transfer (d k) c (gridPoint d fs p k) fs

/-- The wrapped phase at point k of the grid. -/
def gridPhase (k : Nat) : Word := wrappedPhase (d k) (gridTransfer d c fs p k)

theorem grid_eq_map_range : grid d fs p = (List.range p).map (gridPoint d fs p) := by
  refine List.ext_getElem (by simp) fun k hk _ => ?_
  rw [grid_length] at hk
  rw [← Option.some_inj, ← List.getElem?_eq_getElem, grid_getElem? d fs hk]
  simp [gridPoint]

theorem response_eq_map_range : response d c fs p = (List.range p).map (gridTransfer d c fs p) := by
  rw [response, grid_eq_map_range, mapIdx_map_range]
  rfl

theorem magnitudes_eq_map_range :
    magnitudes d c fs p = (List.range p).map fun k => magnitudeDb (d k) (gridTransfer d c fs p k) := by
  rw [magnitudes, response_eq_map_range, mapIdx_map_range]

end

/-! ## UNWRAP by grid index (R193) -/

section
variable (d : Nat → Nat → NaNBits) (ph : Nat → Word)

/-- The correction c at index k of the wrapped phases `ph`. -/
def phaseJump (k : Nat) : Word := unwrapCorrection (d k) (ph (k - 1)) (ph k)

/-- The running sum of the corrections: the first one starts it, and is not added to a zero. -/
def phaseOffset : Nat → Word
  | 0 => fzero
  | k + 1 => if k + 1 = 1 then phaseJump d ph (k + 1) else fadd (d (k + 1) 51) (phaseOffset k) (phaseJump d ph (k + 1))

/-- Unwrapped phase k. -/
def unwrappedPhase : Nat → Word
  | 0 => ph 0
  | k + 1 => fadd (d (k + 1) 52) (ph (k + 1)) (phaseOffset d ph (k + 1))

/-- Started after index i with the phase and the sum of that index, UNWRAP lists the unwrapped phases from i + 1 on. -/
theorem unwrapFrom_range' (i n : Nat) :
    unwrapFrom d (i + 1) (ph i) (phaseOffset d ph i) ((List.range' (i + 1) n).map ph) =
      (List.range' (i + 1) n).map (unwrappedPhase d ph) := by
  induction n generalizing i with
  | zero => rfl
  | succ n ih => exact congrArg (unwrappedPhase d ph (i + 1) :: ·) (ih (i + 1))

theorem unwrap_range (n : Nat) : unwrap d ((List.range n).map ph) = (List.range n).map (unwrappedPhase d ph) := by
  rw [List.range_eq_range']
  cases n with
  | zero => rfl
  | succ n => exact congrArg (ph 0 :: ·) (unwrapFrom_range' d ph 0 n)

end

/-- PHASE[k] is unwrapped phase k in degrees (R190). -/
theorem phases_eq_map_range (d : Nat → Nat → NaNBits) (c : Coeffs) (fs : Word) (p : Nat) :
    phases d c fs p = (List.range p).map fun k =>
      fmul (d k 53) (unwrappedPhase d (gridPhase d c fs p) k) rad2deg64 := by
  rw [phases, response_eq_map_range, mapIdx_map_range]
  change (unwrap d ((List.range p).map (gridPhase d c fs p))).mapIdx _ = _
  rw [unwrap_range, mapIdx_map_range]

/-! ## The pseudocode of the statements (R192, R193) -/

theorem point_transfer (d : Nat → NaNBits) (g : Regs) (f : Word) :
    Point d g f (magnitudeDb d (transfer d g.coeffs f g.fs)) (wrappedPhase d (transfer d g.coeffs f g.fs)) := ⟨rfl, rfl⟩

theorem correction_unwrapCorrection (d : Nat → NaNBits) (prev ph : Word) :
    Correction d prev ph (unwrapCorrection d prev ph) := by
  simp only [Correction, unwrapCorrection, Bool.and_eq_true]

/-! ## The checks and the run of EVAL (R190, R223) -/

theorem depth_of_mem_curve : ∀ b ∈ [Buf.freq, .mag, .phase], b.depth = 8192 := by decide

/-- The elements of the curve after a write of the first n elements of one of its buffers. -/
theorem State.elem_setElems_curve (s : State) {b b' : Buf} {f : Nat → Word} {n k : Nat} (hb : b ∈ [Buf.freq, .mag, .phase])
    (hb' : b' ∈ [Buf.freq, .mag, .phase]) (hn : n ≤ 8192) (hk : k < 8192) :
    (s.setElems b 0 ((List.range n).map f)).elem b' k = if b' = b ∧ k < n then f k else s.elem b' k := by
  rw [s.elem_setElems (by simpa [depth_of_mem_curve b hb]) (by rwa [depth_of_mem_curve b' hb'])]
  simp

section
variable {s : State}

theorem evalRun_of_coeffs_malformed (ha : s.regs.a0 ≠ 0x3FF0000000000000#64) : evalRun s = .error .coeffMalformed :=
  if_pos (by rwa [Bool.not_eq_true', ← Bool.not_eq_true, coeffsValid_iff])

variable (ha : s.regs.a0 = 0x3FF0000000000000#64)
include ha

theorem evalRun_of_fs_invalid (hfs : ¬ fsValid s.regs.fs = true) : evalRun s = .error .fsInvalid := by
  rw [evalRun, coeffsValid_iff.2 ha, if_neg (by decide), if_pos (by simpa using hfs)]

variable (hfs : fsValid s.regs.fs = true)
include hfs

theorem evalRun_of_length_invalid (hp : 8192 < s.regs.npoints.toNat) : evalRun s = .error .lengthInvalid := by
  rw [evalRun, coeffsValid_iff.2 ha, hfs, if_neg (by decide), if_neg (by decide)]
  exact if_pos hp

variable (hp : s.regs.npoints.toNat ≤ 8192)
include hp

theorem evalRun_of_valid : evalRun s = .ok ((((s.setElems .freq 0 (grid s.nanAt s.regs.fs s.regs.npoints.toNat)).setElems
    .mag 0 (magnitudes s.nanAt s.regs.coeffs s.regs.fs s.regs.npoints.toNat)).setElems
    .phase 0 (phases s.nanAt s.regs.coeffs s.regs.fs s.regs.npoints.toNat)).setReg .respLen s.regs.npoints) := by
  rw [evalRun, coeffsValid_iff.2 ha, hfs, if_neg (by decide), if_neg (by decide)]
  exact if_neg hp.not_gt

/-- An EVAL within its checks leaves point k of the curve in element k, NPOINTS in RESP_LEN, and the rest of the three
buffers as before. -/
theorem exec_eval_curve : ∃ t, exec .eval s = .next t ∧ Succeeds s t ∧
    t.regs = { s.regs with respLen := s.regs.npoints } ∧
    (∀ k < s.regs.npoints.toNat,
      t.elem .freq k = gridPoint s.nanAt s.regs.fs s.regs.npoints.toNat k ∧
      t.elem .mag k =
        magnitudeDb (s.nanAt k) (gridTransfer s.nanAt s.regs.coeffs s.regs.fs s.regs.npoints.toNat k) ∧
      t.elem .phase k = fmul (s.nanAt k 53)
        (unwrappedPhase s.nanAt (gridPhase s.nanAt s.regs.coeffs s.regs.fs s.regs.npoints.toNat) k) rad2deg64) ∧
    ∀ b ∈ [Buf.freq, .mag, .phase], ∀ k, s.regs.npoints.toNat ≤ k → k < 8192 → t.elem b k = s.elem b k := by
  refine ⟨_, exec_eval s, ?_⟩
  rw [evalRun_of_valid ha hfs hp, State.complete_ok, grid_eq_map_range, magnitudes_eq_map_range, phases_eq_map_range]
  refine ⟨⟨rfl, rfl, rfl, rfl⟩, rfl, fun k hk => ?_, fun b hb k hk hd => ?_⟩
  · have hd := hk.trans_le hp
    refine ⟨?_, ?_, ?_⟩ <;> simp [State.elem_setElems_curve, hp, hk, hd]
  · simp only [List.mem_cons, List.not_mem_nil, or_false] at hb
    rcases hb with rfl | rfl | rfl <;> simp [State.elem_setElems_curve, hp, hk.not_gt, hd]

end

/-! ## The statements -/

/-- Settles O32: the wrapped phases, the corrections and their running sum are `gridPhase`, `phaseJump` and `phaseOffset`. -/
theorem evalCompletes : Obligations.EvalCompletes := by
  intro s ha hfin hpos hp
  obtain ⟨t, ht, hs, hregs, hcurve, hrest⟩ := exec_eval_curve ha (fsValid_iff.2 ⟨hfin, hpos⟩) hp
  let ph := gridPhase s.nanAt s.regs.coeffs s.regs.fs s.regs.npoints.toNat
  refine ⟨t, ht, hs, hregs, fun k hk => (hcurve k hk).1,
    ⟨ph, phaseJump s.nanAt ph, phaseOffset s.nanAt ph, fun k hk => ?_⟩, hrest⟩
  obtain ⟨hfreq, hmag, hphase⟩ := hcurve k hk
  rw [hfreq, hmag, hphase]
  refine ⟨point_transfer _ _ _, ?_, ?_⟩
  · rintro rfl
    rfl
  · intro hk0
    obtain ⟨j, rfl⟩ := Nat.exists_eq_succ_of_ne_zero hk0
    exact ⟨correction_unwrapCorrection _ _ _, rfl, rfl⟩

/-- Settles O33: one error branch of EVAL per check, each taken when the checks before it pass. -/
theorem evalChecksInOrder : Obligations.EvalChecksInOrder := by
  intro s
  simp only [← fsValid_iff]
  refine ⟨fun ha => ?_, fun ha hfs => ?_, fun ha hfs hp => ?_⟩
  · exact failsWith_of_error (exec_eval s) (evalRun_of_coeffs_malformed ha) (by decide)
  · exact failsWith_of_error (exec_eval s) (evalRun_of_fs_invalid ha hfs) (by decide)
  · exact failsWith_of_error (exec_eval s) (evalRun_of_length_invalid ha hfs hp) (by decide)

end Sys2Proof.Machine
end

section
/-! SUPPORT. 60_exceptions.md R224 to R227, R237: what an error leaves alone (O35), the frames of GEN (O22), DESIGN (O26),
FILTER (O31) and EVAL (O34), the engine's turn (O11, O13), a host write of CMD (O37), and that an accepted command is
completed (O14). -/

namespace Sys2Proof.Machine

open Sys2Proof.Claims

/-! ## The engine's turn (R225, R237) -/

section
variable {s t : State} {i : Instr}

theorem engineTurn_of_idle (hb : s.status.busy = false) : engineTurn s = .next s := by
  simp [engineTurn, hb]

theorem engineTurn_of_legal (hb : s.status.busy = true) (hd : decode s.pend = .ok i) : engineTurn s = exec i s := by
  simp [engineTurn, hb, hd]

/-! ## What a completion leaves alone (R225, R226) -/

theorem exec_busy (h : exec i s = .next t) : t.status.busy = false := by
  rcases exec_cases h with ⟨c, -, rfl⟩ | ⟨u, -, rfl⟩ <;> rfl

/-- PEND, the host's side, OVR, LAST_OP and LAST_KIND are in no command's output set (R227). -/
theorem exec_keeps (h : exec i s = .next t) :
    t.pend = s.pend ∧ t.inputs = s.inputs ∧ t.rdata = s.rdata ∧
    t.status.ovr = s.status.ovr ∧ t.status.lastOp = s.status.lastOp ∧ t.status.lastKind = s.status.lastKind := by
  rcases exec_cases h with ⟨c, -, rfl⟩ | ⟨u, hu, rfl⟩
  · exact ⟨rfl, rfl, rfl, rfl, rfl, rfl⟩
  · simp [hu.pend, hu.inputs, hu.rdata, hu.status]

/-- A completion that leaves ERR = 1 took an error: a commit finishes without a cause. -/
theorem exec_eq_finish_of_err (h : exec i s = .next t) (he : t.status.err = true) : ∃ c, t = s.finish c := by
  rcases exec_cases h with ⟨c, -, rfl⟩ | ⟨u, -, rfl⟩
  · exact ⟨c, rfl⟩
  · simp at he

/-- The same of the engine's turn: an illegal word finishes with ILLEGAL_CMD. -/
theorem engineTurn_eq_finish_of_err (hb : s.status.busy = true) (h : engineTurn s = .next t) (he : t.status.err = true) :
    ∃ c, t = s.finish c := by
  cases hd : decode s.pend with
  | ok i =>
    rw [engineTurn_of_legal hb hd] at h
    exact exec_eq_finish_of_err h he
  | error e =>
    rw [engineTurn_of_illegal hb hd] at h
    cases h
    exact ⟨.illegalCmd, rfl⟩

end

/-! ## The bytes a command leaves alone (R227) -/

/-- The buffers in the output set of a command. -/
def writtenBufs : Instr → List Buf
  | .genSine | .genSaw | .genSquare => [.x]
  | .filter => [.y]
  | .eval => [.freq, .mag, .phase]
  | .genUnknownKind | .design => []

/-- How many elements of each a success writes, from the registers after it (for GEN the new X_LEN). -/
def writtenCount : Instr → Regs → Nat
  | .genSine, g | .genSaw, g | .genSquare, g | .genUnknownKind, g | .design, g | .filter, g => g.xLen.toNat
  | .eval, g => g.npoints.toNat

/-- The byte at `a` is in no element that a success of `i` writes. -/
def OutsideWritten (i : Instr) (g : Regs) (a : Nat) : Prop :=
  ∀ b ∈ writtenBufs i, a < b.addr 0 ∨ b.addr (writtenCount i g) ≤ a

section
variable {s t u : State} {i : Instr} {a : Nat}

/-- Elements written from the first one on leave the bytes below the first and from the last one's end on. -/
theorem State.readByte_setElems_outside {b : Buf} {ws : List Word} {n : Nat} (hn : ws.length = n)
    (h : a < b.addr 0 ∨ b.addr n ≤ a) : (s.setElems b 0 ws).mem.readByte a = s.mem.readByte a :=
  State.readByte_setElems s (by simpa [Buf.addr, hn] using h)

theorem Commits.readByte_of_outside (h : Commits s i u) (ha : OutsideWritten i u.regs a) :
    u.mem.readByte a = s.mem.readByte a := by
  cases h with
  | gen hi ws hd =>
    have hcount : ws.length = (BitVec.ofNat 64 ws.length).toNat := by
      rw [BitVec.toNat_ofNat, Nat.mod_eq_of_lt (hd.trans_lt (by decide))]
    refine State.readByte_setElems_outside hcount ?_
    rcases hi with rfl | rfl | rfl <;> exact ha .x (by simp [writtenBufs])
  | design c => rfl
  | filter ws hw hd => exact State.readByte_setElems_outside hw (ha .y (by simp [writtenBufs]))
  | eval fr mg ph hf hm hp hd =>
    rw [State.setReg_mem, State.readByte_setElems_outside hp (ha .phase (by simp [writtenBufs])),
      State.readByte_setElems_outside hm (ha .mag (by simp [writtenBufs])),
      State.readByte_setElems_outside hf (ha .freq (by simp [writtenBufs]))]

theorem exec_readByte_of_outside (h : exec i s = .next t) (ha : OutsideWritten i t.regs a) :
    t.mem.readByte a = s.mem.readByte a := by
  rcases exec_cases h with ⟨c, -, rfl⟩ | ⟨u, hu, rfl⟩
  · rfl
  · exact hu.readByte_of_outside ha

/-- The frame of a command whose only register is the length `r`, with `P` the bytes it is said to leave alone. -/
theorem exec_frame_of_length {r : Reg} {P : Nat → Prop} (h : exec i s = .next t)
    (hr : ∀ r', outputSet i s.regs (.reg r') = true → r' = r) (hP : ∀ a, P a → OutsideWritten i t.regs a) :
    (∀ r', r' ≠ r → t.regs.get r' = s.regs.get r') ∧
    t.pend = s.pend ∧ t.inputs = s.inputs ∧ t.rdata = s.rdata ∧
    t.status.ovr = s.status.ovr ∧ t.status.lastOp = s.status.lastOp ∧ t.status.lastKind = s.status.lastKind ∧
    (t.status.err = true → t.regs.get r = s.regs.get r ∧ ∀ a, t.mem.readByte a = s.mem.readByte a) ∧
    ∀ a, P a → t.mem.readByte a = s.mem.readByte a := by
  obtain ⟨hpend, hinputs, hrdata, hovr, hop, hkind⟩ := exec_keeps h
  refine ⟨fun r' hne => exec_get_of_not_output h (Bool.eq_false_iff.2 (mt (hr r') hne)),
    hpend, hinputs, hrdata, hovr, hop, hkind, fun he => ?_, fun a ha => exec_readByte_of_outside h (hP a ha)⟩
  obtain ⟨c, rfl⟩ := exec_eq_finish_of_err h he
  exact ⟨rfl, fun _ => rfl⟩

end

/-! ## The frames of the commands -/

/-- Settles O22: X_LEN is the only register and X the only buffer GEN writes; GEN_UNKNOWN_KIND writes neither. -/
theorem genFrame : Obligations.GenFrame := by
  intro i hi s t h
  simp only [List.mem_cons, List.not_mem_nil, or_false] at hi
  refine exec_frame_of_length (r := .xLen) h (fun r hr => ?_) fun a ha b hb => ?_
  · rcases hi with rfl | rfl | rfl | rfl <;> cases r <;> simp [outputSet] at hr ⊢
  · have hx : writtenBufs i ⊆ [.x] := by rcases hi with rfl | rfl | rfl | rfl <;> simp [writtenBufs]
    obtain rfl := List.mem_singleton.1 (hx hb)
    rcases hi with rfl | rfl | rfl | rfl <;> exact ha

/-- Settles O31: Y_LEN is the only register and Y the only buffer FILTER writes, and X_LEN is kept. -/
theorem filterFrame : Obligations.FilterFrame := by
  intro s t h
  have hx : t.regs.xLen = s.regs.xLen := exec_get_of_not_output h (r := .xLen) rfl
  refine exec_frame_of_length (r := .yLen) h (fun r hr => ?_) fun a ha b hb => ?_
  · cases r <;> simp [outputSet] at hr ⊢
  · obtain rfl := List.mem_singleton.1 hb
    rwa [writtenCount, hx]

/-- Settles O34: RESP_LEN is the only register EVAL writes, and NPOINTS is kept. -/
theorem evalFrame : Obligations.EvalFrame := by
  intro s t h
  have hp : t.regs.npoints = s.regs.npoints := exec_get_of_not_output h (r := .npoints) rfl
  refine exec_frame_of_length (r := .respLen) h (fun r hr => ?_) fun a ha b hb => ?_
  · cases r <;> simp [outputSet] at hr ⊢
  · rw [writtenCount, hp]
    exact ha b hb

/-- Settles O26: the six coefficients are the only registers of DESIGN's output set, which holds no buffer. -/
theorem designFrame : Obligations.DesignFrame := by
  intro s t h
  obtain ⟨hpend, hinputs, hrdata, hovr, hop, hkind⟩ := exec_keeps h
  refine ⟨fun r hr => exec_get_of_not_output h ?_, hpend, hinputs, hrdata, hovr, hop, hkind, fun he => ?_,
    fun a => exec_readByte_of_outside h fun b hb => absurd hb List.not_mem_nil⟩
  · cases r <;> simp [outputSet] at hr ⊢
  · obtain ⟨c, rfl⟩ := exec_eq_finish_of_err h he
    rfl

/-- Settles O35: with ERR = 1 the completion is `State.finish`, which writes STATUS alone. -/
theorem errorWritesOnlyStatus : Obligations.ErrorWritesOnlyStatus := by
  refine ⟨fun i s t h he => ?_, fun s t rest hn hb h he => ?_⟩
  · obtain ⟨c, rfl⟩ := exec_eq_finish_of_err h he
    exact ⟨rfl, rfl, rfl⟩
  · rw [step_of_engineNext hn] at h
    obtain ⟨c, rfl⟩ := engineTurn_eq_finish_of_err (s := { s with inputs := rest }) hb h he
    exact ⟨rfl, rfl, rfl⟩

/-! ## The step of the engine -/

/-- Settles O11: the turn of a busy engine whose PEND is legal. -/
theorem stepRunsPendingCommand : Obligations.StepRunsPendingCommand := fun s rest _ hn hb hd =>
  (step_of_engineNext hn).trans (engineTurn_of_legal (s := { s with inputs := rest }) hb hd)

/-- Settles O13: the turn of an idle engine passes. -/
theorem idleEngineKeepsState : Obligations.IdleEngineKeepsState := fun s rest hn hb =>
  (step_of_engineNext hn).trans (engineTurn_of_idle (s := { s with inputs := rest }) hb)

/-! ## A host write of CMD (R224) -/

theorem State.hostWrite_cmd (s : State) (w : Word) : s.hostWrite 0x010 w = s.submit w := by
  rw [State.hostWrite, show locate 0x010 = .cmd by decide]

theorem State.submit_of_busy {s : State} (hb : s.status.busy = true) (w : Word) : s.submit w = s.dropWrite := if_pos hb

theorem State.submit_of_idle {s : State} (hb : s.status.busy = false) (w : Word) : s.submit w = s.accept w :=
  if_neg (Bool.eq_false_iff.1 hb)

/-- Settles O37: the write is the submission of its word, by the two values of BUSY. -/
theorem cmdWriteAcceptedOrDropped : Obligations.CmdWriteAcceptedOrDropped := by
  intro s w rest hi
  have hstep := step_write hi (by decide)
  rw [State.hostWrite_cmd] at hstep
  refine ⟨fun hb => ?_, fun hb => ?_⟩
  · rw [hstep, State.submit_of_busy (s := { s with inputs := rest }) hb]
    rfl
  · rw [hstep, State.submit_of_idle (s := { s with inputs := rest }) hb]
    rfl

/-! ## An accepted command completes (R225) -/

theorem run_succ_of_step {M : Host.Core} {s t : M.State} (h : M.step s = .next t) (k : Nat) :
    M.run (k + 1) s = M.run k t := by
  rw [Host.Core.run, h]

/-- While BUSY = 1, a step that is no reset completes the command or is a host access. -/
theorem step_busy {s t : State} (hb : s.status.busy = true) (hr : ∀ i ∈ s.inputs, i ≠ .reset)
    (h : step s = .next t) :
    t.status.busy = false ∨ t.status.busy = true ∧ s.inputs ≠ [] := by
  cases step_cases h with
  | idle _ _ hidle => simp [hb] at hidle
  | command _ _ _ _ _ _ he => exact .inl (exec_busy he)
  | illegal => exact .inl rfl
  | read _ _ _ hi => exact .inr ⟨hb, by simp [hi]⟩
  | write off _ v rest hi =>
    obtain ⟨u, hu, e⟩ := State.hostWrite_of_busy (s := { s with inputs := rest }) hb off v
    exact .inr ⟨by rwa [e], by simp [hi]⟩
  | reset rest hi => exact absurd rfl (hr .reset (by simp [hi]))

/-- Settles O14, by induction on the steps to come: each completes the command or is one less to come. -/
theorem acceptedCommandCompletes : Obligations.AcceptedCommandCompletes := by
  intro s hb hobeys hr
  induction hn : s.inputs generalizing s with
  | nil =>
    obtain ⟨t, hstep, -⟩ := obedientHostNeverStuck s hobeys
    have hdone := (step_busy hb hr hstep).resolve_right fun h => h.2 hn
    exact ⟨1, le_rfl, t, run_succ_of_step (M := core) hstep 0, hdone⟩
  | cons i rest ih =>
    obtain ⟨t, hstep, hobeys'⟩ := obedientHostNeverStuck s hobeys
    have hrest : t.inputs = s.inputs.tail := step_inputs hstep
    rcases step_busy hb hr hstep with hdone | ⟨hb', -⟩
    · exact ⟨1, by simp, t, run_succ_of_step (M := core) hstep 0, hdone⟩
    · have hr' : ∀ j ∈ t.inputs, j ≠ .reset := fun j hj => hr j (List.mem_of_mem_tail (hrest ▸ hj))
      obtain ⟨k, hk, u, hrun, hdone⟩ := ih t hb' hobeys' hr' (by rw [hrest, hn, List.tail_cons])
      exact ⟨k + 1, Nat.succ_le_succ hk, u, (run_succ_of_step (M := core) hstep k).trans hrun, hdone⟩

end Sys2Proof.Machine
end

section
/-! SUPPORT. 70_reset_and_hazards.md: what reset leaves (R250, R251: O5, O7), and a host write while BUSY = 1 (R260: O40). -/

namespace Sys2Proof.Machine

open Sys2Proof.Claims

/-! ## A host write while BUSY = 1 (R75, R260) -/

/-- The writable locations are exactly the RW locations the statements name by offset. -/
theorem writable_iff_rwLocation {off : Nat} (ha : off % 8 = 0) : (locate off).writable = true ↔ RwLocation off := by
  refine ⟨rwLocation_of_writable ha, ?_⟩
  rintro (hreg | ⟨hlo, hhi⟩)
  · obtain ⟨r, hr, rfl⟩ := exists_reg_of_rwRegister hreg
    rwa [locate_reg.2 rfl]
  · obtain ⟨i, rfl⟩ : ∃ i, off = Buf.addr .x i := ⟨(off - 0x100000) / 8, by simp only [Buf.addr, Buf.base]; omega⟩
    have hi : i < Buf.depth .x := by simp only [Buf.addr, Buf.base, Buf.depth, Config.bufDepth] at hhi ⊢; omega
    rw [locate_addr hi, Loc.writable]

/-- A write of any location but CMD and STATUS (R75 case 3): dropped at an RW location, ignored at any other. -/
theorem State.hostWrite_of_busy_eq_ite {s : State} {off : Nat} (hb : s.status.busy = true) (hc : locate off ≠ .cmd)
    (hs : locate off ≠ .status) (v : Word) :
    s.hostWrite off v = if (locate off).writable = true then s.dropWrite else s := by
  rcases s.hostWrite_cases off v with ⟨h, -⟩ | ⟨h, -⟩ | ⟨-, -, ⟨-, hw, e⟩ | ⟨-, hw, e⟩ | ⟨hidle, -⟩⟩
  · exact absurd h hc
  · exact absurd h hs
  · rw [e, if_pos hw]
  · rw [e, if_neg (Bool.eq_false_iff.1 hw)]
  · simp [hb] at hidle

/-- Settles O40: a write of CMD is a submission while BUSY = 1, and what becomes of any other is decided by whether its
location is RW. -/
theorem writeWhileBusyDropped : Obligations.WriteWhileBusyDropped := by
  intro s off v rest hb hi ha hoff hstatus
  by_cases hcmd : off = 0x010
  · subst hcmd
    exact ⟨fun _ => (cmdWriteAcceptedOrDropped s v rest hi).1 hb, fun hn => absurd (.inl rfl) hn⟩
  · rw [step_write hi (admitted_of_aligned ha hoff), State.hostWrite_of_busy_eq_ite (s := { s with inputs := rest }) hb
      (fun h => hcmd (locate_cmd h)) (fun h => hstatus (locate_status h)), or_iff_right hcmd, ← writable_iff_rwLocation ha]
    refine ⟨fun hw => ?_, fun hw => ?_⟩
    · rw [if_pos hw]
      rfl
    · rw [if_neg hw]

/-! ## Reset (R250, R251) -/

theorem Status.reset_toWord : Status.reset.toWord = 0#64 := by decide

/-- A reset lists nothing, so every byte is the free value of the new reset. -/
theorem Memory.readByte_afterReset (m : Memory) (a : Nat) :
    m.afterReset.readByte a = Config.freeByte (m.epoch + 1) a := rfl

/-- Reset always answers, whatever the block is doing. -/
theorem step_reset {s : State} {rest : List Input} (hi : s.inputs = .reset :: rest) :
    step s = .next { s with inputs := rest }.afterReset := by
  rw [step, hi]

/-- Settles O5: a closed fact, evaluated offset by offset of the register table. -/
theorem resetValues : Obligations.ResetValues := ⟨by decide, rfl, rfl⟩

/-- Settles O7: the step is State.afterReset, which keeps nothing of the block but the number of its last reset. -/
theorem resetInputAbandonsCommand : Obligations.ResetInputAbandonsCommand := by
  intro s rest hi
  exact ⟨_, step_reset hi, rfl, rfl, rfl, rfl, Status.reset_toWord, Memory.readByte_afterReset s.mem⟩

end Sys2Proof.Machine
end
